-- ==== Sys2Proof/Word.lean ====
section
/-! DEFINITION. The widths of the HTBD's data (00_scope R6, 10_state R44): every value is an unsigned bit vector of a fixed width. -/

namespace Sys2Proof

/-- A command word or a response word, `CMD_W = RESP_W = 64` (R6). -/
abbrev Word := BitVec 64

/-- A symbol, `SYM_W = 8`: "a single byte value (0-255)" (R6). -/
abbrev Symbol := BitVec 8

/-- A weight, `WEIGHT_W = 32`, unsigned (R6). -/
abbrev Weight := BitVec 32

/-- A node index or NIL, `IDX_W = 9` (R6). -/
abbrev NodeIdx := BitVec 9

/-- A count of content bits, `LEN_W = 48` (R6). -/
abbrev BitCount := BitVec 48

/-- The payload of a bit chunk, 32 bits (R81, format BT). -/
abbrev Payload := BitVec 32

end Sys2Proof
end

