-- ==== Sys2Proof/Syntax.lean ====
section
/-! DEFINITION. The thirteen commands of the HTBD (30_encoding R85), one constructor per row of the opcode table. -/

namespace Sys2Proof

/-- A command with its operands. A field the manual treats as bits is a bit vector of its own width; the bit count `n`
of a chunk and the register selector `sel` are numbers, bounded in `WellFormed` by their fields (R81, R82; log 15). -/
inductive Instr where
  /-- NOP: return STATUS (R200). -/
  | nop
  /-- CLR: soft reset (R201). -/
  | clr
  /-- SETW: set the weight of one symbol (R110). -/
  | setw (sym : Symbol) (val : Weight)
  /-- INCW: count one occurrence of a symbol (R111). -/
  | incw (sym : Symbol)
  /-- BUILD: build the Huffman tree from FREQ (R130). -/
  | build
  /-- IBITS: walk `n` code bits of a header entry (R150). -/
  | ibits (n : Nat) (payload : Payload)
  /-- ILEAF: end a header entry, marking a leaf (R152). -/
  | ileaf (sym : Symbol)
  /-- DSTART: start a decode of `len` bits (R170). -/
  | dstart (len : BitCount)
  /-- DBITS: decode a chunk of `n` bits (R171). -/
  | dbits (n : Nat) (payload : Payload)
  /-- DEND: the bit source is exhausted (R172). -/
  | dend
  /-- RDREG: read a register (R203). -/
  | rdreg (sel : Nat)
  /-- RDNODE: read a node record (R205). -/
  | rdnode (idx : NodeIdx)
  /-- RDFREQ: read a weight (R206). -/
  | rdfreq (sym : Symbol)
  deriving DecidableEq, Repr

end Sys2Proof
end

