-- ==== Sys2Proof/Decode.lean ====
section
/-! DEFINITION. The decoder, total on every 64-bit word (30_encoding R88), and after it the encoder, from the same tables (R81, R85). -/

namespace Sys2Proof

/-- Why a word is no command. Both raise ILLEGAL_CMD in the command step (R86, R87, R223). -/
inductive Illegal where
  /-- `OPC` is not in the table of R85 (R87). -/
  | unassignedOpcode (opc : BitVec 8)
  /-- `OPC` is assigned and a reserved bit of its format is 1 (R86). -/
  | reservedBitSet (opc : BitVec 8)
  deriving DecidableEq, Repr

/-- The seven formats of R81. -/
inductive Format where
  | N | SW | Y | BT | LN | IX | SL
  deriving DecidableEq, Repr

/-- The unsigned field of `w` of `len` bits whose lowest bit is bit `lo` (R8). -/
abbrev field (w : Word) (lo len : Nat) : BitVec len := w.extractLsb' lo len

/-- Every reserved bit of the format is 0: the bits of [55:0] that R81 names as no field. -/
def reservedZero : Format → Word → Bool
  | .N, w => field w 0 56 == 0
  | .SW, w => field w 40 16 == 0
  | .Y, w => field w 8 48 == 0
  | .BT, w => field w 38 18 == 0
  | .LN, w => field w 48 8 == 0
  | .IX, w => field w 9 47 == 0
  | .SL, w => field w 4 52 == 0

/-- `i`, unless a reserved bit of its format is set (R86, R88). -/
def checked (f : Format) (w : Word) (i : Instr) : Except Illegal Instr :=
  if reservedZero f w then .ok i else .error (.reservedBitSet (field w 56 8))

/-- The body of `Decode(w)` (R88): the opcode selects the format and the command (R85), the fields are read unscaled (R82). -/
def decodeAs (opc : BitVec 8) (w : Word) : Except Illegal Instr :=
  if opc = 0x00#8 then checked .N w .nop
  else if opc = 0x01#8 then checked .N w .clr
  else if opc = 0x10#8 then checked .SW w (.setw (field w 32 8) (field w 0 32))
  else if opc = 0x11#8 then checked .Y w (.incw (field w 0 8))
  else if opc = 0x12#8 then checked .N w .build
  else if opc = 0x20#8 then checked .BT w (.ibits (field w 32 6).toNat (field w 0 32))
  else if opc = 0x21#8 then checked .Y w (.ileaf (field w 0 8))
  else if opc = 0x30#8 then checked .LN w (.dstart (field w 0 48))
  else if opc = 0x31#8 then checked .BT w (.dbits (field w 32 6).toNat (field w 0 32))
  else if opc = 0x32#8 then checked .N w .dend
  else if opc = 0x40#8 then checked .SL w (.rdreg (field w 0 4).toNat)
  else if opc = 0x41#8 then checked .IX w (.rdnode (field w 0 9))
  else if opc = 0x42#8 then checked .Y w (.rdfreq (field w 0 8))
  else .error (.unassignedOpcode opc)

/-- `Decode(w)` of R88. -/
def decode (w : Word) : Except Illegal Instr :=
  decodeAs (field w 56 8) w

/-- The host's view of the decoder. A command is one 64-bit word (R80) and byte order is not visible (R62), so the
word is `w` itself, its bits above `nbits` zero; a number that does not fit 64 bits is no command word. -/
def decodeTableWord (nbits w : Nat) : Option Instr :=
  if w % 2 ^ nbits < 2 ^ 64 then (decode (BitVec.ofNat 64 (w % 2 ^ nbits))).toOption else none

/-- The opcode of a command (R85). -/
def Instr.opcode : Instr → BitVec 8
  | .nop => 0x00#8
  | .clr => 0x01#8
  | .setw _ _ => 0x10#8
  | .incw _ => 0x11#8
  | .build => 0x12#8
  | .ibits _ _ => 0x20#8
  | .ileaf _ => 0x21#8
  | .dstart _ => 0x30#8
  | .dbits _ _ => 0x31#8
  | .dend => 0x32#8
  | .rdreg _ => 0x40#8
  | .rdnode _ => 0x41#8
  | .rdfreq _ => 0x42#8

/-- Bits [55:0] of a command: its fields in their format's places, every other bit 0 (R81, R82). -/
def Instr.operandBits : Instr → BitVec 56
  | .nop => 0#56
  | .clr => 0#56
  | .setw sym val => 0#16 ++ (sym ++ val)
  | .incw sym => 0#48 ++ sym
  | .build => 0#56
  | .ibits n payload => 0#18 ++ (BitVec.ofNat 6 n ++ payload)
  | .ileaf sym => 0#48 ++ sym
  | .dstart len => 0#8 ++ len
  | .dbits n payload => 0#18 ++ (BitVec.ofNat 6 n ++ payload)
  | .dend => 0#56
  | .rdreg sel => 0#52 ++ BitVec.ofNat 4 sel
  | .rdnode idx => 0#47 ++ idx
  | .rdfreq sym => 0#48 ++ sym

/-- The word of a command: `OPC` in [63:56], the fields below it (R81). -/
def encode (i : Instr) : Word := i.opcode ++ i.operandBits

end Sys2Proof
end

