-- ==== Sys2Proof/Config.lean ====
section
/-! DEFINITION. The implementation parameters of 00_scope R6, at the values the spec gives them (log 7). The spec leaves no value of the HTBD open, so there is no free value here. -/

namespace Sys2Proof.Config

/-- `NSYM = 2^SYM_W`, the number of symbols (R6). -/
abbrev nsym : Nat := 256

/-- `WMAX = 2^WEIGHT_W - 1`, the largest weight (R6). -/
abbrev wmax : Nat := 0xFFFFFFFF

/-- `NODE_CAP`, the number of node records (R6, R31). -/
abbrev nodeCap : Nat := 511

/-- `NIL`, the index value that names no record (R6, R31). -/
abbrev nil : NodeIdx := 0x1FF#9

/-- `CHUNK_MAX`, the most bits one IBITS or DBITS carries (R6). -/
abbrev chunkMax : Nat := 32

end Sys2Proof.Config
end

