-- ==== Sys2Proof/Machine/State.lean ====
section
/-! DEFINITION. The state of the HTBD (10_state R20), the reasons a step can stop, and the state after power-on reset (70_reset_and_hazards R260). -/

namespace Sys2Proof.Machine

/-- `PHASE`, the control state (R24); the values 5 to 7 are never held (V6; log 5). -/
inductive Phase where
  /-- 0: no tree; the frequency table may be loaded. -/
  | idle
  /-- 1: a tree built by BUILD is in the node memory. -/
  | tree
  /-- 2: a tree is being reconstructed. -/
  | recon
  /-- 3: the Bit Decoder has bits left to consume. -/
  | decode
  /-- 4: the Bit Decoder has consumed BITLEN bits. -/
  | done
  deriving DecidableEq, Repr

/-- `ERR`, the code of the first error since reset or CLR (R25, R220); the values 11 to 15 are never produced (V5; log 5). -/
inductive Err where
  /-- 0: no error since reset or CLR. -/
  | none
  /-- 1: BUILD with every weight 0. -/
  | emptyAlphabet
  /-- 2: a header entry's code is empty, a duplicate, a prefix or an extension of another, or is left unfinished. -/
  | malformedHeader
  /-- 3: the bit source is exhausted before BITLEN bits. -/
  | truncatedStream
  /-- 4: a content bit selects a NIL child. -/
  | badPath
  /-- 5: the BITLEN-th bit ends inside a code. -/
  | partialSymbol
  /-- 6: a weight, or the total of all weights, above WMAX. -/
  | weightOvf
  /-- 7: a reconstruction needs a node and the node memory is full. -/
  | nodeOvf
  /-- 8: a command in a phase that does not accept it. -/
  | sequence
  /-- 9: an unassigned opcode or a reserved bit set. -/
  | illegalCmd
  /-- 10: an operand outside the command's range. -/
  | badOperand
  deriving DecidableEq, Repr

/-- `KIND` of an allocated record (R30): LEAF is 1, INTERNAL is 2; 0 stands for no record and 3 is never held. -/
inductive NodeKind where
  | leaf
  | internal
  deriving DecidableEq, Repr

/-- A node record (R30). `c0` is the zero-child and `c1` the one-child, an index or NIL. -/
structure NodeRec where
  kind : NodeKind
  sym : Symbol
  weight : Weight
  c0 : NodeIdx
  c1 : NodeIdx
  deriving DecidableEq, Repr

/-- The state vector of R20 and one field of the model's own, `input`. -/
structure State where
  /-- PHASE, the control state (R24). -/
  phase : Phase
  /-- ERR, the first error since reset or CLR (R25). -/
  err : Err
  /-- ROOT, the index of the tree's root, or NIL (R28). -/
  root : NodeIdx
  /-- NCOUNT, the number of allocated records, 0 to 511 (R29). -/
  ncount : BitVec 9
  /-- WALK, the reconstruction walk position, or NIL (R36). -/
  walk : NodeIdx
  /-- POS, the decoder position, or NIL (R37). -/
  pos : NodeIdx
  /-- BITLEN, the declared content bit length (R38). -/
  bitlen : BitCount
  /-- BITCNT, the bits consumed since the last DSTART (R38). -/
  bitcnt : BitCount
  /-- RESP, the response to the most recent command (R39). -/
  resp : Word
  /-- FREQ (R34): symbols strictly rising, no weight 0; an unlisted symbol has weight 0 (log 8). -/
  freq : List (Nat × Weight)
  /-- NODE (R30, R31): indices strictly rising; an unlisted index holds no record (log 3). -/
  node : List (Nat × NodeRec)
  /-- OUT, the emitted symbols, oldest first (R35). -/
  out : List Symbol
  /-- The command words the host has still to write, next first: the model's own field (log 1). -/
  input : List Word
  deriving DecidableEq, Repr

/-- Where a step stops. Neither is an error of the spec: those are codes in `err` and the machine goes on (R220). -/
inductive Fault where
  /-- Raised by BUILD, IBITS, ILEAF, DBITS and RDNODE on an internal access to an index that names no allocated record,
  which the spec says no command makes (R31, R63). Safe: no state that meets the structural invariant reaches it (log 3). -/
  | noRecord (idx : NodeIdx)
  /-- Raised by BUILD, IBITS and ILEAF when `Alloc` is called with all records allocated and no check before it, which the
  spec says does not happen (R32, R142, R149). Safe: no state that meets the structural invariant reaches it (log 4). -/
  | nodeMemoryFull
  deriving DecidableEq, Repr

/-- Why a step has no meaning. -/
inductive Refusal where
  /-- Raised by an arm of `exec` for a command that has no meaning yet. Safe: nothing is claimed of it. No arm does. -/
  | notModelled (mnemonic : String)
  deriving DecidableEq, Repr

/-- What one step of the HTBD answers. -/
abbrev Result := Host.Outcome State Fault Refusal

/-- The state after power-on reset (R260). -/
def State.reset : State where
  phase := .idle
  err := .none
  root := Config.nil
  ncount := 0
  walk := Config.nil
  pos := Config.nil
  bitlen := 0
  bitcnt := 0
  resp := 0
  freq := []
  node := []
  out := []
  input := []

end Sys2Proof.Machine
end

