-- ==== Sys2Proof/Machine/Flags.lean ====
section
/-! DEFINITION. The flag-like state (10_state R41): the codes of PHASE, ERR and KIND, the STATUS view, and how an error enters ERR. -/

namespace Sys2Proof.Machine

/-- The 3-bit value of PHASE (R24). -/
def phaseCode : Phase → BitVec 3
  | .idle => 0
  | .tree => 1
  | .recon => 2
  | .decode => 3
  | .done => 4

/-- The 4-bit value of ERR (R220). -/
def errCode : Err → BitVec 4
  | .none => 0
  | .emptyAlphabet => 1
  | .malformedHeader => 2
  | .truncatedStream => 3
  | .badPath => 4
  | .partialSymbol => 5
  | .weightOvf => 6
  | .nodeOvf => 7
  | .sequence => 8
  | .illegalCmd => 9
  | .badOperand => 10

/-- The 2-bit value of KIND of an allocated record (R30). -/
def kindCode : NodeKind → BitVec 2
  | .leaf => 1
  | .internal => 2

/-- STATUS, the composed view of NCOUNT, ROOT, ERR and PHASE (R26). -/
def status (s : State) : Word :=
  s.ncount.zeroExtend 64 <<< 32 ||| s.root.zeroExtend 64 <<< 16 |||
    (errCode s.err).zeroExtend 64 <<< 8 ||| (phaseCode s.phase).zeroExtend 64

/-- What ERR holds after an error `e` is raised while it held `old`: the first error is kept (R25, R221, R222). -/
def stickyErr (old e : Err) : Err :=
  if old = .none then e else old

end Sys2Proof.Machine
end

