-- ==== Sys2Proof/Machine/Operands.lean ====
section
/-! DEFINITION. The operand forms of the commands: bit chunks (30_encoding R84), register selectors (44_control_readout R204), a record's children and the packed record (R205). -/

namespace Sys2Proof.Machine

/-- `ChunkValid(N, PAYLOAD)` of R84. -/
def chunkValid (n : Nat) (payload : Payload) : Bool :=
  decide (1 ≤ n) && decide (n ≤ Config.chunkMax) && (decide (n = 32) || payload >>> n == 0)

/-- `Bits(N, PAYLOAD)` of R84: the `n` low bits of the payload, bit `n - 1` first. -/
def chunkBits : Nat → Payload → List Bool
  | 0, _ => []
  | n + 1, payload => payload.getLsbD n :: chunkBits n payload

/-- `Reg(SEL)` of R204, zero-extended to 64 bits; the selectors 5 to 15 name no register. -/
def readReg (sel : Nat) (s : State) : Option Word :=
  match sel with
  | 0 => some (status s)
  | 1 => some (s.bitlen.zeroExtend 64)
  | 2 => some (s.bitcnt.zeroExtend 64)
  | 3 => some (s.pos.zeroExtend 64)
  | 4 => some (s.walk.zeroExtend 64)
  | _ => none

/-- The child of a record that bit `b` selects: bit 0 the zero-child, bit 1 the one-child (R151, R173). -/
def childOf (r : NodeRec) (b : Bool) : NodeIdx :=
  if b then r.c1 else r.c0

/-- The record with the child that bit `b` selects replaced (R151). -/
def withChild (r : NodeRec) (b : Bool) (c : NodeIdx) : NodeRec :=
  if b then { r with c1 := c } else { r with c0 := c }

/-- A LEAF record (R30). -/
def leafRec (sym : Symbol) (weight : Weight) : NodeRec :=
  { kind := .leaf, sym := sym, weight := weight, c0 := Config.nil, c1 := Config.nil }

/-- An INTERNAL record (R30); its SYM is 0. -/
def internalRec (weight : Weight) (c0 c1 : NodeIdx) : NodeRec :=
  { kind := .internal, sym := 0, weight := weight, c0 := c0, c1 := c1 }

/-- The RDNODE response for an allocated record (R205). -/
def packNode (r : NodeRec) : Word :=
  (kindCode r.kind).zeroExtend 64 <<< 58 ||| r.c1.zeroExtend 64 <<< 49 ||| r.c0.zeroExtend 64 <<< 40 |||
    r.sym.zeroExtend 64 <<< 32 ||| r.weight.zeroExtend 64

end Sys2Proof.Machine
end

