-- ==== Sys2Proof/Machine/Ops.lean ====
section
/-! DEFINITION. The named operations over the state: the two index spaces FREQ and NODE (20_memory R60), responding, raising an error and leaving it (60_exceptions R221, R228), the error gate (R222), and the command that the host writes next. -/

namespace Sys2Proof.Machine

/-! ## Ordered stores: how FREQ and NODE are held -/

/-- The value listed under a key. -/
def storeFind {α : Type} : List (Nat × α) → Nat → Option α
  | [], _ => none
  | (j, v) :: m, k => if j = k then some v else storeFind m k

/-- List a value under a key, in the key's place in the rising order, in place of any value it had. -/
def storePut {α : Type} : List (Nat × α) → Nat → α → List (Nat × α)
  | [], k, v => [(k, v)]
  | (j, w) :: m, k, v =>
    if k < j then (k, v) :: (j, w) :: m
    else if k = j then (k, v) :: m
    else (j, w) :: storePut m k v

/-- List nothing under a key. -/
def storeErase {α : Type} : List (Nat × α) → Nat → List (Nat × α)
  | [], _ => []
  | (j, w) :: m, k => if j = k then storeErase m k else (j, w) :: storeErase m k

/-- The keys of a store are strictly rising. -/
abbrev storeRising {α : Type} (m : List (Nat × α)) : Prop :=
  (m.map Prod.fst).Pairwise (· < ·)

/-- The one canonical form of both index spaces: keys strictly rising and inside the space (R60), and no listed weight
equal to the 0 that an unlisted symbol reads as (R34). -/
abbrev Memory.wf (s : State) : Prop :=
  storeRising s.freq ∧ (∀ e ∈ s.freq, e.1 < Config.nsym ∧ e.2 ≠ 0) ∧
    storeRising s.node ∧ ∀ e ∈ s.node, e.1 < Config.nodeCap

/-! ## FREQ -/

/-- `FREQ[sym]` (R34): an unlisted symbol has weight 0. -/
def readFreq (s : State) (sym : Symbol) : Weight :=
  (storeFind s.freq sym.toNat).getD 0

/-- `FREQ[sym] <- v` (R34); writing 0 takes the symbol out of the table. -/
def writeFreq (s : State) (sym : Symbol) (v : Weight) : State :=
  { s with freq := if v = 0 then storeErase s.freq sym.toNat else storePut s.freq sym.toNat v }

/-! ## Responding, errors and the gate -/

/-- `Respond(v)` (R9). -/
def respond (v : Word) (s : State) : State :=
  { s with resp := v }

/-- `Respond(STATUS)` (R9): STATUS as it stands after the command (R39). -/
def respondStatus (s : State) : State :=
  respond (status s) s

/-- `Fail(e)` (R9, R221): taking an error, the HTBD's one kind of exception. It keeps the first code and responds with
STATUS; there is no vector, no saved context and no mode change (R227). -/
def raise (e : Err) (s : State) : State :=
  respondStatus { s with err := stickyErr s.err e }

/-- `ResetState()` of CLR (R201, R260), the one return from an error (R228): every register and FREQ to its reset value,
every node record unallocated; OUT, and the words the host has still to write, are not touched. -/
def resetState (s : State) : State :=
  { State.reset with out := s.out, input := s.input }

/-- The error gate of the command step (R222, R223): while `ERR` is not NONE the command is ignored and responds with
STATUS. NOP, CLR and the reads do not pass through it (log 10). -/
def gated (k : State → Result) (s : State) : Result :=
  if s.err = .none then k s else .next (respondStatus s)

/-- An illegal word: `Fail(ILLEGAL_CMD)`, nothing else changes (R223). -/
def execIllegal (s : State) : Result :=
  .next (raise .illegalCmd s)

/-! ## The flow of one command: a `Fail` inside a loop ends the command and keeps what was done before it (R226) -/

/-- How a part of a command ends. -/
inductive Flow (α : Type) where
  /-- It ends with a value and the command goes on. -/
  | ok (a : α)
  /-- `Fail(e)` ends the command in state `s`. -/
  | fail (e : Err) (s : State)
  /-- The model stops (logs 3, 4). -/
  | stop (f : Fault)
  deriving DecidableEq, Repr

/-- One part of a command after another. -/
def Flow.bind {α β : Type} (x : Flow α) (k : α → Flow β) : Flow β :=
  match x with
  | .ok a => k a
  | .fail e s => .fail e s
  | .stop f => .stop f

/-- The end of a command: `Respond(STATUS)`, or what `Fail` does. -/
def Flow.finish : Flow State → Result
  | .ok s => .next (respondStatus s)
  | .fail e s => .next (raise e s)
  | .stop f => .fault f

/-! ## NODE -/

/-- `NODE[i]` of an allocated index (R29, R31): an index at or above NCOUNT, and NIL, name no record. -/
def nodeAt (s : State) (i : NodeIdx) : Option NodeRec :=
  if i.toNat < s.ncount.toNat then storeFind s.node i.toNat else none

/-- Read `NODE[i]` inside a command (log 3). -/
def readNode (s : State) (i : NodeIdx) : Flow NodeRec :=
  match nodeAt s i with
  | some r => .ok r
  | none => .stop (.noRecord i)

/-- `NODE[i] <- r` (R9). -/
def setNode (s : State) (i : NodeIdx) (r : NodeRec) : State :=
  { s with node := storePut s.node i.toNat r }

/-- The record `r` at index NCOUNT, and NCOUNT one more (R32). -/
def pushNode (r : NodeRec) (s : State) : State :=
  { setNode s s.ncount r with ncount := s.ncount + 1 }

/-- `Alloc(rec)` (R9, R32); answers the index it used. The caller checks that a record is free; with none free there is no
index to use (log 4). -/
def allocNode (r : NodeRec) (s : State) : Flow (NodeIdx × State) :=
  if s.ncount.toNat < Config.nodeCap then .ok (s.ncount, pushNode r s) else .stop .nodeMemoryFull

/-- `Emit(sym)` (R9, R35). -/
def emit (sym : Symbol) (s : State) : State :=
  { s with out := s.out ++ [sym] }

/-! ## The next command -/

/-- The command word the host writes next, and the state once the HTBD has taken it (R7, R270; log 1). -/
def takeCommand (s : State) : Option (Word × State) :=
  match s.input with
  | [] => none
  | w :: ws => some (w, { s with input := ws })

/-- The host writes `w` next (log 2). -/
def offerCommand (w : Word) (s : State) : State :=
  { s with input := w :: s.input }

end Sys2Proof.Machine
end

