-- ==== Sys2Proof/Machine/BitDecode.lean ====
section
/-! DEFINITION. The Bit Decoder: DSTART, DBITS and DEND (43_bit_decode). -/

namespace Sys2Proof.Machine

/-- Where the decoder stands once it has taken the bit that leads to `c` (R173): at a leaf it emits and returns to the
root, else it stands at `c`. -/
def moveTo (c : NodeIdx) (rc : NodeRec) (s : State) : State :=
  if rc.kind = .leaf then { emit rc.sym s with pos := s.root } else { s with pos := c }

/-- The boundary check after counting (R173, R174): at the BITLEN-th bit the decoder is done, and a position inside a
code is PARTIAL_SYMBOL (R175). -/
def checkBoundary (s : State) : Flow State :=
  if s.bitcnt = s.bitlen then
    if s.pos ≠ s.root then .fail .partialSymbol { s with phase := .done } else .ok { s with phase := .done }
  else .ok s

/-- `DecodeStep(b)` (R173): a missing child is BAD_PATH and the bit is not consumed (R176). -/
def decodeStep (b : Bool) (s : State) : Flow State :=
  (readNode s s.pos).bind fun r =>
    if childOf r b = Config.nil then .fail .badPath s
    else
      (readNode s (childOf r b)).bind fun rc =>
        checkBoundary (moveTo (childOf r b) rc { s with bitcnt := s.bitcnt + 1 })

/-- The loop of DBITS (R171): "stops (Done) regardless of remaining input". -/
def decodeBits : List Bool → State → Flow State
  | [], s => .ok s
  | b :: bs, s => if s.phase = .done then .ok s else (decodeStep b s).bind (decodeBits bs)

/-- DSTART (R170). -/
def execDstart (len : BitCount) : State → Result :=
  gated fun s =>
    if s.phase = .idle ∨ s.phase = .decode then .next (raise .sequence s)
    else if s.phase = .recon ∧ s.walk ≠ s.root then .next (raise .malformedHeader s)
    else
      .next (respondStatus
        { s with bitlen := len, bitcnt := 0, pos := s.root, phase := if len = 0 then .done else .decode })

/-- DBITS (R171): the operand check comes before the phase check (R225). -/
def execDbits (n : Nat) (payload : Payload) : State → Result :=
  gated fun s =>
    if chunkValid n payload = false then .next (raise .badOperand s)
    else if s.phase ≠ .decode ∧ s.phase ≠ .done then .next (raise .sequence s)
    else (decodeBits (chunkBits n payload) s).finish

/-- DEND (R172): in DECODE fewer than BITLEN bits were supplied. -/
def execDend : State → Result :=
  gated fun s =>
    if s.phase ≠ .decode ∧ s.phase ≠ .done then .next (raise .sequence s)
    else if s.phase = .decode then .next (raise .truncatedStream s)
    else .next (respondStatus s)

end Sys2Proof.Machine
end

