-- ==== Sys2Proof/Machine/Control.lean ====
section
/-! DEFINITION. Control and readout: NOP, CLR, RDREG, RDNODE and RDFREQ (44_control_readout). They do not pass the error gate (60_exceptions R222). -/

namespace Sys2Proof.Machine

/-- NOP (R200). -/
def execNop (s : State) : Result :=
  .next (respondStatus s)

/-- CLR (R201). -/
def execClr (s : State) : Result :=
  .next (respondStatus (resetState s))

/-- RDREG (R203). -/
def execRdreg (sel : Nat) (s : State) : Result :=
  match readReg sel s with
  | some v => .next (respond v s)
  | none => .next (raise .badOperand s)

/-- RDNODE (R205): NIL names no record, an unallocated index reads 0. -/
def execRdnode (idx : NodeIdx) (s : State) : Result :=
  if idx = Config.nil then .next (raise .badOperand s)
  else if s.ncount.toNat ≤ idx.toNat then .next (respond 0 s)
  else
    match nodeAt s idx with
    | some r => .next (respond (packNode r) s)
    | none => .fault (.noRecord idx)

/-- RDFREQ (R206). -/
def execRdfreq (sym : Symbol) (s : State) : Result :=
  .next (respond ((readFreq s sym).zeroExtend 64) s)

end Sys2Proof.Machine
end

