-- ==== Sys2Proof/Machine/Reconstruct.lean ====
section
/-! DEFINITION. Decode-side tree reconstruction: IBITS and ILEAF (42_tree_reconstruct). -/

namespace Sys2Proof.Machine

/-- `StartRecon()` (R149). -/
def startRecon (s : State) : Flow State :=
  (allocNode (internalRec 0 Config.nil Config.nil) s).bind fun p =>
    .ok { p.2 with root := p.1, walk := p.1, phase := .recon }

/-- The first IBITS or ILEAF in IDLE starts the reconstruction (R149). -/
def enterRecon (s : State) : Flow State :=
  if s.phase = .idle then startRecon s else .ok s

/-- `WalkStep(b)` (R151): one bit of a code path, creating an INTERNAL record where the child is missing. -/
def walkStep (b : Bool) (s : State) : Flow State :=
  (readNode s s.walk).bind fun r =>
    if r.kind = .leaf then .fail .malformedHeader s
    else if childOf r b ≠ Config.nil then .ok { s with walk := childOf r b }
    else if s.ncount.toNat = Config.nodeCap then .fail .nodeOvf s
    else
      (allocNode (internalRec 0 Config.nil Config.nil) s).bind fun p =>
        .ok { setNode p.2 s.walk (withChild r b p.1) with walk := p.1 }

/-- The loop of IBITS (R150), first bit first. -/
def walkBits : List Bool → State → Flow State
  | [], s => .ok s
  | b :: bs, s => (walkStep b s).bind (walkBits bs)

/-- The rest of ILEAF once a reconstruction is open (R152): an empty code, a duplicate code and a proper prefix of an
earlier code are malformed. -/
def markLeaf (sym : Symbol) (s : State) : Flow State :=
  if s.walk = s.root then .fail .malformedHeader s
  else
    (readNode s s.walk).bind fun r =>
      if r.kind = .leaf then .fail .malformedHeader s
      else if r.c0 ≠ Config.nil ∨ r.c1 ≠ Config.nil then .fail .malformedHeader s
      else .ok { setNode s s.walk (leafRec sym 0) with walk := s.root }

/-- IBITS (R150): the operand check comes before the phase check (R225). -/
def execIbits (n : Nat) (payload : Payload) : State → Result :=
  gated fun s =>
    if chunkValid n payload = false then .next (raise .badOperand s)
    else if s.phase ≠ .idle ∧ s.phase ≠ .recon then .next (raise .sequence s)
    else ((enterRecon s).bind (walkBits (chunkBits n payload))).finish

/-- ILEAF (R152). -/
def execIleaf (sym : Symbol) : State → Result :=
  gated fun s =>
    if s.phase ≠ .idle ∧ s.phase ≠ .recon then .next (raise .sequence s)
    else ((enterRecon s).bind (markLeaf sym)).finish

end Sys2Proof.Machine
end

