-- ==== Sys2Proof/Machine/TableLoad.lean ====
section
/-! DEFINITION. Frequency table loading: SETW and INCW (40_table_load). -/

namespace Sys2Proof.Machine

/-- SETW (R110). -/
def execSetw (sym : Symbol) (val : Weight) : State → Result :=
  gated fun s =>
    if s.phase ≠ .idle then .next (raise .sequence s)
    else .next (respondStatus (writeFreq s sym val))

/-- INCW (R111): never past WMAX. -/
def execIncw (sym : Symbol) : State → Result :=
  gated fun s =>
    if s.phase ≠ .idle then .next (raise .sequence s)
    else if (readFreq s sym).toNat = Config.wmax then .next (raise .weightOvf s)
    else .next (respondStatus (writeFreq s sym (readFreq s sym + 1)))

end Sys2Proof.Machine
end

