-- ==== Sys2Proof/Machine/TreeBuild.lean ====
section
/-! DEFINITION. The Tree Builder: BUILD (41_tree_build). The priority queue is a list of node indices inside the command (10_state R40); its order carries no meaning, since a pop selects by key (log 6). -/

namespace Sys2Proof.Machine

/-- The symbols 0, 1, ..., 255. -/
def allSymbols : List Symbol :=
  (List.range Config.nsym).map (BitVec.ofNat 8)

/-- The symbols in the frequency table, in ascending order: `L` of R130 (R34, R131). -/
def tableSymbols (s : State) : List Symbol :=
  allSymbols.filter fun c => readFreq s c != 0

/-- The sum of all weights, without a width limit (R43, R133). -/
def totalWeight (s : State) : Nat :=
  (allSymbols.map fun c => (readFreq s c).toNat).sum

/-- One LEAF for each symbol, in order (R131). -/
def allocLeaves : List Symbol → State → Flow State
  | [], s => .ok s
  | c :: cs, s => (allocNode (leafRec c (readFreq s c)) s).bind fun p => allocLeaves cs p.2

/-- The weight part of a queued index's key. An index of no record does not get past the merge that pops it. -/
def queueWeight (s : State) (i : NodeIdx) : Nat :=
  match nodeAt s i with
  | some r => r.weight.toNat
  | none => 0

/-- `i` pops before `j`: the lesser `(WEIGHT, index)` in lexicographic order (R132). -/
def popsBefore (s : State) (i j : NodeIdx) : Bool :=
  decide (queueWeight s i < queueWeight s j) ||
    (decide (queueWeight s i = queueWeight s j) && decide (i.toNat < j.toNat))

/-- The index that pops first among `m` and the list. -/
def firstToPop (s : State) : NodeIdx → List NodeIdx → NodeIdx
  | m, [] => m
  | m, i :: q => firstToPop s (if popsBefore s i m then i else m) q

/-- `PopMin(Q)` (R132): the first index to pop, and the queue without it. -/
def popMin (s : State) : List NodeIdx → Option (NodeIdx × List NodeIdx)
  | [] => none
  | i :: q => some (firstToPop s i q, (i :: q).erase (firstToPop s i q))

/-- One merge of R130: pop two, allocate their parent, queue it; the first popped is the zero-child (R136). A queue of
fewer than two is left as it is. -/
def mergeOnce (q : List NodeIdx) (s : State) : Flow (List NodeIdx × State) :=
  match popMin s q with
  | none => .ok (q, s)
  | some (a, q1) =>
    match popMin s q1 with
    | none => .ok (q, s)
    | some (b, q2) =>
      (readNode s a).bind fun ra => (readNode s b).bind fun rb =>
        (allocNode (internalRec (ra.weight + rb.weight) a b) s).bind fun p => .ok (q2 ++ [p.1], p.2)

/-- The merge loop of R130. A queue of `n` takes `n - 1` merges (R138), so `n` rounds empty it down to the root. -/
def mergeLoop : Nat → List NodeIdx → State → Flow (List NodeIdx × State)
  | 0, q, s => .ok (q, s)
  | k + 1, q, s => (mergeOnce q s).bind fun p => mergeLoop k p.1 p.2

/-- The queue BUILD starts with, `{0, 1, ..., n-1}` (R130). -/
def initialQueue (n : Nat) : List NodeIdx :=
  (List.range n).map (BitVec.ofNat 9)

/-- BUILD once its checks have passed: the leaves, then the size-1 root (R135) or the merges, then ROOT and PHASE. -/
def buildTree (s : State) : Flow State :=
  let syms := tableSymbols s
  (allocLeaves syms s).bind fun s1 =>
    match syms with
    | [c] =>
      (allocNode (internalRec (readFreq s c) 0 Config.nil) s1).bind fun p =>
        .ok { p.2 with root := p.1, phase := .tree }
    | _ =>
      (mergeLoop syms.length (initialQueue syms.length) s1).bind fun p =>
        .ok { p.2 with root := p.1.headD Config.nil, phase := .tree }

/-- BUILD (R130). -/
def execBuild : State → Result :=
  gated fun s =>
    if s.phase ≠ .idle then .next (raise .sequence s)
    else if tableSymbols s = [] then .next (raise .emptyAlphabet s)
    else if totalWeight s > Config.wmax then .next (raise .weightOvf s)
    else (buildTree s).finish

end Sys2Proof.Machine
end

