-- ==== Sys2Proof/Machine/Dispatch.lean ====
section
/-! DEFINITION. The meaning of every command (60_exceptions R223). -/

namespace Sys2Proof.Machine

/-- `execute the rule of d.mnemonic with d's fields` (R223). -/
def exec (i : Instr) (s : State) : Host.Outcome State Fault Refusal :=
  match i with
  | .nop => Sys2Proof.Machine.execNop s
  | .clr => Sys2Proof.Machine.execClr s
  | .setw sym val => Sys2Proof.Machine.execSetw sym val s
  | .incw sym => Sys2Proof.Machine.execIncw sym s
  | .build => Sys2Proof.Machine.execBuild s
  | .ibits n payload => Sys2Proof.Machine.execIbits n payload s
  | .ileaf sym => Sys2Proof.Machine.execIleaf sym s
  | .dstart len => Sys2Proof.Machine.execDstart len s
  | .dbits n payload => Sys2Proof.Machine.execDbits n payload s
  | .dend => Sys2Proof.Machine.execDend s
  | .rdreg sel => Sys2Proof.Machine.execRdreg sel s
  | .rdnode idx => Sys2Proof.Machine.execRdnode idx s
  | .rdfreq sym => Sys2Proof.Machine.execRdfreq sym s

end Sys2Proof.Machine
end

