-- ==== Sys2Proof/Machine/Step.lean ====
section
/-! DEFINITION. The command step (60_exceptions R223): take the word the host writes next, decode it, run it. -/

namespace Sys2Proof.Machine

/-- `Step(w)` of R223 on the word the host writes next; with no word written the HTBD keeps its state (R245; log 1). -/
def step (s : State) : Host.Outcome State Fault Refusal :=
  match takeCommand s with
  | none => .next s
  | some (w, t) =>
    match decode w with
    | .ok i => exec i t
    | .error _ => execIllegal t

/-- `s` where the host writes the word `w`, its bits above `nbits` zero, before all else it has to write (log 2). -/
def State.withFetchWord (s : State) (nbits w : Nat) : State :=
  offerCommand (BitVec.ofNat 64 (w % 2 ^ nbits)) s

end Sys2Proof.Machine
end

