-- ==== Sys2Proof/WellFormed.lean ====
section
/-! DEFINITION. Which command terms have an encoding: every operand fits its field (30_encoding R81; R91: "An assembler rejects an operand that does not fit its field"). -/

namespace Sys2Proof

/-- Every operand fits its field. `N` has 6 bits and `SEL` has 4 (R81); the other operands are bit vectors of their
fields' widths. An `N` of 0 or above 32 and a `SEL` above 4 are well formed: they decode, and the command's own rule
raises BAD_OPERAND (R88). -/
def Instr.wellFormed : Instr → Bool
  | .nop => true
  | .clr => true
  | .setw _ _ => true
  | .incw _ => true
  | .build => true
  | .ibits n _ => decide (n < 64)
  | .ileaf _ => true
  | .dstart _ => true
  | .dbits n _ => decide (n < 64)
  | .dend => true
  | .rdreg sel => decide (sel < 16)
  | .rdnode _ => true
  | .rdfreq _ => true

end Sys2Proof
end

