-- ==== Sys2Proof/Safety.lean ====
section
/-! DEFINITION. What counts as a safe state and a safe step, and the words the statements use: the structural invariant (10_state R29-R38), the code of a node (10_state R27), runs of commands, and the tables of 30_encoding and 60_exceptions that speak of all commands at once. -/

namespace Sys2Proof.Safety

open Sys2Proof.Machine

/-! ## Trees -/

/-- The indices of the children a record has: its child fields that are not NIL (R30). -/
def childIndices (r : NodeRec) : List Nat :=
  ([r.c0, r.c1].filter fun c => c != Config.nil).map BitVec.toNat

/-- The children of all listed records, each as often as it is some record's child. -/
def allChildren (s : State) : List Nat :=
  s.node.flatMap fun e => childIndices e.2

/-- The weight of an index: its record's, and 0 for NIL (R137: "the missing one-child counts 0"). -/
def weightAt (s : State) (i : NodeIdx) : Nat :=
  match nodeAt s i with
  | some r => r.weight.toNat
  | none => 0

/-- `i` is an allocated INTERNAL record. -/
abbrev isInternal (s : State) (i : NodeIdx) : Prop :=
  (nodeAt s i).map NodeRec.kind = some .internal

/-- `i` is an allocated LEAF record that holds `sym`. -/
abbrev isLeafOf (s : State) (i : NodeIdx) (sym : Symbol) : Prop :=
  (nodeAt s i).map (fun r => (r.kind, r.sym)) = some (.leaf, sym)

/-- The index reached from `i` by taking the child each bit selects (R27); none where a child is NIL. -/
def follow (s : State) : NodeIdx → List Bool → Option NodeIdx
  | i, [] => some i
  | i, b :: bs =>
    match nodeAt s i with
    | some r => if childOf r b = Config.nil then none else follow s (childOf r b) bs
    | none => none

/-- `code` is the code of a leaf that holds `sym`: the path from ROOT to it (R27). -/
abbrev hasCode (s : State) (code : List Bool) (sym : Symbol) : Prop :=
  ∃ i, follow s s.root code = some i ∧ isLeafOf s i sym

/-! ## The structural invariant -/

/-- What every allocated record satisfies: a LEAF has no child, an INTERNAL record has SYM 0 and the weight of its children
(R30, R137, R155), and a child is an allocated record of a larger index in a reconstructed tree (whose root is 0) and of a
smaller index in a built one (R33). -/
structure RecordOk (s : State) (i : Nat) (r : NodeRec) : Prop where
  leaf_no_child : r.kind = .leaf → r.c0 = Config.nil ∧ r.c1 = Config.nil
  internal_sym : r.kind = .internal → r.sym = 0
  internal_weight : r.kind = .internal → r.weight.toNat = weightAt s r.c0 + weightAt s r.c1
  recon_weight : s.root = 0 → r.weight = 0
  child_order : ∀ c ∈ childIndices r, c < s.ncount.toNat ∧ if s.root = 0 then i < c else c < i

/-- WALK once a tree exists: NIL for a built tree, the root for a reconstructed one whose last entry is finished (R36, R170). -/
abbrev walkClosed (s : State) : Prop :=
  if s.root = 0 then s.walk = 0 else s.walk = Config.nil

/-- What each phase says of the registers (R24, R28, R36, R37, R38, R169). -/
def PhaseOk (s : State) : Prop :=
  match s.phase with
  | .idle => s.root = Config.nil ∧ s.ncount = 0 ∧ s.walk = Config.nil ∧ s.pos = Config.nil ∧ s.bitlen = 0 ∧ s.bitcnt = 0
  | .tree => isInternal s s.root ∧ s.root ≠ 0 ∧ s.walk = Config.nil ∧ s.pos = Config.nil ∧ s.bitlen = 0 ∧ s.bitcnt = 0
  | .recon =>
    isInternal s s.root ∧ s.root = 0 ∧ s.walk.toNat < s.ncount.toNat ∧ s.pos = Config.nil ∧ s.bitlen = 0 ∧ s.bitcnt = 0
  | .decode => isInternal s s.root ∧ walkClosed s ∧ isInternal s s.pos ∧ s.bitcnt.toNat < s.bitlen.toNat
  | .done =>
    isInternal s s.root ∧ walkClosed s ∧ isInternal s s.pos ∧ s.bitcnt = s.bitlen ∧
      (s.pos ≠ s.root → s.err = .partialSymbol)

/-- The invariant of the HTBD: the index spaces are in canonical form, the allocated records are exactly those below NCOUNT
(R29), every record is sound, each allocated record but ROOT is the child of exactly one record (R33), BITCNT is at most
BITLEN (R38), and the registers are as the phase says. -/
structure Inv (s : State) : Prop where
  memory : Memory.wf s
  allocated : s.node.map Prod.fst = List.range s.ncount.toNat
  records : ∀ e ∈ s.node, RecordOk s e.1 e.2
  one_parent : ∀ k ∈ List.range s.ncount.toNat, (allChildren s).count k = if k = s.root.toNat then 0 else 1
  bits : s.bitcnt.toNat ≤ s.bitlen.toNat
  phase_ok : PhaseOk s

/-! ## How a command ends -/

/-- What a successful command that responds with STATUS leaves of `s` (R9: `Respond(STATUS)`). -/
abbrev responded (s : State) : State :=
  { s with resp := status s }

/-- What `Fail(e)` leaves of `s` (R221): the code where ERR is NONE, and RESP = STATUS with the code in it. -/
abbrev failed (e : Err) (s : State) : State :=
  responded { s with err := if s.err = .none then e else s.err }

/-- A safe step: it answers a next state. -/
abbrev StepSafe (s : State) : Prop :=
  ∃ t, step s = .next t

/-! ## Runs of commands -/

/-- A sequence of commands, each in the state the one before it left. -/
def execAll : List Instr → State → Result
  | [], s => .next s
  | i :: is, s =>
    match exec i s with
    | .next t => execAll is t
    | .fault f => .fault f
    | .refused r => .refused r

/-- A bit chunk: `N` and `PAYLOAD` (R84). -/
abbrev Chunk := Nat × Payload

/-- The bits of a sequence of chunks, in stream order. -/
def streamBits (cs : List Chunk) : List Bool :=
  cs.flatMap fun c => chunkBits c.1 c.2

/-- The bits of one code or content bit: a chunk of one. -/
abbrev oneBit (b : Bool) : Payload :=
  if b then 1 else 0

/-- Every chunk is valid (R84). -/
abbrev chunksValid (cs : List Chunk) : Prop :=
  ∀ c ∈ cs, chunkValid c.1 c.2 = true

/-- `DSTREAM` cut into the given chunks (R95). -/
def dstream (cs : List Chunk) : List Instr :=
  cs.map fun c => .dbits c.1 c.2

/-- `IENTRY sym` with its code cut into the given chunks (R94). -/
def ientry (sym : Symbol) (cs : List Chunk) : List Instr :=
  (cs.map fun c => .ibits c.1 c.2) ++ [.ileaf sym]

/-! ## The merges of BUILD -/

/-- `j` is in the queue when BUILD allocates record `k` (R130): it is allocated, and no record allocated before `k` has it as
a child. -/
def queuedAt (s : State) (k j : Nat) : Prop :=
  j < k ∧ ∀ e ∈ s.node, e.1 < k → j ∉ childIndices e.2

/-- The order of pops (R132): the lesser `(WEIGHT, index)`, in lexicographic order. -/
def popsFirst (s : State) (i j : NodeIdx) : Prop :=
  weightAt s i < weightAt s j ∨ (weightAt s i = weightAt s j ∧ i.toNat < j.toNat)

/-- `t` is what BUILD makes of the IDLE state `s` when it raises no error (R130). -/
structure Built (s t : State) : Prop where
  sound : Inv s
  idle : s.phase = .idle
  no_error : s.err = .none
  builds : exec .build s = .next t
  succeeds : t.err = .none

/-! ## Tables over all commands -/

/-- The state of R20, by the names of R23's table. -/
inductive Register where
  | phase | err | root | ncount | walk | pos | bitlen | bitcnt | resp | freq | node | out
  deriving DecidableEq, Repr

/-- "Written by" of R23's table. -/
def writtenBy (r : Register) (i : Instr) : Bool :=
  match r with
  | .err | .resp => true
  | .phase => match i with | .clr | .build | .ibits _ _ | .ileaf _ | .dstart _ | .dbits _ _ => true | _ => false
  | .root | .ncount | .node => match i with | .clr | .build | .ibits _ _ | .ileaf _ => true | _ => false
  | .walk => match i with | .clr | .ibits _ _ | .ileaf _ => true | _ => false
  | .pos | .bitcnt => match i with | .clr | .dstart _ | .dbits _ _ => true | _ => false
  | .bitlen => match i with | .clr | .dstart _ => true | _ => false
  | .freq => match i with | .clr | .setw _ _ | .incw _ => true | _ => false
  | .out => match i with | .dbits _ _ => true | _ => false

/-- The register holds the same in `t` as in `s`. -/
def unchanged (s t : State) : Register → Prop
  | .phase => t.phase = s.phase
  | .err => t.err = s.err
  | .root => t.root = s.root
  | .ncount => t.ncount = s.ncount
  | .walk => t.walk = s.walk
  | .pos => t.pos = s.pos
  | .bitlen => t.bitlen = s.bitlen
  | .bitcnt => t.bitcnt = s.bitcnt
  | .resp => t.resp = s.resp
  | .freq => t.freq = s.freq
  | .node => t.node = s.node
  | .out => t.out = s.out

/-- One row of the match and mask table of R85. -/
structure MatchMask where
  opc : BitVec 8
  matchWord : Word
  mask : Word
  deriving DecidableEq, Repr

/-- The match and mask table of R85, as the spec prints it. -/
def matchMaskTable : List MatchMask :=
  [⟨0x00, 0x0000000000000000, 0xFFFFFFFFFFFFFFFF⟩, ⟨0x01, 0x0100000000000000, 0xFFFFFFFFFFFFFFFF⟩,
   ⟨0x10, 0x1000000000000000, 0xFFFFFF0000000000⟩, ⟨0x11, 0x1100000000000000, 0xFFFFFFFFFFFFFF00⟩,
   ⟨0x12, 0x1200000000000000, 0xFFFFFFFFFFFFFFFF⟩, ⟨0x20, 0x2000000000000000, 0xFFFFFFC000000000⟩,
   ⟨0x21, 0x2100000000000000, 0xFFFFFFFFFFFFFF00⟩, ⟨0x30, 0x3000000000000000, 0xFFFF000000000000⟩,
   ⟨0x31, 0x3100000000000000, 0xFFFFFFC000000000⟩, ⟨0x32, 0x3200000000000000, 0xFFFFFFFFFFFFFFFF⟩,
   ⟨0x40, 0x4000000000000000, 0xFFFFFFFFFFFFFFF0⟩, ⟨0x41, 0x4100000000000000, 0xFFFFFFFFFFFFFE00⟩,
   ⟨0x42, 0x4200000000000000, 0xFFFFFFFFFFFFFF00⟩]

/-- The unassigned opcodes, as R87 lists them. -/
def unassignedOpcode (opc : Nat) : Bool :=
  decide ((0x02 ≤ opc ∧ opc ≤ 0x0F) ∨ (0x13 ≤ opc ∧ opc ≤ 0x1F) ∨ (0x22 ≤ opc ∧ opc ≤ 0x2F) ∨
    (0x33 ≤ opc ∧ opc ≤ 0x3F) ∨ (0x43 ≤ opc ∧ opc ≤ 0xFF))

/-- The commands that the error gate lets through (R222): NOP, CLR and the reads. -/
def passesGate : Instr → Bool
  | .nop | .clr | .rdreg _ | .rdnode _ | .rdfreq _ => true
  | _ => false

/-- The operand checks that come before all others (R225): the chunk of IBITS and DBITS, `SEL`, `IDX`. -/
def operandOk : Instr → Bool
  | .ibits n payload | .dbits n payload => chunkValid n payload
  | .rdreg sel => decide (sel ≤ 4)
  | .rdnode idx => idx != Config.nil
  | _ => true

/-- The phase acceptance table of R224. -/
def accepts : Instr → Phase → Bool
  | .nop, _ | .clr, _ | .rdreg _, _ | .rdnode _, _ | .rdfreq _, _ => true
  | .setw _ _, p | .incw _, p | .build, p => p == .idle
  | .ibits _ _, p | .ileaf _, p => p == .idle || p == .recon
  | .dstart _, p => p == .tree || p == .recon || p == .done
  | .dbits _ _, p | .dend, p => p == .decode || p == .done

/-- Which commands raise which code (R220); ILLEGAL_CMD is raised by the command step alone. -/
def mayRaise (i : Instr) (e : Err) : Bool :=
  match e with
  | .none => true
  | .emptyAlphabet => match i with | .build => true | _ => false
  | .malformedHeader => match i with | .ibits _ _ | .ileaf _ | .dstart _ => true | _ => false
  | .truncatedStream => match i with | .dend => true | _ => false
  | .badPath | .partialSymbol => match i with | .dbits _ _ => true | _ => false
  | .weightOvf => match i with | .incw _ | .build => true | _ => false
  | .nodeOvf => match i with | .ibits _ _ => true | _ => false
  | .sequence => match i with | .nop | .clr | .rdreg _ | .rdnode _ | .rdfreq _ => false | _ => true
  | .illegalCmd => false
  | .badOperand => match i with | .ibits _ _ | .dbits _ _ | .rdreg _ | .rdnode _ => true | _ => false

end Sys2Proof.Safety
end

