-- ==== Sys2Proof/Certificates/Slice0/Obligations.lean ====
section
/-! DEFINITION. The statements for the provers, in the order of OBLIGATIONS.json: encoding, the command step and its errors, state and whole-machine rules, then each command, then the tree and decoder properties, then the invariant. `failed`, `responded`, `follow`, `hasCode`, `Inv` and the tables are in Safety.lean. -/

open Sys2Proof Sys2Proof.Machine Sys2Proof.Safety

/-! ## Encoding (30_encoding) -/

/-- R81, R82, R85, R88, R91: no bit of any command's encoding is dropped, with every operand at every value its field admits. -/
def Obligations.DecodeOfEncodeIsTheCommand : Prop :=
  ∀ i : Instr, i.wellFormed = true → decode (encode i) = .ok i

/-- R88, R91: a legal word decodes to a well-formed command whose word it is, so every command has exactly one word. -/
def Obligations.EncodeOfDecodeIsTheWord : Prop :=
  ∀ (w : Word) (i : Instr), decode w = .ok i → i.wellFormed = true ∧ encode i = w

/-- R85: "a word `w` is the command when `w & mask = match`"; the table's rows are `matchMaskTable`. -/
def Obligations.DecodeFollowsTheMatchMaskTable : Prop :=
  ∀ w : Word,
    (∀ m ∈ matchMaskTable, w &&& m.mask = m.matchWord ↔ ∃ i, decode w = .ok i ∧ i.opcode = m.opc) ∧
    ∀ i, decode w = .ok i → ∃ m ∈ matchMaskTable, m.opc = i.opcode

/-- R82: every operand is its bits of the word, read as an unsigned number, and every SYM names a symbol. -/
def Obligations.OperandsAreReadUnscaled : Prop :=
  (∀ (w : Word) (i : Instr), decode w = .ok i →
    match i with
    | .setw sym val => sym.toNat = w.toNat / 2 ^ 32 % 2 ^ 8 ∧ val.toNat = w.toNat % 2 ^ 32
    | .incw sym | .ileaf sym | .rdfreq sym => sym.toNat = w.toNat % 2 ^ 8
    | .ibits n payload | .dbits n payload => n = w.toNat / 2 ^ 32 % 2 ^ 6 ∧ payload.toNat = w.toNat % 2 ^ 32
    | .dstart len => len.toNat = w.toNat % 2 ^ 48
    | .rdnode idx => idx.toNat = w.toNat % 2 ^ 9
    | .rdreg sel => sel = w.toNat % 2 ^ 4
    | .nop | .clr | .build | .dend => True) ∧
  ∀ (sym : Symbol) (val : Weight), (Instr.setw sym val).wellFormed = true ∧ (Instr.incw sym).wellFormed = true ∧
    (Instr.ileaf sym).wellFormed = true ∧ (Instr.rdfreq sym).wellFormed = true

/-- R86: an assigned opcode with a 1 in a reserved bit (a bit of [55:0] that the row's mask holds) raises ILLEGAL_CMD and
has no other effect. -/
def Obligations.ReservedBitsAreNeverIgnored : Prop :=
  ∀ (s : State) (w : Word) (ws : List Word) (m : MatchMask) (k : Nat), s.input = w :: ws → m ∈ matchMaskTable →
    w.toNat / 2 ^ 56 = m.opc.toNat → k < 56 → m.mask.getLsbD k = true → w.getLsbD k = true →
    step s = .next (failed .illegalCmd { s with input := ws })

/-- R87: an unassigned opcode raises ILLEGAL_CMD and has no other effect; the all-zero word is NOP, the all-ones word is
illegal. -/
def Obligations.UnassignedOpcodesAreIllegal : Prop :=
  (∀ (s : State) (w : Word) (ws : List Word), s.input = w :: ws → unassignedOpcode (w.toNat / 2 ^ 56) = true →
    step s = .next (failed .illegalCmd { s with input := ws })) ∧
  decode 0x0000000000000000#64 = .ok .nop ∧
  ∀ (s : State) (ws : List Word), s.input = 0xFFFFFFFFFFFFFFFF#64 :: ws →
    step s = .next (failed .illegalCmd { s with input := ws })

/-- R84: which chunks are valid, their bits in stream order, and what an invalid one does. -/
def Obligations.BitChunksAreFirstBitHighest : Prop :=
  ∀ (n : Nat) (payload : Payload),
    (chunkValid n payload = true ↔ 1 ≤ n ∧ n ≤ 32 ∧ (n = 32 ∨ payload.toNat < 2 ^ n)) ∧
    chunkBits n payload = (List.range n).map (fun j => payload.getLsbD (n - 1 - j)) ∧
    ∀ s : State, s.err = .none → chunkValid n payload = false →
      exec (.ibits n payload) s = .next (failed .badOperand s) ∧ exec (.dbits n payload) s = .next (failed .badOperand s)

/-- R81, R85: words written out from the formats decode to the commands they stand for, one of each command. -/
def Obligations.SampleWordsDecode : Prop :=
  decode 0x0000000000000000#64 = .ok .nop ∧ decode 0x0100000000000000#64 = .ok .clr ∧
  decode 0x1000006100000003#64 = .ok (.setw 0x61#8 3#32) ∧ decode 0x1100000000000061#64 = .ok (.incw 0x61#8) ∧
  decode 0x1200000000000000#64 = .ok .build ∧ decode 0x2000000200000001#64 = .ok (.ibits 2 1#32) ∧
  decode 0x2100000000000062#64 = .ok (.ileaf 0x62#8) ∧ decode 0x3000000000000004#64 = .ok (.dstart 4#48) ∧
  decode 0x310000040000000E#64 = .ok (.dbits 4 0xE#32) ∧ decode 0x3200000000000000#64 = .ok .dend ∧
  decode 0x4000000000000001#64 = .ok (.rdreg 1) ∧ decode 0x4100000000000001#64 = .ok (.rdnode 1#9) ∧
  decode 0x4200000000000061#64 = .ok (.rdfreq 0x61#8)

/-! ## The command step and its errors (60_exceptions) -/

/-- R223: a step takes the next word, and where the word is a command runs it; `input` is the model's own field (log 1). -/
def Obligations.StepRunsTheDecodedCommand : Prop :=
  ∀ (s : State) (w : Word) (ws : List Word) (i : Instr), s.input = w :: ws → decode w = .ok i →
    step s = exec i { s with input := ws }

/-- R245: with no command written the HTBD keeps its state. That a step then answers the same state is the model's choice
(log 1). -/
def Obligations.IdleStepKeepsTheState : Prop :=
  ∀ s : State, s.input = [] → step s = .next s

/-- R220: which command raises which code, and that ILLEGAL_CMD is raised by an illegal word alone. -/
def Obligations.CodesAreRaisedByTheirCommands : Prop :=
  (∀ (i : Instr) (s t : State), exec i s = .next t →
    t.err = s.err ∨ (s.err = .none ∧ mayRaise i t.err = true) ∨ (i = .clr ∧ t.err = .none)) ∧
  ∀ s t : State, step s = .next t → s.err = .none → t.err = .illegalCmd →
    ∃ w ws e, s.input = w :: ws ∧ decode w = .error e

/-- R222: a code that is not NONE is changed by CLR alone, and every command but NOP, CLR and the reads changes nothing and
responds with STATUS; an illegal word changes nothing but RESP (R223). -/
def Obligations.ErrorsAreSticky : Prop :=
  ∀ (s : State) (w : Word) (ws : List Word), s.input = w :: ws → s.err ≠ .none →
    (∀ t, step s = .next t → t.err = s.err ∨ decode w = .ok .clr) ∧
    (∀ i, decode w = .ok i → passesGate i = false → step s = .next (responded { s with input := ws })) ∧
    ∀ e, decode w = .error e → step s = .next (responded { s with input := ws })

/-- R221: whatever raises an error records its code, responds with STATUS, and leaves a code that was there. -/
def Obligations.AnErrorIsInItsResponse : Prop :=
  ∀ (i : Instr) (s t : State), exec i s = .next t → t.err ≠ .none →
    (s.err ≠ .none → t.err = s.err) ∧ (s.err = .none → t.resp = status t)

/-- R224: the acceptance table, with its notes. "SEQ" is `accepts = false`; "yes" is a rule that does not raise SEQUENCE. -/
def Obligations.PhaseAcceptance : Prop :=
  ∀ (i : Instr) (s : State), s.err = .none → operandOk i = true →
    (accepts i s.phase = false → exec i s = .next (failed .sequence s)) ∧
    (accepts i s.phase = true → ∀ t, exec i s = .next t →
      t.err ≠ .sequence ∧
      match i with
      | .ibits _ _ | .ileaf _ => t.phase = .recon
      | .dstart _ => s.phase = .recon → s.walk ≠ s.root → t = failed .malformedHeader s
      | .dbits _ _ => s.phase = .done → t = responded s
      | .dend => (s.phase = .decode → t = failed .truncatedStream s) ∧ (s.phase = .done → t = responded s)
      | _ => True)

/-- R225: BAD_OPERAND is reported before SEQUENCE and before anything a command's own rule checks; SEQUENCE before
BUILD's and INCW's own checks. -/
def Obligations.OperandErrorsComeFirst : Prop :=
  ∀ (i : Instr) (s : State), s.err = .none → operandOk i = false → exec i s = .next (failed .badOperand s)

/-- R226: a command that raises an error changes ERR and RESP alone, but for what the bits before the failing bit of IBITS
and DBITS did (here: what the same command does with those bits alone), the failing bit's own effect for PARTIAL_SYMBOL, and
StartRecon's effect where it ran. -/
def Obligations.ErrorsArePrecise : Prop :=
  ∀ (i : Instr) (s t : State), Safety.Inv s → s.err = .none → exec i s = .next t → t.err ≠ .none →
    t = failed t.err s ∨
    (∃ sym, i = .ileaf sym ∧ s.phase = .idle ∧
      t = failed t.err { s with
        phase := .recon, root := 0, walk := 0, ncount := 1,
        node := [(0, { kind := .internal, sym := 0, weight := 0, c0 := Config.nil, c1 := Config.nil })] }) ∨
    (∃ n payload k u, i = .ibits n payload ∧ 1 ≤ k ∧ k < n ∧
      exec (.ibits k (payload >>> (n - k))) s = .next u ∧ u.err = .none ∧ t = failed t.err u) ∨
    ∃ n payload k u, i = .dbits n payload ∧ k < n ∧
      (k = 0 → u = s) ∧ (1 ≤ k → exec (.dbits k (payload >>> (n - k))) s = .next u) ∧ u.err = .none ∧
      ((t.err = .badPath ∧ t = failed .badPath u) ∨
       (t.err = .partialSymbol ∧ t.pos ≠ t.root ∧
          t = failed .partialSymbol { u with bitcnt := u.bitcnt + 1, pos := t.pos, phase := .done }))

/-! ## State and whole-machine rules (10_state, 20_memory, 70_reset_and_hazards) -/

/-- R260: what reset leaves in every register, FREQ, NODE and OUT, and that CLR leaves the same but for OUT and RESP. -/
def Obligations.ResetLeavesTheResetState : Prop :=
  (∀ ws, { State.reset with input := ws } = {
    phase := .idle, err := .none, root := Config.nil, ncount := 0, walk := Config.nil, pos := Config.nil, bitlen := 0, bitcnt := 0,
    resp := 0, freq := [], node := [], out := [], input := ws }) ∧
  Config.nil = 0x1FF#9 ∧ status State.reset = 0x0000000001FF0000#64 ∧
  (∀ sym, readFreq State.reset sym = 0) ∧
  (∀ idx : NodeIdx, idx ≠ Config.nil → exec (.rdnode idx) State.reset = .next { State.reset with resp := 0 }) ∧
  ∀ s : State, exec .clr s =
    .next { State.reset with resp := 0x0000000001FF0000#64, out := s.out, input := s.input }

/-- R26: the fields of STATUS and the zeros between them; R24, R220: the numbers of the phases and the codes. -/
def Obligations.StatusLayout : Prop :=
  (∀ s : State,
    (status s).extractLsb' 0 3 = phaseCode s.phase ∧ (status s).extractLsb' 3 5 = 0 ∧
    (status s).extractLsb' 8 4 = errCode s.err ∧ (status s).extractLsb' 12 4 = 0 ∧
    (status s).extractLsb' 16 9 = s.root ∧ (status s).extractLsb' 25 7 = 0 ∧
    (status s).extractLsb' 32 9 = s.ncount ∧ (status s).extractLsb' 41 23 = 0) ∧
  [Phase.idle, .tree, .recon, .decode, .done].map phaseCode = [0, 1, 2, 3, 4] ∧
  [Err.none, .emptyAlphabet, .malformedHeader, .truncatedStream, .badPath, .partialSymbol, .weightOvf, .nodeOvf, .sequence,
    .illegalCmd, .badOperand].map errCode = [0, 1, 2, 3, 4, 5, 6, 7, 8, 9, 10]

/-- R23: a register is changed only by the commands of its row. -/
def Obligations.RegistersAreWrittenByTheirCommands : Prop :=
  ∀ (i : Instr) (s t : State), exec i s = .next t → ∀ r : Register, writtenBy r i = false → unchanged s t r

/-- R35: OUT is empty at power-on and only grows at its end, and only a DBITS makes it grow. -/
def Obligations.OutputIsAppendOnly : Prop :=
  State.reset.out = [] ∧
  ∀ s t : State, step s = .next t → ∃ symbols, t.out = s.out ++ symbols ∧
    (symbols ≠ [] → ∃ w ws n payload, s.input = w :: ws ∧ decode w = .ok (.dbits n payload))

/-- R28: ROOT is NIL exactly in IDLE; BUILD sets it to the last record it allocates, a reconstruction to 0; then only CLR
changes it. -/
def Obligations.RootIsFixedUntilClear : Prop :=
  ∀ (i : Instr) (s t : State), Safety.Inv s → exec i s = .next t →
    (s.phase = .idle ↔ s.root = Config.nil) ∧
    (s.root ≠ Config.nil → t.root = s.root ∨ i = .clr) ∧
    (t.root ≠ s.root → i ≠ .clr →
      (i = .build ∧ t.root.toNat + 1 = t.ncount.toNat) ∨
      ((∃ n payload, i = .ibits n payload) ∨ ∃ sym, i = .ileaf sym) ∧ t.root = 0)

/-- R33, R27: the records form one tree: every allocated record is reached from ROOT by exactly one path, and no path leads
to anything else. -/
def Obligations.EveryRecordHasOnePath : Prop :=
  ∀ s : State, Safety.Inv s → s.phase ≠ .idle →
    (∀ i : NodeIdx, i.toNat < s.ncount.toNat → ∃ path, follow s s.root path = some i ∧
      ∀ path', follow s s.root path' = some i → path' = path) ∧
    ∀ path i, follow s s.root path = some i → i.toNat < s.ncount.toNat

/-- R65: SETW, DEND and CLR are idempotent. -/
def Obligations.IdempotentCommands : Prop :=
  ∀ (i : Instr) (s t : State), (∃ sym val, i = .setw sym val) ∨ i = .dend ∨ i = .clr → exec i s = .next t →
    exec i t = .next t

/-! ## Control and readout (44_control_readout) -/

/-- R200: NOP. -/
def Obligations.NopReturnsStatus : Prop :=
  (∀ s : State, exec .nop s = .next (responded s)) ∧ encode .nop = 0 ∧ decode 0 = .ok .nop

/-- R201: CLR. -/
def Obligations.ClrRestoresTheResetState : Prop :=
  (∀ s : State, exec .clr s = .next {
    phase := .idle, err := .none, root := Config.nil, ncount := 0, walk := Config.nil, pos := Config.nil, bitlen := 0, bitcnt := 0,
    resp := 0x0000000001FF0000#64, freq := [], node := [], out := s.out, input := s.input }) ∧
  encode .clr = 0x0100000000000000#64 ∧ decode 0x0100000000000000#64 = .ok .clr

/-- R202: reads have no side effects, in every phase and under an error. -/
def Obligations.ReadsHaveNoSideEffects : Prop :=
  ∀ (i : Instr) (s : State), Safety.Inv s →
    (∃ sel, i = .rdreg sel) ∨ (∃ idx, i = .rdnode idx) ∨ (∃ sym, i = .rdfreq sym) →
    ∃ t, exec i s = .next t ∧ (operandOk i = true → t = { s with resp := t.resp }) ∧
      (operandOk i = false → t = failed .badOperand s)

/-- R204 (and R203): RDREG by selector. -/
def Obligations.RdregReadsTheRegister : Prop :=
  ∀ s : State,
    exec (.rdreg 0) s = .next { s with resp := status s } ∧
    exec (.rdreg 1) s = .next { s with resp := BitVec.ofNat 64 s.bitlen.toNat } ∧
    exec (.rdreg 2) s = .next { s with resp := BitVec.ofNat 64 s.bitcnt.toNat } ∧
    exec (.rdreg 3) s = .next { s with resp := BitVec.ofNat 64 s.pos.toNat } ∧
    exec (.rdreg 4) s = .next { s with resp := BitVec.ofNat 64 s.walk.toNat } ∧
    ∀ sel, 5 ≤ sel → exec (.rdreg sel) s = .next (failed .badOperand s)

/-- R205: RDNODE, with its encoding and the layout of its response. -/
def Obligations.RdnodeReadsTheRecord : Prop :=
  ∀ (s : State) (idx : NodeIdx), Safety.Inv s →
    (idx = Config.nil → exec (.rdnode idx) s = .next (failed .badOperand s)) ∧
    (idx ≠ Config.nil → s.ncount.toNat ≤ idx.toNat → exec (.rdnode idx) s = .next { s with resp := 0 }) ∧
    (idx.toNat < s.ncount.toNat → ∃ r v, nodeAt s idx = some r ∧ exec (.rdnode idx) s = .next { s with resp := v } ∧
      v.extractLsb' 0 32 = r.weight ∧ v.extractLsb' 32 8 = r.sym ∧ v.extractLsb' 40 9 = r.c0 ∧ v.extractLsb' 49 9 = r.c1 ∧
      v.extractLsb' 58 2 = (match r.kind with | .leaf => 1 | .internal => 2) ∧ v.extractLsb' 60 4 = 0 ∧
      (r.kind = .leaf → r.c0 = Config.nil ∧ r.c1 = Config.nil) ∧ (r.kind = .internal → r.sym = 0)) ∧
    (encode (.rdnode idx)).toNat = 0x41 * 2 ^ 56 + idx.toNat ∧ decode (encode (.rdnode idx)) = .ok (.rdnode idx)

/-- R206: RDFREQ. -/
def Obligations.RdfreqReadsTheWeight : Prop :=
  ∀ (s : State) (sym : Symbol),
    exec (.rdfreq sym) s = .next { s with resp := BitVec.ofNat 64 (readFreq s sym).toNat } ∧
    (encode (.rdfreq sym)).toNat = 0x42 * 2 ^ 56 + sym.toNat ∧ decode (encode (.rdfreq sym)) = .ok (.rdfreq sym) ∧
    (sym ∉ tableSymbols s → readFreq s sym = 0)

/-! ## Frequency table loading (40_table_load) -/

/-- R110: SETW. -/
def Obligations.SetwSetsTheWeight : Prop :=
  ∀ (s : State) (sym : Symbol) (val : Weight), s.err = .none →
    (s.phase = .idle → ∃ t, exec (.setw sym val) s = .next t ∧ t = { s with freq := t.freq, resp := t.resp } ∧
      t.resp = status t ∧ (∀ c, readFreq t c = if c = sym then val else readFreq s c) ∧
      (sym ∈ tableSymbols t ↔ val ≠ 0)) ∧
    (s.phase ≠ .idle → exec (.setw sym val) s = .next (failed .sequence s)) ∧
    (encode (.setw sym val)).toNat = 0x10 * 2 ^ 56 + sym.toNat * 2 ^ 32 + val.toNat ∧
    decode (encode (.setw sym val)) = .ok (.setw sym val)

/-- R111: INCW. -/
def Obligations.IncwCountsOneOccurrence : Prop :=
  ∀ (s : State) (sym : Symbol), s.err = .none →
    (s.phase = .idle → readFreq s sym ≠ 0xFFFFFFFF#32 →
      ∃ t, exec (.incw sym) s = .next t ∧ t = { s with freq := t.freq, resp := t.resp } ∧ t.resp = status t ∧
        (readFreq t sym).toNat = (readFreq s sym).toNat + 1 ∧ ∀ c, c ≠ sym → readFreq t c = readFreq s c) ∧
    (s.phase = .idle → readFreq s sym = 0xFFFFFFFF#32 → exec (.incw sym) s = .next (failed .weightOvf s)) ∧
    (s.phase ≠ .idle → exec (.incw sym) s = .next (failed .sequence s)) ∧
    (encode (.incw sym)).toNat = 0x11 * 2 ^ 56 + sym.toNat ∧ decode (encode (.incw sym)) = .ok (.incw sym)

/-- R112, R113: INCW adds to whatever the weights were, and the order of the symbols does not matter: the whole next state
is the same. -/
def Obligations.SymbolOrderDoesNotMatter : Prop :=
  ∀ (s : State) (syms syms' : List Symbol), s.err = .none → s.phase = .idle → Memory.wf s → syms.Perm syms' →
    (∀ c, (readFreq s c).toNat + syms.count c ≤ 0xFFFFFFFF) →
    ∃ t, execAll (syms.map .incw) s = .next t ∧ execAll (syms'.map .incw) s = .next t ∧ t.err = .none ∧
      ∀ c, (readFreq t c).toNat = (readFreq s c).toNat + syms.count c

/-- R112: of the SETW of one symbol the last counts, whatever is set between, and the order of different symbols does not
matter. -/
def Obligations.LastSetwCounts : Prop :=
  ∀ (s : State) (writes : List (Symbol × Weight)), s.err = .none → s.phase = .idle → writes ≠ [] →
    ∃ t, execAll (writes.map fun p => .setw p.1 p.2) s = .next t ∧ t.err = .none ∧
      ∀ c, readFreq t c = match (writes.filter fun p => p.1 = c).getLast? with
        | some p => p.2
        | none => readFreq s c

/-! ## Tree Builder (41_tree_build) -/

/-- R134, R133, R130: BUILD's errors change ERR and RESP alone. -/
def Obligations.BuildChecksTheTable : Prop :=
  ∀ s : State, s.err = .none →
    (s.phase ≠ .idle → exec .build s = .next (failed .sequence s)) ∧
    (s.phase = .idle → (∀ c, readFreq s c = 0) → exec .build s = .next (failed .emptyAlphabet s)) ∧
    (s.phase = .idle → 0xFFFFFFFF < ((List.range 256).map fun c => (readFreq s (BitVec.ofNat 8 c)).toNat).sum →
      exec .build s = .next (failed .weightOvf s))

/-- R138, R142: BUILD on a table that passes its checks completes with no error; the shape of the tree; and what BUILD
leaves unchanged. -/
def Obligations.BuildCompletesTheTree : Prop :=
  ∀ s : State, Safety.Inv s → s.err = .none → s.phase = .idle → (∃ c, readFreq s c ≠ 0) →
    ((List.range 256).map fun c => (readFreq s (BitVec.ofNat 8 c)).toNat).sum ≤ 0xFFFFFFFF →
    ∃ t, exec .build s = .next t ∧
      t = { s with phase := .tree, root := t.root, ncount := t.ncount, node := t.node, resp := t.resp } ∧
      t.resp = status t ∧
      ((tableSymbols s).length = 1 → t.ncount = 2 ∧ t.root = 1) ∧
      (2 ≤ (tableSymbols s).length →
        t.ncount.toNat = 2 * (tableSymbols s).length - 1 ∧ t.root.toNat = 2 * (tableSymbols s).length - 2 ∧
        (t.node.filter fun e => e.2.kind = .internal).length = (tableSymbols s).length - 1 ∧
        ∀ i r, nodeAt t i = some r → r.kind = .internal →
          r.c0 ≠ Config.nil ∧ r.c1 ≠ Config.nil ∧ r.c0.toNat < i.toNat ∧ r.c1.toNat < i.toNat) ∧
      (t.node.filter fun e => e.2.kind = .leaf).map (fun e => e.2.sym) = tableSymbols s

/-- R131: the leaves, in ascending symbol order, at indices 0 to n - 1; the INTERNAL records after them. -/
def Obligations.LeavesStandInSymbolOrder : Prop :=
  ∀ s t : State, Built s t →
    ((tableSymbols s).Pairwise fun c d => c.toNat < d.toNat) ∧ (∀ c, c ∈ tableSymbols s ↔ readFreq s c ≠ 0) ∧
    (∀ j c, (tableSymbols s)[j]? = some c →
      nodeAt t (BitVec.ofNat 9 j) = some { kind := .leaf, sym := c, weight := readFreq s c, c0 := Config.nil, c1 := Config.nil }) ∧
    ∀ i r, nodeAt t i = some r → (tableSymbols s).length ≤ i.toNat → r.kind = .internal ∧ r.sym = 0

/-- R135: the table of size 1; a decoder that reads bit 1 at its root raises BAD_PATH. -/
def Obligations.SingletonTableGetsOneBit : Prop :=
  ∀ (s t : State) (c : Symbol), Built s t → tableSymbols s = [c] →
    t.node = [(0, { kind := .leaf, sym := c, weight := readFreq s c, c0 := Config.nil, c1 := Config.nil }),
      (1, { kind := .internal, sym := 0, weight := readFreq s c, c0 := 0, c1 := Config.nil })] ∧
    t.ncount = 2 ∧ t.root = 1 ∧ (∀ code d, hasCode t code d ↔ code = [false] ∧ d = c) ∧
    ∃ u, execAll [.dstart 1, .dbits 1 1] t = .next u ∧ u.err = .badPath ∧ u.out = s.out

/-- R137: every INTERNAL record weighs what its children weigh, and the root weighs what the table does. -/
def Obligations.WeightsAddUpToTheRoot : Prop :=
  ∀ s t : State, Built s t →
    (∀ i r, nodeAt t i = some r → r.kind = .internal → r.weight.toNat = weightAt t r.c0 + weightAt t r.c1) ∧
    weightAt t t.root = ((List.range 256).map fun c => (readFreq s (BitVec.ofNat 8 c)).toNat).sum

/-- R130, R132, R136: each merge takes the two records that pop first from the queue, the first as the zero-child. -/
def Obligations.EachMergeTakesTheTwoLeast : Prop :=
  ∀ s t : State, Built s t → 2 ≤ (tableSymbols s).length →
    ∀ k r, nodeAt t k = some r → r.kind = .internal →
      queuedAt t k.toNat r.c0.toNat ∧ queuedAt t k.toNat r.c1.toNat ∧ popsFirst t r.c0 r.c1 ∧
      ∀ j : NodeIdx, queuedAt t k.toNat j.toNat → j = r.c0 ∨ j = r.c1 ∨ popsFirst t r.c1 j

/-- R139: the tree and every code depend on FREQ alone. -/
def Obligations.TheTreeDependsOnFreqAlone : Prop :=
  ∀ s s' t t' : State, Built s t → Safety.Inv s' → s'.phase = .idle → s'.err = .none → (∀ c, readFreq s' c = readFreq s c) →
    exec .build s' = .next t' →
    t'.node = t.node ∧ t'.ncount = t.ncount ∧ t'.root = t.root ∧ t'.phase = t.phase ∧ t'.err = t.err ∧
      ∀ code c, hasCode t' code c ↔ hasCode t code c

/-- R140: the length of a code. -/
def Obligations.CodesAreNoLongerThanTheAlphabet : Prop :=
  ∀ (s t : State) (code : List Bool) (c : Symbol), Built s t → hasCode t code c →
    1 ≤ code.length ∧ (2 ≤ (tableSymbols s).length → code.length ≤ (tableSymbols s).length - 1) ∧
    ((tableSymbols s).length = 1 → code.length = 1) ∧ code.length ≤ 255

/-- R141: the codes are prefix-free, and with two symbols or more complete. -/
def Obligations.CodesArePrefixFreeAndComplete : Prop :=
  ∀ s t : State, Built s t →
    (∀ code c code' c', hasCode t code c → hasCode t code' c' → code <+: code' → code = code' ∧ c = c') ∧
    (2 ≤ (tableSymbols s).length → ∀ bits : List Bool, (tableSymbols s).length ≤ bits.length →
      ∃ code c, code <+: bits ∧ hasCode t code c ∧ ∀ code' c', code' <+: bits → hasCode t code' c' → code' = code ∧ c' = c)

/-- R138, R27, R34: every symbol of the table has exactly one code, and no other symbol has one. -/
def Obligations.EverySymbolOfTheTableHasOneCode : Prop :=
  ∀ s t : State, Built s t → ∀ c,
    (readFreq s c ≠ 0 → ∃ code, hasCode t code c ∧ ∀ code', hasCode t code' c → code' = code) ∧
    (readFreq s c = 0 → ∀ code, ¬ hasCode t code c)

/-! ## Tree reconstruction (42_tree_reconstruct) -/

/-- R149: the first IBITS or ILEAF creates the root, and does not fail to. -/
def Obligations.FirstEntryCommandCreatesTheRoot : Prop :=
  ∀ s : State, Safety.Inv s → s.err = .none → s.phase = .idle →
    (∀ sym, exec (.ileaf sym) s = .next (failed .malformedHeader { s with
      phase := .recon, root := 0, walk := 0, ncount := 1,
      node := [(0, { kind := .internal, sym := 0, weight := 0, c0 := Config.nil, c1 := Config.nil })] })) ∧
    ∀ n payload, chunkValid n payload = true →
      ∃ t, exec (.ibits n payload) s = .next t ∧
        t = { s with phase := .recon, root := 0, walk := t.walk, ncount := t.ncount, node := t.node, resp := t.resp } ∧
        t.resp = status t ∧ isInternal t 0 ∧ t.walk.toNat = n ∧ t.ncount.toNat = n + 1 ∧
        follow t 0 (chunkBits n payload) = some t.walk

/-- R151: one bit of a code path. -/
def Obligations.OneCodeBitWalksOrGrows : Prop :=
  ∀ (s : State) (b : Bool), Safety.Inv s → s.err = .none → s.phase = .recon →
    ∃ r, nodeAt s s.walk = some r ∧
      (r.kind = .leaf → exec (.ibits 1 (oneBit b)) s = .next (failed .malformedHeader s)) ∧
      (r.kind = .internal → childOf r b ≠ Config.nil →
        exec (.ibits 1 (oneBit b)) s = .next (responded { s with walk := childOf r b })) ∧
      (r.kind = .internal → childOf r b = Config.nil → s.ncount = 511 →
        exec (.ibits 1 (oneBit b)) s = .next (failed .nodeOvf s)) ∧
      (r.kind = .internal → childOf r b = Config.nil → s.ncount ≠ 511 →
        ∃ t, exec (.ibits 1 (oneBit b)) s = .next t ∧
          t = { s with walk := s.ncount, ncount := t.ncount, node := t.node, resp := t.resp } ∧ t.resp = status t ∧
          t.ncount.toNat = s.ncount.toNat + 1 ∧
          nodeAt t s.ncount = some { kind := .internal, sym := 0, weight := 0, c0 := Config.nil, c1 := Config.nil } ∧
          nodeAt t s.walk = some (if b then { r with c1 := s.ncount } else { r with c0 := s.ncount }) ∧
          ∀ j, j ≠ s.walk → j ≠ s.ncount → nodeAt t j = nodeAt s j)

/-- R150: IBITS in an open reconstruction: its checks, what it leaves unchanged, where it ends, and that with no LEAF on the
way and room for its records it raises no error. -/
def Obligations.IbitsWalksTheCode : Prop :=
  ∀ (s : State) (n : Nat) (payload : Payload), s.err = .none → chunkValid n payload = true →
    (s.phase ≠ .idle → s.phase ≠ .recon → exec (.ibits n payload) s = .next (failed .sequence s)) ∧
    (Safety.Inv s → s.phase = .recon → ∃ t, exec (.ibits n payload) s = .next t ∧
      t = { s with err := t.err, walk := t.walk, ncount := t.ncount, node := t.node, resp := t.resp } ∧
      t.resp = status t ∧ (t.err = .none ∨ t.err = .malformedHeader ∨ t.err = .nodeOvf) ∧
      (t.err = .none → follow t s.walk (chunkBits n payload) = some t.walk) ∧
      (∀ j, follow s s.walk (chunkBits n payload) = some j → t = responded { s with walk := j }) ∧
      (∀ i r, nodeAt s i = some r → ∃ r', nodeAt t i = some r' ∧
        r' = { r with c0 := r'.c0, c1 := r'.c1 } ∧ (r.c0 ≠ Config.nil → r'.c0 = r.c0) ∧ (r.c1 ≠ Config.nil → r'.c1 = r.c1) ∧
        (r.kind = .leaf → r' = r)) ∧
      (∀ i r', nodeAt t i = some r' → s.ncount.toNat ≤ i.toNat → r'.kind = .internal ∧ r'.sym = 0 ∧ r'.weight = 0) ∧
      (s.ncount.toNat + n ≤ 511 →
        (∀ pre b post, chunkBits n payload = pre ++ b :: post → ∀ i, follow s s.walk pre = some i → isInternal s i) →
        t.err = .none))

/-- R150: "the walk may continue across any number of IBITS commands": how a bit string is cut into chunks does not matter. -/
def Obligations.CodeChunkingDoesNotMatter : Prop :=
  ∀ (s : State) (cs ds : List Chunk), chunksValid cs → chunksValid ds → streamBits cs = streamBits ds →
    execAll (cs.map fun c => .ibits c.1 c.2) s = execAll (ds.map fun c => .ibits c.1 c.2) s

/-- R152: ILEAF: its checks in their order, and what marking a leaf changes. -/
def Obligations.IleafMarksTheWalkPosition : Prop :=
  ∀ (s : State) (sym : Symbol), s.err = .none →
    (s.phase ≠ .idle → s.phase ≠ .recon → exec (.ileaf sym) s = .next (failed .sequence s)) ∧
    (Safety.Inv s → s.phase = .recon → ∃ r, nodeAt s s.walk = some r ∧
      (s.walk = s.root ∨ r.kind = .leaf ∨ r.c0 ≠ Config.nil ∨ r.c1 ≠ Config.nil →
        exec (.ileaf sym) s = .next (failed .malformedHeader s)) ∧
      (s.walk ≠ s.root → r.kind = .internal → r.c0 = Config.nil → r.c1 = Config.nil →
        ∃ t, exec (.ileaf sym) s = .next t ∧ t = { s with walk := s.root, node := t.node, resp := t.resp } ∧
          t.resp = status t ∧
          ∀ j, nodeAt t j =
            if j = s.walk then some { kind := .leaf, sym := sym, weight := 0, c0 := Config.nil, c1 := Config.nil } else nodeAt s j))

/-- R151, R152, R157: one header entry whose code is new adds exactly its leaf, and no other code changes. -/
def Obligations.OneEntryAddsExactlyItsLeaf : Prop :=
  ∀ (s : State) (sym : Symbol) (cs : List Chunk), Safety.Inv s → s.err = .none →
    s.phase = .idle ∨ (s.phase = .recon ∧ s.walk = s.root) → chunksValid cs → cs ≠ [] →
    follow s s.root (streamBits cs) = none → (∀ code c, hasCode s code c → ¬ code <+: streamBits cs) →
    (if s.phase = .idle then 1 else s.ncount.toNat) + (streamBits cs).length ≤ 511 →
    ∃ t, execAll (ientry sym cs) s = .next t ∧ t.err = .none ∧ t.phase = .recon ∧ t.root = 0 ∧ t.walk = 0 ∧
      ∀ code c, hasCode t code c ↔ hasCode s code c ∨ (code = streamBits cs ∧ c = sym)

/-- R158: header isomorphism: reconstructing from the codes of a built tree, in any order and however the codes are cut into
chunks, gives the same codes and as many records, with no error. -/
def Obligations.HeaderIsomorphism : Prop :=
  ∀ (s t : State) (entries : List (Symbol × List Chunk)), Built s t → (∀ e ∈ entries, chunksValid e.2) →
    (entries.map Prod.fst).Nodup →
    (∀ code c, hasCode t code c ↔ ∃ e ∈ entries, e.1 = c ∧ streamBits e.2 = code) →
    ∃ u, execAll (.clr :: entries.flatMap fun e => ientry e.1 e.2) t = .next u ∧ u.err = .none ∧ u.phase = .recon ∧
      u.root = 0 ∧ u.walk = 0 ∧ u.ncount = t.ncount ∧ ∀ code c, hasCode u code c ↔ hasCode t code c

/-! ## Bit Decoder (43_bit_decode) -/

/-- R170: DSTART. -/
def Obligations.DstartStartsADecode : Prop :=
  ∀ (s : State) (len : BitCount), s.err = .none →
    (s.phase = .idle ∨ s.phase = .decode → exec (.dstart len) s = .next (failed .sequence s)) ∧
    (s.phase = .recon → s.walk ≠ s.root → exec (.dstart len) s = .next (failed .malformedHeader s)) ∧
    (s.phase = .tree ∨ (s.phase = .recon ∧ s.walk = s.root) ∨ s.phase = .done →
      exec (.dstart len) s = .next (responded { s with
        bitlen := len, bitcnt := 0, pos := s.root, phase := if len = 0 then .done else .decode })) ∧
    (encode (.dstart len)).toNat = 0x30 * 2 ^ 56 + len.toNat ∧ decode (encode (.dstart len)) = .ok (.dstart len)

/-- R169, R173: the transition table, one consumed bit. -/
def Obligations.DecoderTransitions : Prop :=
  ∀ (s : State) (b : Bool), Safety.Inv s → s.err = .none →
    (s.phase = .done → exec (.dbits 1 (oneBit b)) s = .next (responded s)) ∧
    (s.phase = .decode → s.bitcnt.toNat < s.bitlen.toNat ∧ ∃ r, nodeAt s s.pos = some r ∧ r.kind = .internal ∧
      (childOf r b = Config.nil → exec (.dbits 1 (oneBit b)) s = .next (failed .badPath s)) ∧
      (childOf r b ≠ Config.nil → ∃ rc, nodeAt s (childOf r b) = some rc ∧
        (rc.kind = .leaf → s.bitcnt.toNat + 1 < s.bitlen.toNat →
          exec (.dbits 1 (oneBit b)) s = .next (responded { s with
            bitcnt := s.bitcnt + 1, pos := s.root, out := s.out ++ [rc.sym] })) ∧
        (rc.kind = .leaf → s.bitcnt.toNat + 1 = s.bitlen.toNat →
          exec (.dbits 1 (oneBit b)) s = .next (responded { s with
            bitcnt := s.bitcnt + 1, pos := s.root, out := s.out ++ [rc.sym], phase := .done })) ∧
        (rc.kind = .internal → s.bitcnt.toNat + 1 < s.bitlen.toNat →
          exec (.dbits 1 (oneBit b)) s = .next (responded { s with bitcnt := s.bitcnt + 1, pos := childOf r b })) ∧
        (rc.kind = .internal → s.bitcnt.toNat + 1 = s.bitlen.toNat →
          exec (.dbits 1 (oneBit b)) s = .next (failed .partialSymbol { s with
            bitcnt := s.bitcnt + 1, pos := childOf r b, phase := .done }))))

/-- R171, R174: DBITS: its checks, what it leaves unchanged, how many bits it consumes, and that on a tree with no missing
child and with fewer bits than are owed it raises no error. -/
def Obligations.DbitsConsumesUpToTheBoundary : Prop :=
  ∀ (s : State) (n : Nat) (payload : Payload), s.err = .none → chunkValid n payload = true →
    (s.phase ≠ .decode → s.phase ≠ .done → exec (.dbits n payload) s = .next (failed .sequence s)) ∧
    (s.phase = .done → exec (.dbits n payload) s = .next (responded s)) ∧
    (Safety.Inv s → s.phase = .decode → ∃ t, exec (.dbits n payload) s = .next t ∧
      t = { s with phase := t.phase, err := t.err, pos := t.pos, bitcnt := t.bitcnt, out := t.out, resp := t.resp } ∧
      t.resp = status t ∧ (t.err = .none ∨ t.err = .badPath ∨ t.err = .partialSymbol) ∧
      (t.err ≠ .badPath → t.bitcnt.toNat = min (s.bitcnt.toNat + n) s.bitlen.toNat) ∧
      (t.phase = .done ↔ t.bitcnt = s.bitlen) ∧ (t.phase = .done ∨ t.phase = .decode) ∧
      (s.bitcnt.toNat + n < s.bitlen.toNat →
        (∀ i r, nodeAt s i = some r → r.kind = .internal → r.c0 ≠ Config.nil ∧ r.c1 ≠ Config.nil) → t.err = .none))

/-- R172: DEND. -/
def Obligations.DendReportsTruncation : Prop :=
  ∀ s : State, s.err = .none →
    (s.phase ≠ .decode → s.phase ≠ .done → exec .dend s = .next (failed .sequence s)) ∧
    (s.phase = .decode → exec .dend s = .next (failed .truncatedStream s)) ∧
    (s.phase = .done → exec .dend s = .next (responded s)) ∧
    encode .dend = 0x3200000000000000#64 ∧ decode 0x3200000000000000#64 = .ok .dend

/-- R178: however a bit string is cut into DBITS chunks, the final state is the same. -/
def Obligations.ContentChunkingDoesNotMatter : Prop :=
  ∀ (s : State) (cs ds : List Chunk), chunksValid cs → chunksValid ds → streamBits cs = streamBits ds →
    execAll (dstream cs) s = execAll (dstream ds) s

/-- R180: bits after the last owed one have no effect, in the same DBITS or in later ones, and DEND after DONE has none. -/
def Obligations.ExtraInputIsDiscarded : Prop :=
  ∀ s : State, Safety.Inv s → s.err = .none →
    (s.phase = .decode → ∀ n payload owed, chunkValid n payload = true → s.bitcnt.toNat + owed = s.bitlen.toNat →
      owed < n → exec (.dbits n payload) s = exec (.dbits owed (payload >>> (n - owed))) s) ∧
    (s.phase = .done → ∀ cs, chunksValid cs → cs ≠ [] →
      execAll (dstream cs) s = .next (responded s) ∧ exec .dend s = .next (responded s))

/-- R179: round trip: decoding the codes of a sequence of symbols emits exactly the symbols. -/
def Obligations.RoundTrip : Prop :=
  ∀ (s : State) (message : List (Symbol × List Bool)) (cs : List Chunk), Safety.Inv s → s.err = .none →
    s.phase = .tree ∨ (s.phase = .recon ∧ s.walk = s.root) ∨ s.phase = .done →
    (∀ m ∈ message, hasCode s m.2 m.1) → chunksValid cs → streamBits cs = message.flatMap Prod.snd →
    (streamBits cs).length < 2 ^ 48 →
    ∃ t, execAll (.dstart (BitVec.ofNat 48 (streamBits cs).length) :: dstream cs) s = .next t ∧
      t.out = s.out ++ message.map Prod.fst ∧ t.phase = .done ∧ t.err = .none ∧ t.pos = s.root ∧ t.root = s.root ∧
      t.bitcnt.toNat = (streamBits cs).length

/-! ## The invariant -/

/-- The structural invariant holds at reset. -/
def Obligations.ResetIsSound : Prop :=
  Safety.Inv State.reset

/-- R33, R29, R38, R43: every step keeps the structural invariant: canonical memory, one tree, sound weights, BITCNT at most
BITLEN, registers as the phase says. -/
def Obligations.EveryStepKeepsTheInvariant : Prop :=
  ∀ s t : State, Safety.Inv s → step s = .next t → Safety.Inv t

/-- R63, R276: from a sound state every word the host writes is processed to a next state, in every phase: no command
computes an index of no record, and each command completes. -/
def Obligations.EveryStepCompletes : Prop :=
  ∀ s : State, Safety.Inv s → StepSafe s
end

