-- ==== Sys2Proof/Laws/State.lean ====
section
/-! SUPPORT. What each state update leaves in each field, one lemma per field per update; each is true by rfl. -/

namespace Sys2Proof.Machine

/-! ## respond -/

@[simp] theorem respond_phase (v : Word) (s : State) : (respond v s).phase = s.phase := rfl
@[simp] theorem respond_err (v : Word) (s : State) : (respond v s).err = s.err := rfl
@[simp] theorem respond_root (v : Word) (s : State) : (respond v s).root = s.root := rfl
@[simp] theorem respond_ncount (v : Word) (s : State) : (respond v s).ncount = s.ncount := rfl
@[simp] theorem respond_walk (v : Word) (s : State) : (respond v s).walk = s.walk := rfl
@[simp] theorem respond_pos (v : Word) (s : State) : (respond v s).pos = s.pos := rfl
@[simp] theorem respond_bitlen (v : Word) (s : State) : (respond v s).bitlen = s.bitlen := rfl
@[simp] theorem respond_bitcnt (v : Word) (s : State) : (respond v s).bitcnt = s.bitcnt := rfl
@[simp] theorem respond_resp (v : Word) (s : State) : (respond v s).resp = v := rfl
@[simp] theorem respond_freq (v : Word) (s : State) : (respond v s).freq = s.freq := rfl
@[simp] theorem respond_node (v : Word) (s : State) : (respond v s).node = s.node := rfl
@[simp] theorem respond_out (v : Word) (s : State) : (respond v s).out = s.out := rfl
@[simp] theorem respond_input (v : Word) (s : State) : (respond v s).input = s.input := rfl

/-! ## respondStatus -/

@[simp] theorem respondStatus_phase (s : State) : (respondStatus s).phase = s.phase := rfl
@[simp] theorem respondStatus_err (s : State) : (respondStatus s).err = s.err := rfl
@[simp] theorem respondStatus_root (s : State) : (respondStatus s).root = s.root := rfl
@[simp] theorem respondStatus_ncount (s : State) : (respondStatus s).ncount = s.ncount := rfl
@[simp] theorem respondStatus_walk (s : State) : (respondStatus s).walk = s.walk := rfl
@[simp] theorem respondStatus_pos (s : State) : (respondStatus s).pos = s.pos := rfl
@[simp] theorem respondStatus_bitlen (s : State) : (respondStatus s).bitlen = s.bitlen := rfl
@[simp] theorem respondStatus_bitcnt (s : State) : (respondStatus s).bitcnt = s.bitcnt := rfl
@[simp] theorem respondStatus_resp (s : State) : (respondStatus s).resp = status s := rfl
@[simp] theorem respondStatus_freq (s : State) : (respondStatus s).freq = s.freq := rfl
@[simp] theorem respondStatus_node (s : State) : (respondStatus s).node = s.node := rfl
@[simp] theorem respondStatus_out (s : State) : (respondStatus s).out = s.out := rfl
@[simp] theorem respondStatus_input (s : State) : (respondStatus s).input = s.input := rfl

/-! ## raise -/

@[simp] theorem raise_phase (e : Err) (s : State) : (raise e s).phase = s.phase := rfl
@[simp] theorem raise_err (e : Err) (s : State) : (raise e s).err = stickyErr s.err e := rfl
@[simp] theorem raise_root (e : Err) (s : State) : (raise e s).root = s.root := rfl
@[simp] theorem raise_ncount (e : Err) (s : State) : (raise e s).ncount = s.ncount := rfl
@[simp] theorem raise_walk (e : Err) (s : State) : (raise e s).walk = s.walk := rfl
@[simp] theorem raise_pos (e : Err) (s : State) : (raise e s).pos = s.pos := rfl
@[simp] theorem raise_bitlen (e : Err) (s : State) : (raise e s).bitlen = s.bitlen := rfl
@[simp] theorem raise_bitcnt (e : Err) (s : State) : (raise e s).bitcnt = s.bitcnt := rfl
@[simp] theorem raise_resp (e : Err) (s : State) : (raise e s).resp = status { s with err := stickyErr s.err e } := rfl
@[simp] theorem raise_freq (e : Err) (s : State) : (raise e s).freq = s.freq := rfl
@[simp] theorem raise_node (e : Err) (s : State) : (raise e s).node = s.node := rfl
@[simp] theorem raise_out (e : Err) (s : State) : (raise e s).out = s.out := rfl
@[simp] theorem raise_input (e : Err) (s : State) : (raise e s).input = s.input := rfl

/-! ## resetState -/

@[simp] theorem resetState_phase (s : State) : (resetState s).phase = .idle := rfl
@[simp] theorem resetState_err (s : State) : (resetState s).err = .none := rfl
@[simp] theorem resetState_root (s : State) : (resetState s).root = Config.nil := rfl
@[simp] theorem resetState_ncount (s : State) : (resetState s).ncount = 0 := rfl
@[simp] theorem resetState_walk (s : State) : (resetState s).walk = Config.nil := rfl
@[simp] theorem resetState_pos (s : State) : (resetState s).pos = Config.nil := rfl
@[simp] theorem resetState_bitlen (s : State) : (resetState s).bitlen = 0 := rfl
@[simp] theorem resetState_bitcnt (s : State) : (resetState s).bitcnt = 0 := rfl
@[simp] theorem resetState_resp (s : State) : (resetState s).resp = 0 := rfl
@[simp] theorem resetState_freq (s : State) : (resetState s).freq = [] := rfl
@[simp] theorem resetState_node (s : State) : (resetState s).node = [] := rfl
@[simp] theorem resetState_out (s : State) : (resetState s).out = s.out := rfl
@[simp] theorem resetState_input (s : State) : (resetState s).input = s.input := rfl

/-! ## writeFreq -/

@[simp] theorem writeFreq_phase (s : State) (c : Symbol) (v : Weight) : (writeFreq s c v).phase = s.phase := rfl
@[simp] theorem writeFreq_err (s : State) (c : Symbol) (v : Weight) : (writeFreq s c v).err = s.err := rfl
@[simp] theorem writeFreq_root (s : State) (c : Symbol) (v : Weight) : (writeFreq s c v).root = s.root := rfl
@[simp] theorem writeFreq_ncount (s : State) (c : Symbol) (v : Weight) : (writeFreq s c v).ncount = s.ncount := rfl
@[simp] theorem writeFreq_walk (s : State) (c : Symbol) (v : Weight) : (writeFreq s c v).walk = s.walk := rfl
@[simp] theorem writeFreq_pos (s : State) (c : Symbol) (v : Weight) : (writeFreq s c v).pos = s.pos := rfl
@[simp] theorem writeFreq_bitlen (s : State) (c : Symbol) (v : Weight) : (writeFreq s c v).bitlen = s.bitlen := rfl
@[simp] theorem writeFreq_bitcnt (s : State) (c : Symbol) (v : Weight) : (writeFreq s c v).bitcnt = s.bitcnt := rfl
@[simp] theorem writeFreq_resp (s : State) (c : Symbol) (v : Weight) : (writeFreq s c v).resp = s.resp := rfl
@[simp] theorem writeFreq_freq (s : State) (c : Symbol) (v : Weight) : (writeFreq s c v).freq = if v = 0 then storeErase s.freq c.toNat else storePut s.freq c.toNat v := rfl
@[simp] theorem writeFreq_node (s : State) (c : Symbol) (v : Weight) : (writeFreq s c v).node = s.node := rfl
@[simp] theorem writeFreq_out (s : State) (c : Symbol) (v : Weight) : (writeFreq s c v).out = s.out := rfl
@[simp] theorem writeFreq_input (s : State) (c : Symbol) (v : Weight) : (writeFreq s c v).input = s.input := rfl

/-! ## setNode -/

@[simp] theorem setNode_phase (s : State) (i : NodeIdx) (r : NodeRec) : (setNode s i r).phase = s.phase := rfl
@[simp] theorem setNode_err (s : State) (i : NodeIdx) (r : NodeRec) : (setNode s i r).err = s.err := rfl
@[simp] theorem setNode_root (s : State) (i : NodeIdx) (r : NodeRec) : (setNode s i r).root = s.root := rfl
@[simp] theorem setNode_ncount (s : State) (i : NodeIdx) (r : NodeRec) : (setNode s i r).ncount = s.ncount := rfl
@[simp] theorem setNode_walk (s : State) (i : NodeIdx) (r : NodeRec) : (setNode s i r).walk = s.walk := rfl
@[simp] theorem setNode_pos (s : State) (i : NodeIdx) (r : NodeRec) : (setNode s i r).pos = s.pos := rfl
@[simp] theorem setNode_bitlen (s : State) (i : NodeIdx) (r : NodeRec) : (setNode s i r).bitlen = s.bitlen := rfl
@[simp] theorem setNode_bitcnt (s : State) (i : NodeIdx) (r : NodeRec) : (setNode s i r).bitcnt = s.bitcnt := rfl
@[simp] theorem setNode_resp (s : State) (i : NodeIdx) (r : NodeRec) : (setNode s i r).resp = s.resp := rfl
@[simp] theorem setNode_freq (s : State) (i : NodeIdx) (r : NodeRec) : (setNode s i r).freq = s.freq := rfl
@[simp] theorem setNode_node (s : State) (i : NodeIdx) (r : NodeRec) : (setNode s i r).node = storePut s.node i.toNat r := rfl
@[simp] theorem setNode_out (s : State) (i : NodeIdx) (r : NodeRec) : (setNode s i r).out = s.out := rfl
@[simp] theorem setNode_input (s : State) (i : NodeIdx) (r : NodeRec) : (setNode s i r).input = s.input := rfl

/-! ## emit -/

@[simp] theorem emit_phase (c : Symbol) (s : State) : (emit c s).phase = s.phase := rfl
@[simp] theorem emit_err (c : Symbol) (s : State) : (emit c s).err = s.err := rfl
@[simp] theorem emit_root (c : Symbol) (s : State) : (emit c s).root = s.root := rfl
@[simp] theorem emit_ncount (c : Symbol) (s : State) : (emit c s).ncount = s.ncount := rfl
@[simp] theorem emit_walk (c : Symbol) (s : State) : (emit c s).walk = s.walk := rfl
@[simp] theorem emit_pos (c : Symbol) (s : State) : (emit c s).pos = s.pos := rfl
@[simp] theorem emit_bitlen (c : Symbol) (s : State) : (emit c s).bitlen = s.bitlen := rfl
@[simp] theorem emit_bitcnt (c : Symbol) (s : State) : (emit c s).bitcnt = s.bitcnt := rfl
@[simp] theorem emit_resp (c : Symbol) (s : State) : (emit c s).resp = s.resp := rfl
@[simp] theorem emit_freq (c : Symbol) (s : State) : (emit c s).freq = s.freq := rfl
@[simp] theorem emit_node (c : Symbol) (s : State) : (emit c s).node = s.node := rfl
@[simp] theorem emit_out (c : Symbol) (s : State) : (emit c s).out = s.out ++ [c] := rfl
@[simp] theorem emit_input (c : Symbol) (s : State) : (emit c s).input = s.input := rfl

/-! ## offerCommand -/

@[simp] theorem offerCommand_phase (w : Word) (s : State) : (offerCommand w s).phase = s.phase := rfl
@[simp] theorem offerCommand_err (w : Word) (s : State) : (offerCommand w s).err = s.err := rfl
@[simp] theorem offerCommand_root (w : Word) (s : State) : (offerCommand w s).root = s.root := rfl
@[simp] theorem offerCommand_ncount (w : Word) (s : State) : (offerCommand w s).ncount = s.ncount := rfl
@[simp] theorem offerCommand_walk (w : Word) (s : State) : (offerCommand w s).walk = s.walk := rfl
@[simp] theorem offerCommand_pos (w : Word) (s : State) : (offerCommand w s).pos = s.pos := rfl
@[simp] theorem offerCommand_bitlen (w : Word) (s : State) : (offerCommand w s).bitlen = s.bitlen := rfl
@[simp] theorem offerCommand_bitcnt (w : Word) (s : State) : (offerCommand w s).bitcnt = s.bitcnt := rfl
@[simp] theorem offerCommand_resp (w : Word) (s : State) : (offerCommand w s).resp = s.resp := rfl
@[simp] theorem offerCommand_freq (w : Word) (s : State) : (offerCommand w s).freq = s.freq := rfl
@[simp] theorem offerCommand_node (w : Word) (s : State) : (offerCommand w s).node = s.node := rfl
@[simp] theorem offerCommand_out (w : Word) (s : State) : (offerCommand w s).out = s.out := rfl
@[simp] theorem offerCommand_input (w : Word) (s : State) : (offerCommand w s).input = w :: s.input := rfl

/-! ## pushNode -/

@[simp] theorem pushNode_phase (r : NodeRec) (s : State) : (pushNode r s).phase = s.phase := rfl
@[simp] theorem pushNode_err (r : NodeRec) (s : State) : (pushNode r s).err = s.err := rfl
@[simp] theorem pushNode_root (r : NodeRec) (s : State) : (pushNode r s).root = s.root := rfl
@[simp] theorem pushNode_ncount (r : NodeRec) (s : State) : (pushNode r s).ncount = s.ncount + 1 := rfl
@[simp] theorem pushNode_walk (r : NodeRec) (s : State) : (pushNode r s).walk = s.walk := rfl
@[simp] theorem pushNode_pos (r : NodeRec) (s : State) : (pushNode r s).pos = s.pos := rfl
@[simp] theorem pushNode_bitlen (r : NodeRec) (s : State) : (pushNode r s).bitlen = s.bitlen := rfl
@[simp] theorem pushNode_bitcnt (r : NodeRec) (s : State) : (pushNode r s).bitcnt = s.bitcnt := rfl
@[simp] theorem pushNode_resp (r : NodeRec) (s : State) : (pushNode r s).resp = s.resp := rfl
@[simp] theorem pushNode_freq (r : NodeRec) (s : State) : (pushNode r s).freq = s.freq := rfl
@[simp] theorem pushNode_node (r : NodeRec) (s : State) : (pushNode r s).node = storePut s.node s.ncount.toNat r := rfl
@[simp] theorem pushNode_out (r : NodeRec) (s : State) : (pushNode r s).out = s.out := rfl
@[simp] theorem pushNode_input (r : NodeRec) (s : State) : (pushNode r s).input = s.input := rfl

end Sys2Proof.Machine
end

