-- ==== Sys2Proof/Laws/Store.lean ====
section
/-! SUPPORT. The laws of the ordered stores that hold FREQ and NODE: read after write, and the canonical form. -/

namespace Sys2Proof.Machine

variable {α : Type}

theorem storeFind_storePut (m : List (Nat × α)) (k k' : Nat) (v : α) :
    storeFind (storePut m k v) k' = if k = k' then some v else storeFind m k' := by
  induction m with
  | nil => simp [storePut, storeFind]
  | cons e m ih =>
    obtain ⟨j, w⟩ := e
    simp only [storePut]
    split
    · simp [storeFind]
    · split
      · rename_i _ hj
        subst hj
        by_cases hk : k = k' <;> simp [storeFind, hk]
      · rename_i _ hj
        simp only [storeFind, ih]
        by_cases h1 : j = k'
        · have : k ≠ k' := fun h => hj (h.trans h1.symm)
          simp [h1, this]
        · simp [h1]

@[simp] theorem storeFind_storePut_same (m : List (Nat × α)) (k : Nat) (v : α) :
    storeFind (storePut m k v) k = some v := by simp [storeFind_storePut]

theorem storeFind_storePut_other (m : List (Nat × α)) {k k' : Nat} (v : α) (h : k ≠ k') :
    storeFind (storePut m k v) k' = storeFind m k' := by simp [storeFind_storePut, h]

theorem storeFind_storeErase (m : List (Nat × α)) (k k' : Nat) :
    storeFind (storeErase m k) k' = if k = k' then none else storeFind m k' := by
  induction m with
  | nil => simp [storeErase, storeFind]
  | cons e m ih =>
    obtain ⟨j, w⟩ := e
    simp only [storeErase]
    split
    · rename_i hj
      subst hj
      by_cases hk : j = k'
      · subst hk; simp [ih]
      · simp [storeFind, ih, hk]
    · rename_i hj
      simp only [storeFind, ih]
      by_cases h1 : j = k'
      · have : k ≠ k' := fun h => hj (h1.trans h.symm)
        simp [h1, this]
      · simp [h1]

/-! ## Membership -/

theorem mem_storePut {m : List (Nat × α)} {k : Nat} {v : α} {e : Nat × α} (h : e ∈ storePut m k v) :
    e = (k, v) ∨ e ∈ m := by
  induction m with
  | nil => simpa [storePut] using h
  | cons a m ih =>
    obtain ⟨j, w⟩ := a
    simp only [storePut] at h
    split at h
    · simpa using h
    · split at h
      · rcases List.mem_cons.1 h with h | h
        · exact .inl h
        · exact .inr (List.mem_cons_of_mem _ h)
      · rcases List.mem_cons.1 h with h | h
        · exact .inr (h ▸ List.mem_cons_self)
        · exact (ih h).imp_right (List.mem_cons_of_mem _)

theorem mem_storeErase {m : List (Nat × α)} {k : Nat} {e : Nat × α} (h : e ∈ storeErase m k) : e ∈ m := by
  induction m with
  | nil => simp [storeErase] at h
  | cons a m ih =>
    obtain ⟨j, w⟩ := a
    simp only [storeErase] at h
    split at h
    · exact List.mem_cons_of_mem _ (ih h)
    · rcases List.mem_cons.1 h with h | h
      · exact h ▸ List.mem_cons_self
      · exact List.mem_cons_of_mem _ (ih h)

/-! ## The canonical form is kept -/

theorem storeRising_cons {e : Nat × α} {m : List (Nat × α)} :
    storeRising (e :: m) ↔ (∀ d ∈ m, e.1 < d.1) ∧ storeRising m := by
  simp [storeRising, List.pairwise_cons]

theorem storeRising_storePut {m : List (Nat × α)} (h : storeRising m) (k : Nat) (v : α) : storeRising (storePut m k v) := by
  induction m with
  | nil => simp [storePut, storeRising]
  | cons a m ih =>
    obtain ⟨j, w⟩ := a
    have ⟨h1, h2⟩ := storeRising_cons.1 h
    simp only [storePut]
    split
    · rename_i hk
      exact storeRising_cons.2 ⟨by
        intro d hd
        rcases List.mem_cons.1 hd with rfl | hd
        · exact hk
        · exact lt_trans hk (h1 d hd), h⟩
    · split
      · rename_i hj
        exact storeRising_cons.2 ⟨fun d hd => hj ▸ h1 d hd, h2⟩
      · refine storeRising_cons.2 ⟨fun d hd => ?_, ih h2⟩
        rcases mem_storePut hd with rfl | hd
        · simp only; omega
        · exact h1 d hd

theorem storeRising_storeErase {m : List (Nat × α)} (h : storeRising m) (k : Nat) : storeRising (storeErase m k) := by
  induction m with
  | nil => simpa [storeErase] using h
  | cons a m ih =>
    obtain ⟨j, w⟩ := a
    have ⟨h1, h2⟩ := storeRising_cons.1 h
    simp only [storeErase]
    split
    · exact ih h2
    · exact storeRising_cons.2 ⟨fun d hd => h1 d (mem_storeErase hd), ih h2⟩

/-- In canonical form, what a key finds is what is listed under it. -/
theorem storeFind_eq_some_iff {m : List (Nat × α)} (h : storeRising m) {k : Nat} {v : α} :
    storeFind m k = some v ↔ (k, v) ∈ m := by
  induction m with
  | nil => simp [storeFind]
  | cons a m ih =>
    obtain ⟨j, w⟩ := a
    have ⟨h1, h2⟩ := storeRising_cons.1 h
    simp only [storeFind]
    by_cases hj : j = k
    · subst hj
      simp only [if_true, Option.some.injEq, List.mem_cons, Prod.mk.injEq, true_and]
      exact ⟨fun h => .inl h.symm, fun h => h.elim Eq.symm fun h => absurd (h1 _ h) (lt_irrefl _)⟩
    · simp [hj, ih h2, Ne.symm hj]

theorem storeFind_isSome_iff {m : List (Nat × α)} {k : Nat} : (storeFind m k).isSome = true ↔ k ∈ m.map Prod.fst := by
  induction m with
  | nil => simp [storeFind]
  | cons a m ih =>
    obtain ⟨j, w⟩ := a
    simp only [storeFind, List.map_cons, List.mem_cons]
    by_cases hj : j = k
    · simp [hj]
    · simp [hj, ih, Ne.symm hj]

/-- Two canonical stores in which every key finds the same are the same list. -/
theorem storeRising_ext {m m' : List (Nat × α)} (h : storeRising m) (h' : storeRising m')
    (hf : ∀ k, storeFind m k = storeFind m' k) : m = m' := by
  have hp : m.Perm m' := by
    refine (List.perm_ext_iff_of_nodup ?_ ?_).2 fun e => ?_
    · exact List.Nodup.of_map _ (List.Pairwise.imp (fun h => Nat.ne_of_lt h) h)
    · exact List.Nodup.of_map _ (List.Pairwise.imp (fun h => Nat.ne_of_lt h) h')
    · obtain ⟨k, v⟩ := e
      rw [← storeFind_eq_some_iff h, ← storeFind_eq_some_iff h', hf]
  refine List.Perm.eq_of_pairwise (le := fun a b => a.1 < b.1) ?_ (List.pairwise_map.1 h) (List.pairwise_map.1 h') hp
  intro a b _ _ h1 h2
  exact absurd (lt_trans h1 h2) (lt_irrefl _)

/-! ## The two shapes of a write to NODE: a new largest key, and a listed key -/

theorem storePut_append {m : List (Nat × α)} {k : Nat} (h : ∀ e ∈ m, e.1 < k) (v : α) :
    storePut m k v = m ++ [(k, v)] := by
  induction m with
  | nil => rfl
  | cons a m ih =>
    obtain ⟨j, w⟩ := a
    have hj : j < k := h (j, w) List.mem_cons_self
    simp [storePut, Nat.lt_asymm hj, Nat.ne_of_gt hj, ih fun e he => h e (List.mem_cons_of_mem _ he)]

theorem keys_storePut_listed {m : List (Nat × α)} (hr : storeRising m) {k : Nat} (h : k ∈ m.map Prod.fst) (v : α) :
    (storePut m k v).map Prod.fst = m.map Prod.fst := by
  induction m with
  | nil => simp at h
  | cons a m ih =>
    obtain ⟨j, w⟩ := a
    have ⟨h1, h2⟩ := storeRising_cons.1 hr
    simp only [storePut]
    rcases List.mem_cons.1 h with h | h
    · simp only at h
      simp [h]
    · have : j < k := by
        obtain ⟨e, he, rfl⟩ := List.mem_map.1 h
        exact h1 e he
      simp [Nat.lt_asymm this, Nat.ne_of_gt this, ih h2 h]

/-- How often `x` occurs in a list collected from all listed values, after one listed value is replaced. -/
theorem count_flatMap_storePut {m : List (Nat × α)} (hr : storeRising m) {k : Nat} {v : α} (h : (k, v) ∈ m)
    (f : α → List Nat) (v' : α) (x : Nat) :
    ((storePut m k v').flatMap fun e => f e.2).count x + (f v).count x =
      (m.flatMap fun e => f e.2).count x + (f v').count x := by
  induction m with
  | nil => simp at h
  | cons a m ih =>
    obtain ⟨j, w⟩ := a
    have ⟨h1, h2⟩ := storeRising_cons.1 hr
    rcases List.mem_cons.1 h with h | h
    · simp only [Prod.mk.injEq] at h
      obtain ⟨rfl, rfl⟩ := h
      simp only [storePut, lt_irrefl, if_false, if_true, List.flatMap_cons, List.count_append]
      omega
    · have hj : j < k := h1 _ h
      simp only [storePut, Nat.lt_asymm hj, if_false, Nat.ne_of_gt hj, List.flatMap_cons, List.count_append]
      have := ih h2 h
      omega

end Sys2Proof.Machine
end

