-- ==== Sys2Proof/Laws/Ops.lean ====
section
/-! SUPPORT. One spec lemma per shared operation of Machine/Ops.lean: what it can answer, what a read finds after a write, and that the canonical form of memory is kept. -/

namespace Sys2Proof.Machine

/-! ## Flow -/

@[simp] theorem Flow.bind_ok {α β : Type} (a : α) (k : α → Flow β) : (Flow.ok a).bind k = k a := rfl

@[simp] theorem Flow.bind_fail {α β : Type} (e : Err) (s : State) (k : α → Flow β) :
    (Flow.fail e s : Flow α).bind k = .fail e s := rfl

@[simp] theorem Flow.bind_stop {α β : Type} (f : Fault) (k : α → Flow β) : (Flow.stop f : Flow α).bind k = .stop f := rfl

theorem Flow.bind_assoc {α β γ : Type} (x : Flow α) (k : α → Flow β) (l : β → Flow γ) :
    (x.bind k).bind l = x.bind fun a => (k a).bind l := by cases x <;> rfl

theorem Flow.bind_eq_ok {α β : Type} {x : Flow α} {k : α → Flow β} {b : β} (h : x.bind k = .ok b) :
    ∃ a, x = .ok a ∧ k a = .ok b := by
  cases x with
  | ok a => exact ⟨a, rfl, h⟩
  | fail e s => simp at h
  | stop f => simp at h

theorem Flow.bind_eq_fail {α β : Type} {x : Flow α} {k : α → Flow β} {e : Err} {t : State} (h : x.bind k = .fail e t) :
    x = .fail e t ∨ ∃ a, x = .ok a ∧ k a = .fail e t := by
  cases x with
  | ok a => exact .inr ⟨a, rfl, h⟩
  | fail e' s => exact .inl (by simpa using h)
  | stop f => simp at h

@[simp] theorem Flow.finish_ok (s : State) : (Flow.ok s).finish = .next (respondStatus s) := rfl

@[simp] theorem Flow.finish_fail (e : Err) (s : State) : (Flow.fail e s).finish = .next (raise e s) := rfl

@[simp] theorem Flow.finish_stop (f : Fault) : (Flow.stop f).finish = .fault f := rfl

/-- A command whose flow answers a next state succeeded or failed with an error. -/
theorem Flow.finish_eq_next {x : Flow State} {t : State} (h : x.finish = .next t) :
    (∃ s, x = .ok s ∧ t = respondStatus s) ∨ ∃ e s, x = .fail e s ∧ t = raise e s := by
  cases x with
  | ok s => exact .inl ⟨s, rfl, by simpa using h.symm⟩
  | fail e s => exact .inr ⟨e, s, rfl, by simpa using h.symm⟩
  | stop f => simp at h

/-! ## The gate -/

theorem gated_of_noError {k : State → Result} {s : State} (h : s.err = .none) : gated k s = k s := by simp [gated, h]

theorem gated_of_error {k : State → Result} {s : State} (h : s.err ≠ .none) : gated k s = .next (respondStatus s) := by
  simp [gated, h]

@[simp] theorem stickyErr_none (e : Err) : stickyErr .none e = e := rfl

theorem stickyErr_of_error {old : Err} (h : old ≠ .none) (e : Err) : stickyErr old e = old := by simp [stickyErr, h]

/-! ## FREQ -/

/-- FREQ reads what was last written (R68), and no other entry changes. -/
theorem readFreq_writeFreq (s : State) (c d : Symbol) (v : Weight) :
    readFreq (writeFreq s c v) d = if c = d then v else readFreq s d := by
  simp only [readFreq, writeFreq]
  by_cases h : c = d
  · subst h
    split
    · rename_i hv; simp [storeFind_storeErase, hv]
    · simp
  · have : c.toNat ≠ d.toNat := fun hn => h (BitVec.eq_of_toNat_eq hn)
    split <;> simp [storeFind_storeErase, storeFind_storePut, this]

theorem readFreq_of_freq_eq {s t : State} (h : t.freq = s.freq) (c : Symbol) : readFreq t c = readFreq s c := by
  simp [readFreq, h]

/-! ## NODE -/

theorem nodeAt_eq_some_iff {s : State} {i : NodeIdx} {r : NodeRec} :
    nodeAt s i = some r ↔ i.toNat < s.ncount.toNat ∧ storeFind s.node i.toNat = some r := by
  simp [nodeAt]

theorem nodeAt_lt {s : State} {i : NodeIdx} {r : NodeRec} (h : nodeAt s i = some r) : i.toNat < s.ncount.toNat :=
  (nodeAt_eq_some_iff.1 h).1

theorem nodeAt_nil (s : State) : nodeAt s Config.nil = none := by
  have := s.ncount.isLt
  simp only [nodeAt, BitVec.toNat_ofNat]
  split
  · omega
  · rfl

theorem nodeAt_ne_nil {s : State} {i : NodeIdx} {r : NodeRec} (h : nodeAt s i = some r) : i ≠ Config.nil := by
  rintro rfl
  simp [nodeAt_nil] at h

/-- NODE depends on the node memory and NCOUNT alone. -/
theorem nodeAt_congr {s t : State} (hn : t.node = s.node) (hc : t.ncount = s.ncount) (i : NodeIdx) :
    nodeAt t i = nodeAt s i := by simp [nodeAt, hn, hc]

theorem nodeAt_setNode {s : State} {i : NodeIdx} (hi : i.toNat < s.ncount.toNat) (r : NodeRec) (j : NodeIdx) :
    nodeAt (setNode s i r) j = if i = j then some r else nodeAt s j := by
  by_cases h : i = j
  · subst h; simp [nodeAt, hi]
  · have : i.toNat ≠ j.toNat := fun hn => h (BitVec.eq_of_toNat_eq hn)
    simp [nodeAt, storeFind_storePut, this, h]

theorem ncount_succ {s : State} (h : s.ncount.toNat < Config.nodeCap) : (s.ncount + 1).toNat = s.ncount.toNat + 1 := by
  have h : s.ncount.toNat < 511 := h
  rw [BitVec.toNat_add, show (1 : BitVec 9).toNat = 1 from rfl]
  omega

theorem nodeAt_pushNode {s : State} (h : s.ncount.toNat < Config.nodeCap) (r : NodeRec) (j : NodeIdx) :
    nodeAt (pushNode r s) j = if s.ncount = j then some r else nodeAt s j := by
  by_cases hj : s.ncount = j
  · subst hj
    rw [nodeAt, pushNode_ncount, ncount_succ h]
    simp
  · have hne : s.ncount.toNat ≠ j.toNat := fun hn => hj (BitVec.eq_of_toNat_eq hn)
    simp only [nodeAt, pushNode_ncount, pushNode_node, ncount_succ h, storeFind_storePut, hne, if_false, hj]
    by_cases h1 : j.toNat < s.ncount.toNat
    · simp [h1, Nat.lt_succ_of_lt h1]
    · have : ¬ j.toNat < s.ncount.toNat + 1 := by omega
      simp [h1, this]

theorem readNode_of_some {s : State} {i : NodeIdx} {r : NodeRec} (h : nodeAt s i = some r) : readNode s i = .ok r := by
  simp [readNode, h]

theorem readNode_eq_ok {s : State} {i : NodeIdx} {r : NodeRec} (h : readNode s i = .ok r) : nodeAt s i = some r := by
  unfold readNode at h
  split at h <;> simp_all

theorem readNode_ne_fail {s : State} {i : NodeIdx} {e : Err} {t : State} : readNode s i ≠ .fail e t := by
  unfold readNode
  split <;> simp

theorem allocNode_of_lt {s : State} (h : s.ncount.toNat < Config.nodeCap) (r : NodeRec) :
    allocNode r s = .ok (s.ncount, pushNode r s) := by
  unfold allocNode
  exact if_pos h

theorem allocNode_eq_ok {s : State} {r : NodeRec} {p : NodeIdx × State} (h : allocNode r s = .ok p) :
    s.ncount.toNat < Config.nodeCap ∧ p = (s.ncount, pushNode r s) := by
  unfold allocNode at h
  split at h
  · exact ⟨‹_›, by simpa using h.symm⟩
  · simp at h

theorem allocNode_ne_fail {s : State} {r : NodeRec} {e : Err} {t : State} : allocNode r s ≠ .fail e t := by
  unfold allocNode
  split <;> simp

/-! ## The canonical form of memory -/

theorem Memory.wf_reset : Memory.wf State.reset := by simp [Memory.wf, State.reset, storeRising]

/-- The canonical form depends on the two index spaces alone. -/
theorem Memory.wf_congr {s t : State} (hf : t.freq = s.freq) (hn : t.node = s.node) (h : Memory.wf s) : Memory.wf t := by
  simpa only [Memory.wf, hf, hn] using h

theorem Memory.wf_writeFreq {s : State} (h : Memory.wf s) (c : Symbol) (v : Weight) : Memory.wf (writeFreq s c v) := by
  obtain ⟨h1, h2, h3, h4⟩ := h
  refine ⟨?_, fun e he => ?_, h3, h4⟩
  · simp only [writeFreq_freq]
    split
    · exact storeRising_storeErase h1 _
    · exact storeRising_storePut h1 _ _
  · simp only [writeFreq_freq] at he
    split at he
    · exact h2 e (mem_storeErase he)
    · rcases mem_storePut he with rfl | he
      · exact ⟨c.isLt, ‹_›⟩
      · exact h2 e he

theorem Memory.wf_setNode {s : State} (h : Memory.wf s) {i : NodeIdx} (hi : i.toNat < Config.nodeCap) (r : NodeRec) :
    Memory.wf (setNode s i r) := by
  obtain ⟨h1, h2, h3, h4⟩ := h
  refine ⟨h1, h2, storeRising_storePut h3 _ _, fun e he => ?_⟩
  rcases mem_storePut he with rfl | he
  · exact hi
  · exact h4 e he

theorem Memory.wf_pushNode {s : State} (h : Memory.wf s) (hc : s.ncount.toNat < Config.nodeCap) (r : NodeRec) :
    Memory.wf (pushNode r s) :=
  Memory.wf_congr rfl rfl (Memory.wf_setNode h hc r)

theorem Memory.wf_resetState (s : State) : Memory.wf (resetState s) := by simp [Memory.wf, storeRising]

/-- In canonical form two tables with equal weights are the same list. -/
theorem freq_ext {s t : State} (hs : Memory.wf s) (ht : Memory.wf t) (h : ∀ c, readFreq s c = readFreq t c) :
    s.freq = t.freq := by
  refine storeRising_ext hs.1 ht.1 fun k => ?_
  have key : ∀ (u : State), Memory.wf u → ∀ k v, storeFind u.freq k = some v → k < 256 ∧ v ≠ 0 := by
    intro u hu k v hv
    exact hu.2.1 _ ((storeFind_eq_some_iff hu.1).1 hv)
  by_cases hk : k < 256
  · have h1 := h (BitVec.ofNat 8 k)
    simp only [readFreq, BitVec.toNat_ofNat, Nat.mod_eq_of_lt hk] at h1
    cases ha : storeFind s.freq k with
    | none =>
      cases hb : storeFind t.freq k with
      | none => rfl
      | some v => simp [ha, hb] at h1; exact absurd h1.symm (key t ht _ _ hb).2
    | some v =>
      cases hb : storeFind t.freq k with
      | none => simp [ha, hb] at h1; exact absurd h1 (key s hs _ _ ha).2
      | some w => simpa [ha, hb] using h1
  · cases ha : storeFind s.freq k with
    | none =>
      cases hb : storeFind t.freq k with
      | none => rfl
      | some v => exact absurd (key t ht _ _ hb).1 hk
    | some v => exact absurd (key s hs _ _ ha).1 hk

end Sys2Proof.Machine
end

