-- ==== Sys2Proof/Laws/BitDecode.lean ====
section
/-! SUPPORT. What DBITS can do: one lemma per function of Machine/BitDecode.lean. -/

namespace Sys2Proof.Machine

theorem moveTo_cases (c : NodeIdx) (rc : NodeRec) (s : State) :
    (rc.kind = .leaf ∧ moveTo c rc s = { s with out := s.out ++ [rc.sym], pos := s.root }) ∨
      (rc.kind ≠ .leaf ∧ moveTo c rc s = { s with pos := c }) := by
  unfold moveTo
  split
  · exact .inl ⟨‹_›, rfl⟩
  · exact .inr ⟨‹_›, rfl⟩

theorem checkBoundary_eq_ok {s t : State} (h : checkBoundary s = .ok t) :
    (s.bitcnt ≠ s.bitlen ∧ t = s) ∨ (s.bitcnt = s.bitlen ∧ s.pos = s.root ∧ t = { s with phase := .done }) := by
  unfold checkBoundary at h
  split at h
  · split at h
    · simp at h
    · exact .inr ⟨‹_›, not_not.1 ‹_›, by simpa using h.symm⟩
  · exact .inl ⟨‹_›, by simpa using h.symm⟩

theorem checkBoundary_eq_fail {s t : State} {e : Err} (h : checkBoundary s = .fail e t) :
    e = .partialSymbol ∧ s.bitcnt = s.bitlen ∧ s.pos ≠ s.root ∧ t = { s with phase := .done } := by
  unfold checkBoundary at h
  split at h
  · split at h
    · simp only [Flow.fail.injEq] at h
      exact ⟨h.1.symm, ‹_›, ‹_›, h.2.symm⟩
    · simp at h
  · simp at h

theorem checkBoundary_inside {s : State} (h : s.bitcnt ≠ s.bitlen) : checkBoundary s = .ok s := if_neg h

theorem checkBoundary_atRoot {s : State} (h : s.bitcnt = s.bitlen) (hp : s.pos = s.root) :
    checkBoundary s = .ok { s with phase := .done } := by simp [checkBoundary, h, hp]

theorem checkBoundary_partial {s : State} (h : s.bitcnt = s.bitlen) (hp : s.pos ≠ s.root) :
    checkBoundary s = .fail .partialSymbol { s with phase := .done } := by simp [checkBoundary, h, hp]

theorem checkBoundary_ne_stop {s : State} {f : Fault} : checkBoundary s ≠ .stop f := by
  unfold checkBoundary
  split
  · split <;> simp
  · simp

/-- The bit's child, when DecodeStep consumes it: it goes on, or ends inside a code (R173). -/
theorem decodeStep_consumes {b : Bool} {s : State} {r rc : NodeRec} (hr : nodeAt s s.pos = some r)
    (hc : nodeAt s (childOf r b) = some rc) :
    decodeStep b s = checkBoundary (moveTo (childOf r b) rc { s with bitcnt := s.bitcnt + 1 }) := by
  unfold decodeStep
  rw [readNode_of_some hr, Flow.bind_ok, if_neg (nodeAt_ne_nil hc), readNode_of_some hc, Flow.bind_ok]

theorem decodeStep_badPath {b : Bool} {s : State} {r : NodeRec} (hr : nodeAt s s.pos = some r)
    (hc : childOf r b = Config.nil) : decodeStep b s = .fail .badPath s := by
  unfold decodeStep
  rw [readNode_of_some hr, Flow.bind_ok, if_pos hc]

theorem decodeStep_eq_ok {b : Bool} {s t : State} (h : decodeStep b s = .ok t) :
    ∃ r rc, nodeAt s s.pos = some r ∧ childOf r b ≠ Config.nil ∧ nodeAt s (childOf r b) = some rc ∧
      checkBoundary (moveTo (childOf r b) rc { s with bitcnt := s.bitcnt + 1 }) = .ok t := by
  obtain ⟨r, hr, h⟩ := Flow.bind_eq_ok h
  split at h
  · simp at h
  · obtain ⟨rc, hc, h⟩ := Flow.bind_eq_ok h
    exact ⟨r, rc, readNode_eq_ok hr, ‹_›, readNode_eq_ok hc, h⟩

theorem decodeStep_eq_fail {b : Bool} {s t : State} {e : Err} (h : decodeStep b s = .fail e t) :
    ∃ r, nodeAt s s.pos = some r ∧
      ((childOf r b = Config.nil ∧ e = .badPath ∧ t = s) ∨
        ∃ rc, childOf r b ≠ Config.nil ∧ nodeAt s (childOf r b) = some rc ∧
          checkBoundary (moveTo (childOf r b) rc { s with bitcnt := s.bitcnt + 1 }) = .fail e t) := by
  rcases Flow.bind_eq_fail h with h | ⟨r, hr, h⟩
  · exact absurd h readNode_ne_fail
  · refine ⟨r, readNode_eq_ok hr, ?_⟩
    split at h
    · simp only [Flow.fail.injEq] at h
      exact .inl ⟨‹_›, h.1.symm, h.2.symm⟩
    · rcases Flow.bind_eq_fail h with h | ⟨rc, hc, h⟩
      · exact absurd h readNode_ne_fail
      · exact .inr ⟨rc, ‹_›, readNode_eq_ok hc, h⟩

@[simp] theorem decodeBits_done {bs : List Bool} {s : State} (h : s.phase = .done) : decodeBits bs s = .ok s := by
  cases bs <;> simp [decodeBits, h]

theorem decodeBits_cons {b : Bool} {bs : List Bool} {s : State} (h : s.phase ≠ .done) :
    decodeBits (b :: bs) s = (decodeStep b s).bind (decodeBits bs) := by simp [decodeBits, h]

/-- Decoding a stream is decoding its first part and then the rest (R178). -/
theorem decodeBits_append (bs cs : List Bool) (s : State) :
    decodeBits (bs ++ cs) s = (decodeBits bs s).bind (decodeBits cs) := by
  induction bs generalizing s with
  | nil => rfl
  | cons b bs ih =>
    by_cases h : s.phase = .done
    · simp [h]
    · rw [List.cons_append, decodeBits_cons h, decodeBits_cons h, Flow.bind_assoc]
      congr 1
      funext t
      exact ih t

/-- A property that one bit keeps is kept by a chunk. -/
theorem decodeBits_invariant {P : State → Prop} (hP : ∀ b s t, P s → s.phase ≠ .done → decodeStep b s = .ok t → P t)
    {bs : List Bool} {s t : State} (hs : P s) (h : decodeBits bs s = .ok t) : P t := by
  induction bs generalizing s with
  | nil => simp only [decodeBits, Flow.ok.injEq] at h; exact h ▸ hs
  | cons b bs ih =>
    by_cases hd : s.phase = .done
    · simp only [decodeBits_done hd, Flow.ok.injEq] at h; exact h ▸ hs
    · rw [decodeBits_cons hd] at h
      obtain ⟨u, hu, h⟩ := Flow.bind_eq_ok h
      exact ih (hP b s u hs hd hu) h

/-- Where a chunk fails: a first part succeeds and the next bit fails (R171, R226). -/
theorem decodeBits_eq_fail {bs : List Bool} {s t : State} {e : Err} (h : decodeBits bs s = .fail e t) :
    ∃ pre b post u, bs = pre ++ b :: post ∧ decodeBits pre s = .ok u ∧ u.phase ≠ .done ∧ decodeStep b u = .fail e t := by
  induction bs generalizing s with
  | nil => simp [decodeBits] at h
  | cons b bs ih =>
    by_cases hd : s.phase = .done
    · simp [hd] at h
    · rw [decodeBits_cons hd] at h
      rcases Flow.bind_eq_fail h with h | ⟨u, hu, h⟩
      · exact ⟨[], b, bs, s, rfl, rfl, hd, h⟩
      · obtain ⟨pre, c, post, v, rfl, h1, h2, h3⟩ := ih h
        exact ⟨b :: pre, c, post, v, rfl, by rw [decodeBits_cons hd, hu, Flow.bind_ok, h1], h2, h3⟩

end Sys2Proof.Machine
end

