-- ==== Sys2Proof/Laws/Tree.lean ====
section
/-! SUPPORT. The part of the structural invariant that speaks of the index spaces and ROOT alone, its consequences for single records, and how it passes from a state to another with the same tree. -/

namespace Sys2Proof.Safety

open Sys2Proof.Machine

/-- The invariant's part about memory, NCOUNT and ROOT. -/
structure TreeOk (s : State) : Prop where
  memory : Memory.wf s
  allocated : s.node.map Prod.fst = List.range s.ncount.toNat
  records : ∀ e ∈ s.node, RecordOk s e.1 e.2
  one_parent : ∀ k ∈ List.range s.ncount.toNat, (allChildren s).count k = if k = s.root.toNat then 0 else 1

theorem Inv.tree {s : State} (h : Inv s) : TreeOk s := ⟨h.memory, h.allocated, h.records, h.one_parent⟩

theorem TreeOk.inv {s : State} (h : TreeOk s) (hb : s.bitcnt.toNat ≤ s.bitlen.toNat) (hp : PhaseOk s) : Inv s :=
  ⟨h.memory, h.allocated, h.records, h.one_parent, hb, hp⟩

/-! ## Records by index -/

theorem TreeOk.nodeAt_iff {s : State} (h : TreeOk s) {i : NodeIdx} {r : NodeRec} :
    nodeAt s i = some r ↔ (i.toNat, r) ∈ s.node := by
  rw [nodeAt_eq_some_iff, storeFind_eq_some_iff h.memory.2.2.1]
  refine ⟨fun h => h.2, fun hm => ⟨?_, hm⟩⟩
  have : i.toNat ∈ s.node.map Prod.fst := List.mem_map.2 ⟨_, hm, rfl⟩
  simpa [h.allocated] using this

/-- An index below NCOUNT names a record (R29). -/
theorem TreeOk.exists_nodeAt {s : State} (h : TreeOk s) {i : NodeIdx} (hi : i.toNat < s.ncount.toNat) :
    ∃ r, nodeAt s i = some r := by
  have : i.toNat ∈ s.node.map Prod.fst := by simpa [h.allocated] using hi
  obtain ⟨⟨k, r⟩, hm, hk⟩ := List.mem_map.1 this
  simp only at hk
  subst hk
  exact ⟨r, h.nodeAt_iff.2 hm⟩

theorem TreeOk.record {s : State} (h : TreeOk s) {i : NodeIdx} {r : NodeRec} (hr : nodeAt s i = some r) :
    RecordOk s i.toNat r := h.records _ (h.nodeAt_iff.1 hr)

theorem TreeOk.listed {s : State} (h : TreeOk s) {e : Nat × NodeRec} (he : e ∈ s.node) :
    e.1 < s.ncount.toNat ∧ nodeAt s (BitVec.ofNat 9 e.1) = some e.2 := by
  have h1 : e.1 ∈ s.node.map Prod.fst := List.mem_map.2 ⟨_, he, rfl⟩
  have h2 : e.1 < s.ncount.toNat := by simpa [h.allocated] using h1
  have h3 : (BitVec.ofNat 9 e.1).toNat = e.1 := by
    have := s.ncount.isLt
    simp only [BitVec.toNat_ofNat]
    omega
  exact ⟨h2, h.nodeAt_iff.2 (by rw [h3]; exact he)⟩

theorem mem_childIndices {r : NodeRec} {c : Nat} :
    c ∈ childIndices r ↔ ∃ b, childOf r b ≠ Config.nil ∧ (childOf r b).toNat = c := by
  simp only [childIndices, List.mem_map, List.mem_filter, List.mem_cons, List.not_mem_nil, or_false, bne_iff_ne]
  constructor
  · rintro ⟨x, ⟨rfl | rfl, hx⟩, rfl⟩
    · exact ⟨false, by simpa [childOf] using hx, by simp [childOf]⟩
    · exact ⟨true, by simpa [childOf] using hx, by simp [childOf]⟩
  · rintro ⟨b, hb, rfl⟩
    cases b
    · exact ⟨r.c0, ⟨.inl rfl, by simpa [childOf] using hb⟩, by simp [childOf]⟩
    · exact ⟨r.c1, ⟨.inr rfl, by simpa [childOf] using hb⟩, by simp [childOf]⟩

theorem TreeOk.node_nil {s : State} (h : TreeOk s) (hc : s.ncount = 0) : s.node = [] := by
  have := h.allocated
  simpa [hc] using this

theorem TreeOk.keys_lt {s : State} (h : TreeOk s) : ∀ e ∈ s.node, e.1 < s.ncount.toNat := fun _ he => (h.listed he).1

theorem TreeOk.child_lt {s : State} (h : TreeOk s) : ∀ c ∈ allChildren s, c < s.ncount.toNat := by
  intro c hc
  obtain ⟨e, he, hc⟩ := List.mem_flatMap.1 hc
  exact ((h.records e he).child_order c hc).1

/-- A child that is not NIL names an allocated record (R33, R63). -/
theorem TreeOk.child_allocated {s : State} (h : TreeOk s) {i : NodeIdx} {r : NodeRec} (hr : nodeAt s i = some r) {b : Bool}
    (hc : childOf r b ≠ Config.nil) : ∃ rc, nodeAt s (childOf r b) = some rc :=
  h.exists_nodeAt ((h.record hr).child_order _ (mem_childIndices.2 ⟨b, hc, rfl⟩)).1

/-- ROOT is no record's child (R33). -/
theorem TreeOk.child_ne_root {s : State} (h : TreeOk s) {i : NodeIdx} {r : NodeRec} (hr : nodeAt s i = some r) {b : Bool}
    (hc : childOf r b ≠ Config.nil) : childOf r b ≠ s.root := by
  intro he
  have hm : (childOf r b).toNat ∈ allChildren s :=
    List.mem_flatMap.2 ⟨_, h.nodeAt_iff.1 hr, mem_childIndices.2 ⟨b, hc, rfl⟩⟩
  have hlt := h.child_lt _ hm
  have := h.one_parent _ (List.mem_range.2 hlt)
  rw [if_pos (by rw [he])] at this
  exact (List.count_eq_zero.1 this) hm

/-- A LEAF has no child (R30). -/
theorem TreeOk.leaf_child {s : State} (h : TreeOk s) {i : NodeIdx} {r : NodeRec} (hr : nodeAt s i = some r)
    (hk : r.kind = .leaf) (b : Bool) : childOf r b = Config.nil := by
  have := (h.record hr).leaf_no_child hk
  cases b <;> simp [childOf, this.1, this.2]

theorem isInternal_iff {s : State} {i : NodeIdx} : isInternal s i ↔ ∃ r, nodeAt s i = some r ∧ r.kind = .internal := by
  cases h : nodeAt s i <;> simp [isInternal, h]

theorem isLeafOf_iff {s : State} {i : NodeIdx} {c : Symbol} :
    isLeafOf s i c ↔ ∃ r, nodeAt s i = some r ∧ r.kind = .leaf ∧ r.sym = c := by
  cases h : nodeAt s i <;> simp [isLeafOf, h]

theorem kind_ne_leaf {r : NodeRec} : r.kind ≠ .leaf ↔ r.kind = .internal := by
  cases r.kind <;> simp

/-! ## States with the same tree -/

theorem weightAt_congr {s t : State} (hn : t.node = s.node) (hc : t.ncount = s.ncount) (i : NodeIdx) :
    weightAt t i = weightAt s i := by simp [weightAt, nodeAt_congr hn hc]

theorem isInternal_congr {s t : State} (hn : t.node = s.node) (hc : t.ncount = s.ncount) {i : NodeIdx} :
    isInternal t i ↔ isInternal s i := by simp [isInternal, nodeAt_congr hn hc]

theorem follow_congr {s t : State} (hn : t.node = s.node) (hc : t.ncount = s.ncount) (i : NodeIdx) (bs : List Bool) :
    follow t i bs = follow s i bs := by
  induction bs generalizing i with
  | nil => rfl
  | cons b bs ih =>
    simp only [follow, nodeAt_congr hn hc]
    split
    · split
      · rfl
      · exact ih _
    · rfl

theorem RecordOk.congr {s t : State} (hn : t.node = s.node) (hc : t.ncount = s.ncount) (hr : t.root = s.root) {i : Nat}
    {r : NodeRec} (h : RecordOk s i r) : RecordOk t i r where
  leaf_no_child := h.leaf_no_child
  internal_sym := h.internal_sym
  internal_weight := by simpa only [weightAt_congr hn hc] using h.internal_weight
  recon_weight := by simpa only [hr] using h.recon_weight
  child_order := by simpa only [hc, hr] using h.child_order

theorem TreeOk.congr {s t : State} (hf : t.freq = s.freq) (hn : t.node = s.node) (hc : t.ncount = s.ncount)
    (hr : t.root = s.root) (h : TreeOk s) : TreeOk t where
  memory := Memory.wf_congr hf hn h.memory
  allocated := by rw [hn, hc]; exact h.allocated
  records := by
    rw [hn]
    exact fun e he => (h.records e he).congr hn hc hr
  one_parent := by
    rw [hc, hr]
    simpa only [allChildren, hn] using h.one_parent

/-- PHASE, ROOT, NCOUNT, NODE, WALK, POS, BITLEN, BITCNT and ERR are all that the registers' part of the invariant reads;
an ERR may change from none. -/
theorem PhaseOk.congr {s t : State} (hp : t.phase = s.phase) (hn : t.node = s.node) (hc : t.ncount = s.ncount)
    (hr : t.root = s.root) (hw : t.walk = s.walk) (hpos : t.pos = s.pos) (hl : t.bitlen = s.bitlen)
    (hb : t.bitcnt = s.bitcnt) (he : t.err = s.err ∨ s.err = .none) (h : PhaseOk s) : PhaseOk t := by
  unfold PhaseOk at *
  rw [hp]
  split <;> rename_i hph <;> simp only [hph] at h
  · simpa only [hc, hr, hw, hpos, hl, hb] using h
  · simpa only [hr, hw, hpos, hl, hb, isInternal, nodeAt_congr hn hc] using h
  · simpa only [hc, hr, hw, hpos, hl, hb, isInternal, nodeAt_congr hn hc] using h
  · simpa only [walkClosed, hr, hw, hpos, hl, hb, isInternal, nodeAt_congr hn hc] using h
  · simp only [walkClosed, hr, hw, hpos, hl, hb, isInternal, nodeAt_congr hn hc] at h ⊢
    refine ⟨h.1, h.2.1, h.2.2.1, h.2.2.2.1, fun hne => ?_⟩
    have h5 := h.2.2.2.2 hne
    rcases he with he | he
    · rw [he]; exact h5
    · rw [he] at h5; exact absurd h5 (by simp)

/-- A state that differs from a sound one in ERR (from none), RESP, OUT and the host's words alone is sound. -/
theorem Inv.congr {s t : State} (hp : t.phase = s.phase) (hf : t.freq = s.freq) (hn : t.node = s.node)
    (hc : t.ncount = s.ncount) (hr : t.root = s.root) (hw : t.walk = s.walk) (hpos : t.pos = s.pos)
    (hl : t.bitlen = s.bitlen) (hb : t.bitcnt = s.bitcnt) (he : t.err = s.err ∨ s.err = .none) (h : Inv s) : Inv t :=
  (h.tree.congr hf hn hc hr).inv (by rw [hl, hb]; exact h.bits) (h.phase_ok.congr hp hn hc hr hw hpos hl hb he)

theorem Inv.respond {s : State} (h : Inv s) (v : Word) : Inv (respond v s) :=
  Inv.congr (s := s) rfl rfl rfl rfl rfl rfl rfl rfl rfl (.inl rfl) h

theorem Inv.respondStatus {s : State} (h : Inv s) : Inv (respondStatus s) := h.respond _

/-- Raising an error keeps the invariant. -/
theorem Inv.raise {s : State} (h : Inv s) (e : Err) : Inv (raise e s) := by
  refine Inv.congr (s := s) rfl rfl rfl rfl rfl rfl rfl rfl rfl ?_ h
  by_cases he : s.err = .none
  · exact .inr he
  · exact .inl (stickyErr_of_error he e)

theorem Inv.takeCommand {s : State} (h : Inv s) (ws : List Word) : Inv { s with input := ws } :=
  Inv.congr (s := s) rfl rfl rfl rfl rfl rfl rfl rfl rfl (.inl rfl) h

/-- The reset state is sound, and so is what CLR leaves. -/
theorem inv_resetState (s : State) : Inv (resetState s) where
  memory := Memory.wf_resetState s
  allocated := rfl
  records := by simp
  one_parent := by simp [allChildren]
  bits := by simp
  phase_ok := by simp [PhaseOk]

/-! ## Paths -/

theorem follow_append (s : State) (i : NodeIdx) (bs cs : List Bool) :
    follow s i (bs ++ cs) = (follow s i bs).bind fun j => follow s j cs := by
  induction bs generalizing i with
  | nil => rfl
  | cons b bs ih =>
    simp only [List.cons_append, follow]
    split
    · split
      · rfl
      · exact ih _
    · rfl

/-- No path leads out of a LEAF. -/
theorem TreeOk.follow_leaf {s : State} (h : TreeOk s) {i : NodeIdx} {r : NodeRec} (hr : nodeAt s i = some r)
    (hk : r.kind = .leaf) {b : Bool} {bs : List Bool} : follow s i (b :: bs) = none := by
  simp [follow, hr, h.leaf_child hr hk]

end Sys2Proof.Safety
end

