-- ==== Sys2Proof/Laws/TreeBuild.lean ====
section
/-! SUPPORT. What BUILD can do: the table's symbols, the queue's order, the leaves, one merge, the loop, and the whole command on a sound IDLE state. -/

namespace Sys2Proof.Safety

open Sys2Proof.Machine

/-! ## The symbols of the table -/

theorem allSymbols_toNat : allSymbols.map BitVec.toNat = List.range 256 := by
  rw [allSymbols, List.map_map]
  conv_rhs => rw [← List.map_id (List.range 256)]
  refine List.map_congr_left fun k hk => ?_
  have : k < 256 := List.mem_range.1 hk
  simp only [Function.comp_apply, BitVec.toNat_ofNat, id]
  omega

theorem mem_allSymbols (c : Symbol) : c ∈ allSymbols :=
  List.mem_map.2 ⟨c.toNat, List.mem_range.2 c.isLt, by simp⟩

theorem allSymbols_rising : allSymbols.Pairwise fun c d => c.toNat < d.toNat := by
  have : (allSymbols.map BitVec.toNat).Pairwise (· < ·) := by rw [allSymbols_toNat]; exact List.pairwise_lt_range
  exact List.pairwise_map.1 this

/-- A symbol is in the table exactly when its weight is not 0 (R34). -/
theorem mem_tableSymbols {s : State} {c : Symbol} : c ∈ tableSymbols s ↔ readFreq s c ≠ 0 := by
  simp [tableSymbols, mem_allSymbols]

/-- The table's symbols are listed in ascending order (R131). -/
theorem tableSymbols_rising (s : State) : (tableSymbols s).Pairwise fun c d => c.toNat < d.toNat :=
  allSymbols_rising.filter _

theorem tableSymbols_length_le (s : State) : (tableSymbols s).length ≤ 256 := by
  refine le_trans (List.length_filter_le _ _) ?_
  simp [allSymbols]

theorem tableSymbols_congr {s t : State} (h : ∀ c, readFreq t c = readFreq s c) : tableSymbols t = tableSymbols s := by
  simp [tableSymbols, h]

theorem totalWeight_congr {s t : State} (h : ∀ c, readFreq t c = readFreq s c) : totalWeight t = totalWeight s := by
  simp [totalWeight, h]

/-- The symbols outside the table add nothing to the total. -/
theorem totalWeight_eq (s : State) : totalWeight s = ((tableSymbols s).map fun c => (readFreq s c).toNat).sum := by
  have : ∀ l : List Symbol, (l.map fun c => (readFreq s c).toNat).sum =
      ((l.filter fun c => readFreq s c != 0).map fun c => (readFreq s c).toNat).sum := by
    intro l
    induction l with
    | nil => rfl
    | cons c l ih =>
      by_cases hc : readFreq s c = 0
      · rw [List.map_cons, List.sum_cons, ih, List.filter_cons_of_neg (by simpa using hc), hc]
        simp
      · rw [List.map_cons, List.sum_cons, ih, List.filter_cons_of_pos (by simpa using hc), List.map_cons, List.sum_cons]
  exact this _

/-! ## The order of pops (R132) -/

/-- The key of a pop: the weight, then the index. -/
theorem popsBefore_iff {s : State} {i j : NodeIdx} :
    popsBefore s i j = true ↔
      queueWeight s i < queueWeight s j ∨ (queueWeight s i = queueWeight s j ∧ i.toNat < j.toNat) := by
  simp [popsBefore]

theorem firstToPop_mem (s : State) (m : NodeIdx) (q : List NodeIdx) : firstToPop s m q ∈ m :: q := by
  induction q generalizing m with
  | nil => simp [firstToPop]
  | cons i q ih =>
    simp only [firstToPop]
    split
    · exact List.mem_cons_of_mem _ (ih i)
    · rcases List.mem_cons.1 (ih m) with h | h
      · rw [h]; exact List.mem_cons_self
      · exact List.mem_cons_of_mem _ (List.mem_cons_of_mem _ h)

/-- Nothing among them pops before the first to pop. -/
theorem firstToPop_least (s : State) (m : NodeIdx) (q : List NodeIdx) :
    ∀ j ∈ m :: q, popsBefore s j (firstToPop s m q) = false := by
  induction q generalizing m with
  | nil =>
    intro j hj
    rw [List.mem_singleton] at hj
    subst hj
    simp [firstToPop, popsBefore]
  | cons i q ih =>
    have key : ∀ a b c : NodeIdx, popsBefore s b c = false → popsBefore s a b = false → popsBefore s a c = false := by
      intro a b c h1 h2
      rw [← Bool.not_eq_true, popsBefore_iff] at *
      omega
    intro j hj
    simp only [firstToPop]
    split
    · rename_i hb
      have hi := ih i
      rcases List.mem_cons.1 hj with rfl | hj
      · refine key _ _ _ (hi i List.mem_cons_self) ?_
        rw [popsBefore_iff] at hb
        rw [← Bool.not_eq_true, popsBefore_iff]
        omega
      · exact hi j hj
    · rename_i hb
      have hm := ih m
      rcases List.mem_cons.1 hj with rfl | hj
      · exact hm j List.mem_cons_self
      · rcases List.mem_cons.1 hj with rfl | hj
        · exact key _ _ _ (hm m List.mem_cons_self) (by simpa using hb)
        · exact hm j (List.mem_cons_of_mem _ hj)

/-- What PopMin answers (R132). -/
theorem popMin_eq_some {s : State} {q q' : List NodeIdx} {a : NodeIdx} (h : popMin s q = some (a, q')) :
    a ∈ q ∧ q' = q.erase a ∧ ∀ j ∈ q, popsBefore s j a = false := by
  cases q with
  | nil => simp [popMin] at h
  | cons i q =>
    simp only [popMin, Option.some.injEq, Prod.mk.injEq] at h
    obtain ⟨rfl, rfl⟩ := h
    exact ⟨firstToPop_mem s i q, rfl, firstToPop_least s i q⟩

theorem popMin_of_ne_nil {s : State} {q : List NodeIdx} (h : q ≠ []) : ∃ a q', popMin s q = some (a, q') := by
  cases q with
  | nil => exact absurd rfl h
  | cons i q => exact ⟨_, _, rfl⟩

theorem queueWeight_eq (s : State) (i : NodeIdx) : queueWeight s i = weightAt s i := rfl

/-! ## The leaves (R131) -/

/-- The records BUILD allocates for a list of symbols from index `k` on. -/
def leafEntries (s : State) : Nat → List Symbol → List (Nat × NodeRec)
  | _, [] => []
  | k, c :: cs => (k, leafRec c (readFreq s c)) :: leafEntries s (k + 1) cs

theorem leafEntries_keys (s : State) (k : Nat) (cs : List Symbol) :
    (leafEntries s k cs).map Prod.fst = List.range' k cs.length := by
  induction cs generalizing k with
  | nil => rfl
  | cons c cs ih => simp [leafEntries, ih, List.range'_succ]

theorem leafEntries_congr {s t : State} (h : t.freq = s.freq) (k : Nat) (cs : List Symbol) :
    leafEntries t k cs = leafEntries s k cs := by
  induction cs generalizing k with
  | nil => rfl
  | cons c cs ih => simp [leafEntries, ih, readFreq_of_freq_eq h]

theorem mem_leafEntries {s : State} {k : Nat} {cs : List Symbol} {e : Nat × NodeRec} :
    e ∈ leafEntries s k cs ↔ ∃ j c, cs[j]? = some c ∧ e = (k + j, leafRec c (readFreq s c)) := by
  induction cs generalizing k with
  | nil => simp [leafEntries]
  | cons c cs ih =>
    simp only [leafEntries, List.mem_cons, ih]
    constructor
    · rintro (rfl | ⟨j, d, hd, rfl⟩)
      · exact ⟨0, c, rfl, rfl⟩
      · exact ⟨j + 1, d, by simpa using hd, by simp only [Prod.mk.injEq, and_true]; omega⟩
    · rintro ⟨j, d, hd, rfl⟩
      cases j with
      | zero => left; simp at hd; simp [hd]
      | succ j => right; exact ⟨j, d, by simpa using hd, by simp only [Prod.mk.injEq, and_true]; omega⟩

/-- The leaves are appended to the node memory. -/
theorem allocLeaves_spec {cs : List Symbol} {s : State} (hk : ∀ e ∈ s.node, e.1 < s.ncount.toNat)
    (hc : s.ncount.toNat + cs.length ≤ Config.nodeCap) :
    ∃ t, allocLeaves cs s = .ok t ∧ t.ncount.toNat = s.ncount.toNat + cs.length ∧
      t.node = s.node ++ leafEntries s s.ncount.toNat cs ∧ t = { s with node := t.node, ncount := t.ncount } := by
  induction cs generalizing s with
  | nil => exact ⟨s, rfl, by simp, by simp [leafEntries], rfl⟩
  | cons c cs ih =>
    have hlt : s.ncount.toNat < Config.nodeCap := by simp at hc; omega
    have hsucc := ncount_succ hlt
    have hput : (pushNode (leafRec c (readFreq s c)) s).node = s.node ++ [(s.ncount.toNat, leafRec c (readFreq s c))] := by
      rw [pushNode_node, storePut_append hk]
    obtain ⟨t, ht, h1, h2, h3⟩ := ih (s := pushNode (leafRec c (readFreq s c)) s)
      (by
        rw [hput, pushNode_ncount, hsucc]
        intro e he
        rcases List.mem_append.1 he with he | he
        · exact Nat.lt_succ_of_lt (hk e he)
        · rw [List.mem_singleton] at he; subst he; exact Nat.lt_succ_self _)
      (by rw [pushNode_ncount, hsucc]; simp at hc; omega)
    rw [pushNode_ncount, hsucc] at h1 h2
    refine ⟨t, by rw [allocLeaves, allocNode_of_lt hlt]; exact ht, by rw [h1]; simp; omega, ?_, ?_⟩
    · rw [h2, hput, leafEntries_congr (s := s) (t := pushNode (leafRec c (readFreq s c)) s) rfl, List.append_assoc]
      rfl
    · rw [h3]
      rfl

/-! ## The merge loop -/

/-- The record at `k` merges the two that pop first of those queued when it is allocated (R130, R132, R136). -/
def TookTwoLeast (s : State) (k : Nat) (r : NodeRec) : Prop :=
  queuedAt s k r.c0.toNat ∧ queuedAt s k r.c1.toNat ∧ popsFirst s r.c0 r.c1 ∧
    ∀ j : NodeIdx, queuedAt s k j.toNat → j = r.c0 ∨ j = r.c1 ∨ popsFirst s r.c1 j

/-- A later record does not change what an earlier merge took. -/
theorem TookTwoLeast.later {s t : State} {k : Nat} {r q : NodeRec} (hn : t.node = s.node ++ [(s.ncount.toNat, q)])
    (hk : k < s.ncount.toNat) (hw : ∀ i : NodeIdx, i.toNat < s.ncount.toNat → weightAt t i = weightAt s i)
    (h : TookTwoLeast s k r) : TookTwoLeast t k r := by
  have hq : ∀ j, queuedAt t k j ↔ queuedAt s k j := by
    intro j
    unfold queuedAt
    rw [hn]
    refine and_congr_right fun _ => ⟨fun h e he hlt => h e (List.mem_append_left _ he) hlt, fun h e he hlt => ?_⟩
    rcases List.mem_append.1 he with he | he
    · exact h e he hlt
    · rw [List.mem_singleton] at he
      subst he
      simp only at hlt
      omega
  have hp : ∀ i j : NodeIdx, i.toNat < k → j.toNat < k → (popsFirst t i j ↔ popsFirst s i j) := by
    intro i j hi hj
    unfold popsFirst
    rw [hw i (by omega), hw j (by omega)]
  obtain ⟨h0, h1, h2, h3⟩ := h
  refine ⟨(hq _).2 h0, (hq _).2 h1, (hp _ _ h0.1 h1.1).2 h2, fun j hj => ?_⟩
  have hj' := (hq _).1 hj
  exact (h3 j hj').imp_right fun h => h.imp_right fun h => (hp _ _ h1.1 hj'.1).2 h

/-- What holds between two merges of a table of `n` symbols, total weight `w`, that started from `s0` (R130-R138). -/
structure MergeOk (s0 : State) (n w : Nat) (q : List NodeIdx) (s : State) : Prop where
  frame : s = { s0 with node := s.node, ncount := s.ncount }
  memory : Memory.wf s
  allocated : s.node.map Prod.fst = List.range s.ncount.toNat
  count : s.ncount.toNat + q.length = 2 * n
  leaves : ∀ e ∈ s.node, e.1 < n → e.2.kind = .leaf ∧ e.2.c0 = Config.nil ∧ e.2.c1 = Config.nil
  inner : ∀ e ∈ s.node, n ≤ e.1 → e.2.kind = .internal ∧ e.2.sym = 0 ∧ e.2.c0 ≠ Config.nil ∧ e.2.c1 ≠ Config.nil ∧
    e.2.c0.toNat < e.1 ∧ e.2.c1.toNat < e.1 ∧ e.2.weight.toNat = weightAt s e.2.c0 + weightAt s e.2.c1
  one_parent : ∀ k ∈ List.range s.ncount.toNat, (allChildren s).count k = if k ∈ q.map BitVec.toNat then 0 else 1
  nodup : q.Nodup
  queued : ∀ i ∈ q, i.toNat < s.ncount.toNat
  last : n < s.ncount.toNat → ∃ i ∈ q, i.toNat + 1 = s.ncount.toNat
  total : (q.map (weightAt s)).sum = w
  leaf_entries : leafEntries s0 0 (tableSymbols s0) <+: s.node
  greedy : ∀ e ∈ s.node, n ≤ e.1 → TookTwoLeast s e.1 e.2

theorem exists_node_of_keys {s : State} (hm : Memory.wf s) (ha : s.node.map Prod.fst = List.range s.ncount.toNat)
    {i : NodeIdx} (hi : i.toNat < s.ncount.toNat) : ∃ r, nodeAt s i = some r ∧ (i.toNat, r) ∈ s.node := by
  have : i.toNat ∈ s.node.map Prod.fst := by rw [ha]; exact List.mem_range.2 hi
  obtain ⟨⟨k, r⟩, he, hk⟩ := List.mem_map.1 this
  simp only at hk
  subst hk
  exact ⟨r, nodeAt_eq_some_iff.2 ⟨hi, (storeFind_eq_some_iff hm.2.2.1).2 he⟩, he⟩

theorem weightAt_pushNode {s : State} (h : s.ncount.toNat < Config.nodeCap) (r : NodeRec) (i : NodeIdx) :
    weightAt (pushNode r s) i = if s.ncount = i then r.weight.toNat else weightAt s i := by
  unfold weightAt
  rw [nodeAt_pushNode h]
  by_cases hi : s.ncount = i
  · rw [if_pos hi, if_pos hi]
  · rw [if_neg hi, if_neg hi]

theorem childIndices_internalRec {w : Weight} {a b : NodeIdx} (ha : a ≠ Config.nil) (hb : b ≠ Config.nil) :
    childIndices (internalRec w a b) = [a.toNat, b.toNat] := by
  simp [childIndices, internalRec, ha, hb]

/-- One merge of a queue of two or more: the two first to pop get a parent at the next index, which is queued (R130, R136). -/
theorem mergeOnce_spec {s0 : State} {n w : Nat} {q : List NodeIdx} {s : State} (h : MergeOk s0 n w q s) (hn : n ≤ 256)
    (hw : w ≤ Config.wmax) (hq : 2 ≤ q.length) :
    ∃ a b ra rb, a ∈ q ∧ b ∈ q.erase a ∧ nodeAt s a = some ra ∧ nodeAt s b = some rb ∧
      (∀ j ∈ q, popsBefore s j a = false) ∧ (∀ j ∈ q.erase a, popsBefore s j b = false) ∧
      (ra.weight + rb.weight).toNat = weightAt s a + weightAt s b ∧
      mergeOnce q s = .ok (((q.erase a).erase b) ++ [s.ncount], pushNode (internalRec (ra.weight + rb.weight) a b) s) ∧
      MergeOk s0 n w (((q.erase a).erase b) ++ [s.ncount]) (pushNode (internalRec (ra.weight + rb.weight) a b) s) := by
  obtain ⟨a, q1, ha⟩ := popMin_of_ne_nil (s := s) (q := q) (by rintro rfl; simp at hq)
  obtain ⟨haq, rfl, hamin⟩ := popMin_eq_some ha
  have hlen1 := List.length_erase_of_mem haq
  obtain ⟨b, q2, hb⟩ := popMin_of_ne_nil (s := s) (q := q.erase a) (by
    intro he
    rw [he] at hlen1
    simp only [List.length_nil] at hlen1
    omega)
  obtain ⟨hbq, rfl, hbmin⟩ := popMin_eq_some hb
  have hlen2 := List.length_erase_of_mem hbq
  have hbq' : b ∈ q := List.mem_of_mem_erase hbq
  have hab : b ≠ a := fun he => (h.nodup.mem_erase_iff.1 hbq).1 he
  obtain ⟨ra, hra, hra'⟩ := exists_node_of_keys h.memory h.allocated (h.queued a haq)
  obtain ⟨rb, hrb, hrb'⟩ := exists_node_of_keys h.memory h.allocated (h.queued b hbq')
  have hcap : s.ncount.toNat < Config.nodeCap := by
    have := h.count
    simp only [Config.nodeCap]
    omega
  have hsucc := ncount_succ hcap
  have hperm : q.Perm (a :: b :: (q.erase a).erase b) :=
    (List.perm_cons_erase haq).trans ((List.perm_cons_erase hbq).cons a)
  have hsum : weightAt s a + (weightAt s b + (((q.erase a).erase b).map (weightAt s)).sum) = w := by
    have := (hperm.map (weightAt s)).sum_eq
    rw [h.total] at this
    simpa using this.symm
  have hwa : weightAt s a = ra.weight.toNat := by simp [weightAt, hra]
  have hwb : weightAt s b = rb.weight.toNat := by simp [weightAt, hrb]
  have hadd : (ra.weight + rb.weight).toNat = weightAt s a + weightAt s b := by
    simp only [Config.wmax] at hw
    rw [BitVec.toNat_add, hwa, hwb]
    omega
  have hne : ∀ i ∈ q, s.ncount ≠ i := fun i hi he => absurd (h.queued i hi) (by rw [he]; exact lt_irrefl _)
  have hsub : ∀ i ∈ (q.erase a).erase b, i ∈ q := fun i hi => List.mem_of_mem_erase (List.mem_of_mem_erase hi)
  have hnil : ∀ i ∈ q, i ≠ Config.nil := by
    intro i hi he
    have h1 := h.queued i hi
    have h2 := s.ncount.isLt
    rw [he] at h1
    simp only [Config.nil, BitVec.toNat_ofNat] at h1
    omega
  have hkeys : ∀ e ∈ s.node, e.1 < s.ncount.toNat := by
    intro e he
    have : e.1 ∈ s.node.map Prod.fst := List.mem_map.2 ⟨_, he, rfl⟩
    rw [h.allocated] at this
    exact List.mem_range.1 this
  have hnode : ∀ r, (pushNode r s).node = s.node ++ [(s.ncount.toNat, r)] := fun r => by
    rw [pushNode_node, storePut_append hkeys]
  have hweight : ∀ r i, i.toNat < s.ncount.toNat → weightAt (pushNode r s) i = weightAt s i := fun r i hi => by
    rw [weightAt_pushNode hcap, if_neg]
    rintro rfl
    exact lt_irrefl _ hi
  refine ⟨a, b, ra, rb, haq, hbq, hra, hrb, hamin, hbmin, hadd, ?_, ?_⟩
  · simp only [mergeOnce, ha, hb, readNode_of_some hra, readNode_of_some hrb, Flow.bind_ok, allocNode_of_lt hcap]
  · have hn1 : n ≤ s.ncount.toNat := by
      have := h.count
      rcases Nat.lt_or_ge s.ncount.toNat n with hlt | hge
      · have hql : q.length ≤ s.ncount.toNat := by
          have hnd : (q.map BitVec.toNat).Nodup := h.nodup.map fun x y hxy => BitVec.eq_of_toNat_eq hxy
          have := List.Subperm.length_le (List.subperm_of_subset hnd (l₂ := List.range s.ncount.toNat) (by
            intro k hk
            obtain ⟨i, hi, rfl⟩ := List.mem_map.1 hk
            exact List.mem_range.2 (h.queued i hi)))
          simpa using this
        omega
      · exact hge
    refine ⟨?_, Memory.wf_pushNode h.memory hcap _, ?_, ?_, ?_, ?_, ?_, ?_, ?_, ?_, ?_, ?_, ?_⟩
    · conv_lhs => rw [h.frame]
      have := h.frame
      rw [this]
      rfl
    · rw [hnode, pushNode_ncount, hsucc, List.map_append, h.allocated, List.range_succ]
      rfl
    · rw [pushNode_ncount, hsucc]
      have := h.count
      simp only [List.length_append, List.length_singleton]
      omega
    · rw [hnode]
      intro e he hlt
      rcases List.mem_append.1 he with he | he
      · exact h.leaves e he hlt
      · rw [List.mem_singleton] at he
        subst he
        exact absurd hlt (by simpa using hn1)
    · rw [hnode]
      intro e he hge
      rcases List.mem_append.1 he with he | he
      · obtain ⟨h1, h2, h3, h4, h5, h6, h7⟩ := h.inner e he hge
        have := hkeys e he
        exact ⟨h1, h2, h3, h4, h5, h6, by rw [h7, hweight _ _ (by omega), hweight _ _ (by omega)]⟩
      · rw [List.mem_singleton] at he
        subst he
        exact ⟨rfl, rfl, hnil a haq, hnil b hbq', h.queued a haq, h.queued b hbq', by
          simp only [internalRec]
          rw [hadd, hweight _ _ (h.queued a haq), hweight _ _ (h.queued b hbq')]⟩
    · intro k hk
      rw [pushNode_ncount, hsucc, List.mem_range] at hk
      have hcnt : (allChildren (pushNode (internalRec (ra.weight + rb.weight) a b) s)).count k =
          (allChildren s).count k + ((if a.toNat = k then 1 else 0) + if b.toNat = k then 1 else 0) := by
        rw [allChildren, hnode, List.flatMap_append, List.count_append]
        simp only [List.flatMap_cons, List.flatMap_nil, List.append_nil,
          childIndices_internalRec (hnil a haq) (hnil b hbq')]
        simp only [List.count_cons, List.count_nil, beq_iff_eq]
        rw [allChildren]
        omega
      rw [hcnt]
      have hmemq : ∀ i : NodeIdx, i.toNat = k → (k ∈ q.map BitVec.toNat ↔ i ∈ q) := by
        intro i hi
        constructor
        · intro hm
          obtain ⟨j, hj, hjk⟩ := List.mem_map.1 hm
          rw [← BitVec.eq_of_toNat_eq (hjk.trans hi.symm)]
          exact hj
        · exact fun hm => List.mem_map.2 ⟨i, hm, hi⟩
      have hmem2 : k ∈ (((q.erase a).erase b) ++ [s.ncount]).map BitVec.toNat ↔
          (k ∈ q.map BitVec.toNat ∧ a.toNat ≠ k ∧ b.toNat ≠ k) ∨ s.ncount.toNat = k := by
        rw [List.map_append, List.mem_append]
        simp only [List.map_cons, List.map_nil, List.mem_singleton]
        refine or_congr ?_ eq_comm
        constructor
        · intro hm
          obtain ⟨i, hi, rfl⟩ := List.mem_map.1 hm
          have hb2 := (h.nodup.erase a).mem_erase_iff.1 hi
          have ha2 := h.nodup.mem_erase_iff.1 hb2.2
          exact ⟨List.mem_map.2 ⟨i, ha2.2, rfl⟩, fun hx => ha2.1 (BitVec.eq_of_toNat_eq hx.symm),
            fun hx => hb2.1 (BitVec.eq_of_toNat_eq hx.symm)⟩
        · rintro ⟨hm, h1, h2⟩
          obtain ⟨i, hi, rfl⟩ := List.mem_map.1 hm
          exact List.mem_map.2 ⟨i, (h.nodup.erase a).mem_erase_iff.2 ⟨fun hx => h2 (by rw [hx]),
            h.nodup.mem_erase_iff.2 ⟨fun hx => h1 (by rw [hx]), hi⟩⟩, rfl⟩
      by_cases hk1 : s.ncount.toNat = k
      · have h0 : (allChildren s).count k = 0 := by
          refine List.count_eq_zero.2 fun hm => ?_
          obtain ⟨e, he, hm⟩ := List.mem_flatMap.1 hm
          have hek := hkeys e he
          rcases Nat.lt_or_ge e.1 n with hlt | hge
          · obtain ⟨-, h1, h2⟩ := h.leaves e he hlt
            simp [childIndices, h1, h2] at hm
          · obtain ⟨-, -, h3, h4, h5, h6, -⟩ := h.inner e he hge
            obtain ⟨d, -, hd⟩ := mem_childIndices.1 hm
            cases d
            · simp only [childOf, Bool.false_eq_true, if_false] at hd; omega
            · simp only [childOf, if_true] at hd; omega
        have ha' : a.toNat ≠ k := by have := h.queued a haq; omega
        have hb' : b.toNat ≠ k := by have := h.queued b hbq'; omega
        rw [if_pos (hmem2.2 (.inr hk1)), h0, if_neg ha', if_neg hb']
      · have hold := h.one_parent k (List.mem_range.2 (by omega))
        by_cases hka : a.toNat = k
        · have hkb : b.toNat ≠ k := fun hx => hab (BitVec.eq_of_toNat_eq (hx.trans hka.symm))
          rw [if_pos ((hmemq a hka).2 haq)] at hold
          rw [hold, if_pos hka, if_neg hkb, if_neg]
          rw [hmem2]
          rintro (⟨-, h1, -⟩ | h1)
          · exact h1 hka
          · exact hk1 h1
        · by_cases hkb : b.toNat = k
          · rw [if_pos ((hmemq b hkb).2 hbq')] at hold
            rw [hold, if_neg hka, if_pos hkb, if_neg]
            rw [hmem2]
            rintro (⟨-, -, h1⟩ | h1)
            · exact h1 hkb
            · exact hk1 h1
          · rw [if_neg hka, if_neg hkb, hold]
            by_cases hkq : k ∈ q.map BitVec.toNat
            · rw [if_pos hkq, if_pos (hmem2.2 (.inl ⟨hkq, hka, hkb⟩))]
            · rw [if_neg hkq, if_neg]
              rw [hmem2]
              rintro (⟨h1, -, -⟩ | h1)
              · exact hkq h1
              · exact hk1 h1
    · rw [List.nodup_append]
      refine ⟨(h.nodup.erase a).erase b, by simp, ?_⟩
      intro x hx y hy
      rw [List.mem_singleton] at hy
      subst hy
      exact fun he => hne x (hsub x hx) he.symm
    · intro i hi
      rw [pushNode_ncount, hsucc]
      rcases List.mem_append.1 hi with hi | hi
      · exact Nat.lt_succ_of_lt (h.queued i (hsub i hi))
      · rw [List.mem_singleton] at hi; subst hi; exact Nat.lt_succ_self _
    · intro _
      exact ⟨s.ncount, List.mem_append_right _ (List.mem_singleton.2 rfl), by rw [pushNode_ncount, hsucc]⟩
    · rw [List.map_append, List.sum_append]
      have h1 : ((q.erase a).erase b).map (weightAt (pushNode (internalRec (ra.weight + rb.weight) a b) s)) =
          ((q.erase a).erase b).map (weightAt s) :=
        List.map_congr_left fun i hi => hweight _ _ (h.queued i (hsub i hi))
      rw [h1]
      simp only [List.map_cons, List.map_nil, List.sum_cons, List.sum_nil, weightAt_pushNode hcap, if_true]
      simp only [internalRec, hadd]
      omega
    · rw [hnode]
      exact h.leaf_entries.trans (List.prefix_append _ _)
    · rw [hnode]
      intro e he hge
      rcases List.mem_append.1 he with he | he
      · exact (h.greedy e he hge).later (hnode _) (hkeys e he) (hweight _)
      · rw [List.mem_singleton] at he
        subst he
        have hqiff : ∀ j : NodeIdx, queuedAt (pushNode (internalRec (ra.weight + rb.weight) a b) s) s.ncount.toNat j.toNat ↔
            j ∈ q := by
          intro j
          unfold queuedAt
          rw [hnode]
          constructor
          · rintro ⟨hlt, hno⟩
            by_contra hj
            have hc := h.one_parent j.toNat (List.mem_range.2 hlt)
            rw [if_neg] at hc
            · have hm : j.toNat ∈ allChildren s := List.count_pos_iff.1 (by omega)
              obtain ⟨e, he, hm⟩ := List.mem_flatMap.1 hm
              exact hno e (List.mem_append_left _ he) (hkeys e he) hm
            · intro hm
              obtain ⟨i, hi, hij⟩ := List.mem_map.1 hm
              exact hj (BitVec.eq_of_toNat_eq hij ▸ hi)
          · intro hj
            refine ⟨h.queued j hj, fun e he hlt hm => ?_⟩
            rcases List.mem_append.1 he with he | he
            · have hc := h.one_parent j.toNat (List.mem_range.2 (h.queued j hj))
              rw [if_pos (List.mem_map.2 ⟨j, hj, rfl⟩)] at hc
              exact List.count_eq_zero.1 hc (List.mem_flatMap.2 ⟨e, he, hm⟩)
            · rw [List.mem_singleton] at he
              subst he
              exact lt_irrefl _ hlt
        have hpop : ∀ i j : NodeIdx, i ∈ q → j ∈ q → i ≠ j → popsBefore s j i = false →
            popsFirst (pushNode (internalRec (ra.weight + rb.weight) a b) s) i j := by
          intro i j hi hj hij hb
          unfold popsFirst
          rw [hweight _ _ (h.queued i hi), hweight _ _ (h.queued j hj)]
          rw [← Bool.not_eq_true, popsBefore_iff, queueWeight_eq, queueWeight_eq] at hb
          have : i.toNat ≠ j.toNat := fun hx => hij (BitVec.eq_of_toNat_eq hx)
          omega
        refine ⟨(hqiff a).2 haq, (hqiff b).2 hbq', hpop a b haq hbq' (Ne.symm hab) (hamin b hbq'), fun j hj => ?_⟩
        have hjq := (hqiff j).1 hj
        by_cases hja : j = a
        · exact .inl hja
        · by_cases hjb : j = b
          · exact .inr (.inl hjb)
          · exact .inr (.inr (hpop b j hbq' hjq (Ne.symm hjb) (hbmin j (h.nodup.mem_erase_iff.2 ⟨hja, hjq⟩))))

/-- A queue of fewer than two is left as it is. -/
theorem mergeOnce_short {q : List NodeIdx} (h : q.length ≤ 1) (s : State) : mergeOnce q s = .ok (q, s) := by
  match q, h with
  | [], _ => rfl
  | [a], _ => simp [mergeOnce, popMin, firstToPop]

/-- The loop ends with one index, the last allocated (R138). -/
theorem mergeLoop_spec {s0 : State} {n w : Nat} (hn : n ≤ 256) (hw : w ≤ Config.wmax) (k : Nat) {q : List NodeIdx}
    {s : State} (h : MergeOk s0 n w q s) (hq : 1 ≤ q.length) (hk : q.length ≤ k + 1) :
    ∃ r t, mergeLoop k q s = .ok ([r], t) ∧ MergeOk s0 n w [r] t := by
  induction k generalizing q s with
  | zero =>
    match q, hq, hk with
    | [r], _, _ => exact ⟨r, s, rfl, h⟩
  | succ k ih =>
    simp only [mergeLoop]
    by_cases h2 : 2 ≤ q.length
    · obtain ⟨a, b, ra, rb, ha, hb, -, -, -, -, -, he, hok⟩ := mergeOnce_spec h hn hw h2
      have l1 := List.length_erase_of_mem ha
      have l2 := List.length_erase_of_mem hb
      rw [he, Flow.bind_ok]
      exact ih hok (by simp) (by simp only [List.length_append, List.length_singleton]; omega)
    · rw [mergeOnce_short (by omega), Flow.bind_ok]
      exact ih h hq (by show q.length ≤ k + 1; omega)

/-! ## The whole command -/

theorem initialQueue_toNat {n : Nat} (h : n ≤ 256) : (initialQueue n).map BitVec.toNat = List.range n := by
  rw [initialQueue, List.map_map]
  conv_rhs => rw [← List.map_id (List.range n)]
  refine List.map_congr_left fun k hk => ?_
  have := List.mem_range.1 hk
  simp only [Function.comp_apply, BitVec.toNat_ofNat, id]
  omega

/-- The state after the leaves: the merge loop may start. -/
theorem mergeOk_start {s : State} (h : Inv s) (hp : s.phase = .idle) :
    ∃ t, allocLeaves (tableSymbols s) s = .ok t ∧ t.ncount.toNat = (tableSymbols s).length ∧
      t.node = leafEntries s 0 (tableSymbols s) ∧
      MergeOk s (tableSymbols s).length (totalWeight s) (initialQueue (tableSymbols s).length) t := by
  have hph := h.phase_ok
  simp only [PhaseOk, hp] at hph
  have hc0 : s.ncount.toNat = 0 := by simp [hph.2.1]
  have hnil := h.tree.node_nil hph.2.1
  have hlen := tableSymbols_length_le s
  obtain ⟨t, ht, h1, h2, h3⟩ := allocLeaves_spec (cs := tableSymbols s) (s := s) (by simp [hnil])
    (by rw [hc0]; simp only [Config.nodeCap]; omega)
  rw [hc0, Nat.zero_add] at h1
  rw [hnil, hc0, List.nil_append] at h2
  have hkeys : t.node.map Prod.fst = List.range t.ncount.toNat := by
    rw [h2, h1, leafEntries_keys, List.range_eq_range']
  have hleaf : ∀ e ∈ t.node, e.2.kind = .leaf ∧ e.2.c0 = Config.nil ∧ e.2.c1 = Config.nil := by
    rw [h2]
    intro e he
    obtain ⟨j, c, -, rfl⟩ := mem_leafEntries.1 he
    exact ⟨rfl, rfl, rfl⟩
  have hmem : Memory.wf t := by
    refine ⟨by rw [h3]; exact h.memory.1, by rw [h3]; exact h.memory.2.1, ?_, ?_⟩
    · rw [storeRising, hkeys]; exact List.pairwise_lt_range
    · intro e he
      have : e.1 ∈ t.node.map Prod.fst := List.mem_map.2 ⟨_, he, rfl⟩
      rw [hkeys, List.mem_range, h1] at this
      simp only [Config.nodeCap]
      omega
  have hqn := initialQueue_toNat hlen
  have hql : (initialQueue (tableSymbols s).length).length = (tableSymbols s).length := by simp [initialQueue]
  refine ⟨t, ht, h1, h2, h3, hmem, hkeys, by rw [h1, hql]; omega, fun e he _ => hleaf e he, ?_, ?_, ?_, ?_, ?_, ?_,
    by rw [h2], ?_⟩
  · intro e he hge
    have : e.1 ∈ t.node.map Prod.fst := List.mem_map.2 ⟨_, he, rfl⟩
    rw [hkeys, List.mem_range, h1] at this
    omega
  · intro k hk
    rw [h1] at hk
    rw [hqn, if_pos hk]
    refine List.count_eq_zero.2 fun hm => ?_
    obtain ⟨e, he, hm⟩ := List.mem_flatMap.1 hm
    obtain ⟨-, h0, h1⟩ := hleaf e he
    simp [childIndices, h0, h1] at hm
  · refine List.Nodup.of_map BitVec.toNat ?_
    rw [hqn]
    exact List.nodup_range
  · intro i hi
    have : i.toNat ∈ (initialQueue (tableSymbols s).length).map BitVec.toNat := List.mem_map.2 ⟨_, hi, rfl⟩
    rw [hqn, List.mem_range] at this
    omega
  · intro hlt
    omega
  · rw [totalWeight_eq]
    congr 1
    refine List.ext_getElem (by simp [initialQueue]) fun j hj1 hj2 => ?_
    have hj : j < (tableSymbols s).length := by simpa using hj2
    simp only [List.getElem_map, initialQueue, List.getElem_range]
    have hjn : (BitVec.ofNat 9 j).toNat = j := by simp only [BitVec.toNat_ofNat]; omega
    have : nodeAt t (BitVec.ofNat 9 j) = some (leafRec (tableSymbols s)[j] (readFreq s (tableSymbols s)[j])) := by
      refine nodeAt_eq_some_iff.2 ⟨by omega, (storeFind_eq_some_iff hmem.2.2.1).2 ?_⟩
      rw [h2, hjn, mem_leafEntries]
      exact ⟨j, _, List.getElem?_eq_getElem hj, by simp⟩
    simp [weightAt, this, leafRec]
  · intro e he hge
    have : e.1 ∈ t.node.map Prod.fst := List.mem_map.2 ⟨_, he, rfl⟩
    rw [hkeys, List.mem_range, h1] at this
    omega

/-- What BUILD leaves from a table of `n ≥ 2` symbols: the facts of R130, R131, R133 and R136-R138. -/
theorem buildTree_merged {s : State} (h : Inv s) (hp : s.phase = .idle) (hn : 2 ≤ (tableSymbols s).length)
    (hw : totalWeight s ≤ Config.wmax) :
    ∃ r t, buildTree s = .ok { t with root := r, phase := .tree } ∧
      MergeOk s (tableSymbols s).length (totalWeight s) [r] t := by
  obtain ⟨t1, ht1, -, -, hok⟩ := mergeOk_start h hp
  have hql : (initialQueue (tableSymbols s).length).length = (tableSymbols s).length := by simp [initialQueue]
  obtain ⟨r, t, ht, hr⟩ := mergeLoop_spec (tableSymbols_length_le s) hw (tableSymbols s).length hok (by omega) (by omega)
  refine ⟨r, t, ?_, hr⟩
  unfold buildTree
  simp only [ht1, Flow.bind_ok]
  split
  · rename_i c hc
    rw [hc] at hn
    simp at hn
  · rw [ht]
    rfl

end Sys2Proof.Safety
end

