-- ==== Sys2Proof/Laws/BuiltTree.lean ====
section
/-! SUPPORT. The tree that BUILD leaves meets the structural invariant, with the sizes of 41_tree_build R135 and R138. -/

namespace Sys2Proof.Safety

open Sys2Proof.Machine

/-- What the loop leaves, with its last index as ROOT. -/
def rooted (r : NodeIdx) (t : State) : State :=
  { t with root := r, phase := .tree }

/-- The sizes of a merged tree (R138). -/
theorem MergeOk.sizes {s0 : State} {n w : Nat} {r : NodeIdx} {t : State} (h : MergeOk s0 n w [r] t) (hn : 2 ≤ n) :
    t.ncount.toNat = 2 * n - 1 ∧ r.toNat = 2 * n - 2 := by
  have h1 := h.count
  simp only [List.length_singleton] at h1
  obtain ⟨i, hi, h2⟩ := h.last (by omega)
  rw [List.mem_singleton] at hi
  subst hi
  omega

theorem MergeOk.tree {s0 : State} {n w : Nat} {r : NodeIdx} {t : State} (h : MergeOk s0 n w [r] t) (hn : 2 ≤ n) :
    TreeOk (rooted r t) := by
  have hs := h.sizes hn
  have hr0 : r ≠ 0 := by
    rintro rfl
    have := hs.2
    simp only [BitVec.ofNat_eq_ofNat, BitVec.toNat_ofNat] at this
    omega
  have hkeys : ∀ e ∈ t.node, e.1 < t.ncount.toNat := by
    intro e he
    have : e.1 ∈ t.node.map Prod.fst := List.mem_map.2 ⟨_, he, rfl⟩
    rw [h.allocated] at this
    exact List.mem_range.1 this
  refine ⟨Memory.wf_congr (s := t) rfl rfl h.memory, h.allocated, fun e he => ?_, fun k hk => ?_⟩
  · have hroot : (rooted r t).root ≠ 0 := hr0
    have hlt := hkeys e he
    rcases Nat.lt_or_ge e.1 n with hl | hg
    · obtain ⟨h1, h2, h3⟩ := h.leaves e he hl
      exact ⟨fun _ => ⟨h2, h3⟩, by simp [h1], by simp [h1], fun hx => absurd hx hroot, by simp [childIndices, h2, h3]⟩
    · obtain ⟨h1, h2, h3, h4, h5, h6, h7⟩ := h.inner e he hg
      refine ⟨by simp [h1], fun _ => h2, fun _ => ?_, fun hx => absurd hx hroot, fun c hc => ?_⟩
      · rw [h7, weightAt_congr (s := t) (t := rooted r t) rfl rfl, weightAt_congr (s := t) (t := rooted r t) rfl rfl]
      · rw [if_neg hroot]
        have hc' : c < e.1 := by
          obtain ⟨d, -, rfl⟩ := mem_childIndices.1 hc
          cases d
          · exact h5
          · exact h6
        exact ⟨lt_trans hc' hlt, hc'⟩
  · have := h.one_parent k hk
    have hroot : (rooted r t).root = r := rfl
    have hchildren : allChildren (rooted r t) = allChildren t := rfl
    rw [hroot, hchildren, this]
    simp

/-- The root's weight is the total of all weights (R137). -/
theorem MergeOk.root_weight {s0 : State} {n w : Nat} {r : NodeIdx} {t : State} (h : MergeOk s0 n w [r] t) :
    weightAt (rooted r t) r = w := by
  rw [weightAt_congr (s := t) (t := rooted r t) rfl rfl]
  simpa using h.total

/-- BUILD of two symbols or more keeps the invariant. -/
theorem MergeOk.inv {s0 : State} {n w : Nat} {r : NodeIdx} {t : State} (h : MergeOk s0 n w [r] t) (hn : 2 ≤ n)
    (h0 : Inv s0) (hp : s0.phase = .idle) : Inv (rooted r t) := by
  have hph := h0.phase_ok
  simp only [PhaseOk, hp] at hph
  obtain ⟨-, -, hwalk, hpos, hl, hb⟩ := hph
  have hs := h.sizes hn
  have ht := h.tree hn
  have f1 : (rooted r t).bitcnt = 0 := by rw [rooted, h.frame]; exact hb
  have f2 : (rooted r t).bitlen = 0 := by rw [rooted, h.frame]; exact hl
  have f3 : (rooted r t).walk = Config.nil := by rw [rooted, h.frame]; exact hwalk
  have f4 : (rooted r t).pos = Config.nil := by rw [rooted, h.frame]; exact hpos
  refine ht.inv (by rw [f1, f2]) ?_
  have hphase : (rooted r t).phase = .tree := rfl
  simp only [PhaseOk, hphase]
  have hrlt : r.toNat < t.ncount.toNat := by omega
  obtain ⟨rr, hrr, hmem⟩ := exists_node_of_keys h.memory h.allocated hrlt
  refine ⟨isInternal_iff.2 ⟨rr, ?_, (h.inner _ hmem (by simp only; omega)).1⟩, ?_, f3, f4, f2, f1⟩
  · rw [← hrr]
    exact nodeAt_congr rfl rfl _
  · intro hx
    have : r.toNat = (0 : NodeIdx).toNat := by rw [← hx]; rfl
    simp only [BitVec.ofNat_eq_ofNat, BitVec.toNat_ofNat] at this
    omega

/-- The tree of a table of one symbol (R135). -/
def singleTree (s : State) (c : Symbol) : State :=
  { s with
    node := [(0, leafRec c (readFreq s c)), (1, internalRec (readFreq s c) 0 Config.nil)]
    ncount := 2
    root := 1
    phase := .tree }

theorem buildTree_single {s : State} (h : Inv s) (hp : s.phase = .idle) {c : Symbol} (hc : tableSymbols s = [c]) :
    buildTree s = .ok (singleTree s c) := by
  have hph := h.phase_ok
  simp only [PhaseOk, hp] at hph
  have hc0 := hph.2.1
  have hnil := h.tree.node_nil hc0
  have h1 : s.ncount.toNat < Config.nodeCap := by simp [hc0]
  have h2 : (pushNode (leafRec c (readFreq s c)) s).ncount.toNat < Config.nodeCap := by simp [hc0]
  unfold buildTree
  simp only [hc, allocLeaves, allocNode_of_lt h1, Flow.bind_ok, allocNode_of_lt h2]
  simp [singleTree, hc0, hnil, storePut]

theorem childIndices_single (w : Weight) : childIndices (internalRec w 0 Config.nil) = [0] := rfl

theorem singleTree_inv {s : State} (h : Inv s) (hp : s.phase = .idle) (c : Symbol) : Inv (singleTree s c) := by
  have hph := h.phase_ok
  simp only [PhaseOk, hp] at hph
  obtain ⟨-, -, hwalk, hpos, hl, hb⟩ := hph
  have hn0 : nodeAt (singleTree s c) 0 = some (leafRec c (readFreq s c)) := by simp [nodeAt, singleTree, storeFind]
  have hn1 : nodeAt (singleTree s c) 1 = some (internalRec (readFreq s c) 0 Config.nil) := by
    simp [nodeAt, singleTree, storeFind]
  have hroot : (singleTree s c).root ≠ 0 := by simp [singleTree]
  refine ⟨⟨h.memory.1, h.memory.2.1, ?_, ?_⟩, ?_, ?_, ?_, ?_, ?_⟩
  · simp [singleTree, storeRising]
  · simp [singleTree]
  · simp [singleTree, List.range_succ]
  · intro e he
    have he : e = (0, leafRec c (readFreq s c)) ∨ e = (1, internalRec (readFreq s c) 0 Config.nil) := by
      simpa [singleTree] using he
    rcases he with rfl | rfl
    · exact ⟨fun _ => ⟨rfl, rfl⟩, by simp [leafRec], by simp [leafRec], fun hx => absurd hx hroot,
        by simp [childIndices, leafRec]⟩
    · refine ⟨by simp [internalRec], fun _ => rfl, fun _ => ?_, fun hx => absurd hx hroot, ?_⟩
      · have h0 : weightAt (singleTree s c) 0 = (readFreq s c).toNat := by
          unfold weightAt
          rw [hn0]
          rfl
        have h1 : weightAt (singleTree s c) Config.nil = 0 := by simp [weightAt, nodeAt_nil]
        show (readFreq s c).toNat = weightAt (singleTree s c) 0 + weightAt (singleTree s c) Config.nil
        rw [h0, h1]
        rfl
      · intro d hd
        rw [if_neg hroot]
        rw [childIndices_single, List.mem_singleton] at hd
        subst hd
        simp [singleTree]
  · intro k hk
    have hk : k < 2 := by simpa [singleTree] using hk
    have : k = 0 ∨ k = 1 := by omega
    have hchildren : allChildren (singleTree s c) = [0] := rfl
    rw [hchildren]
    rcases this with rfl | rfl <;> rfl
  · exact h.bits
  · have hphase : (singleTree s c).phase = .tree := rfl
    simp only [PhaseOk, hphase]
    exact ⟨isInternal_iff.2 ⟨_, hn1, rfl⟩, hroot, hwalk, hpos, hl, hb⟩

/-- BUILD's work, its checks passed, succeeds and keeps the invariant (R142: it never runs out of records). -/
theorem buildTree_spec {s : State} (h : Inv s) (hp : s.phase = .idle) (hne : tableSymbols s ≠ [])
    (hw : totalWeight s ≤ Config.wmax) : ∃ t, buildTree s = .ok t ∧ Inv t := by
  match hs : tableSymbols s, hne with
  | [c], _ => exact ⟨_, buildTree_single h hp hs, singleTree_inv h hp c⟩
  | c :: d :: cs, _ =>
    have hn : 2 ≤ (tableSymbols s).length := by rw [hs]; simp
    obtain ⟨r, t, ht, hm⟩ := buildTree_merged h hp hn hw
    exact ⟨_, ht, hm.inv hn h hp⟩

/-- What a part of BUILD leaves alone. -/
theorem allocLeaves_frame {cs : List Symbol} {s t : State} (h : allocLeaves cs s = .ok t) :
    t = { s with node := t.node, ncount := t.ncount } := by
  induction cs generalizing s with
  | nil =>
    simp only [allocLeaves, Flow.ok.injEq] at h
    rw [h]
  | cons c cs ih =>
    obtain ⟨p, hp, h⟩ := Flow.bind_eq_ok h
    obtain ⟨-, rfl⟩ := allocNode_eq_ok hp
    have := ih h
    exact this

theorem mergeOnce_frame {q : List NodeIdx} {s : State} {p : List NodeIdx × State} (h : mergeOnce q s = .ok p) :
    p.2 = { s with node := p.2.node, ncount := p.2.ncount } := by
  unfold mergeOnce at h
  split at h
  · cases h; rfl
  · split at h
    · cases h; rfl
    · obtain ⟨ra, -, h⟩ := Flow.bind_eq_ok h
      obtain ⟨rb, -, h⟩ := Flow.bind_eq_ok h
      obtain ⟨u, hu, h⟩ := Flow.bind_eq_ok h
      obtain ⟨-, rfl⟩ := allocNode_eq_ok hu
      cases h
      rfl

theorem mergeLoop_frame {k : Nat} {q : List NodeIdx} {s : State} {p : List NodeIdx × State}
    (h : mergeLoop k q s = .ok p) : p.2 = { s with node := p.2.node, ncount := p.2.ncount } := by
  induction k generalizing q s with
  | zero => cases h; rfl
  | succ k ih =>
    obtain ⟨u, hu, h⟩ := Flow.bind_eq_ok h
    have h1 := ih h
    rw [mergeOnce_frame hu] at h1
    exact h1

/-- BUILD's work writes NODE, NCOUNT, ROOT and PHASE (R130). -/
theorem buildTree_frame {s t : State} (h : buildTree s = .ok t) :
    t = { s with node := t.node, ncount := t.ncount, root := t.root, phase := .tree } := by
  obtain ⟨u, hu, h⟩ := Flow.bind_eq_ok h
  have h1 := allocLeaves_frame hu
  split at h
  · obtain ⟨p, hp, h⟩ := Flow.bind_eq_ok h
    obtain ⟨-, rfl⟩ := allocNode_eq_ok hp
    cases h
    rw [h1]
    rfl
  · obtain ⟨p, hp, h⟩ := Flow.bind_eq_ok h
    have h2 := mergeLoop_frame hp
    cases h
    rw [h2, h1]

/-! ## BUILD does not look at RESP, OUT or the host's words (R139) -/

/-- The state with other values of the fields that BUILD does not read. -/
def relabelled (v : Word) (o : List Symbol) (ws : List Word) (s : State) : State :=
  { s with resp := v, out := o, input := ws }

theorem allocNode_relabelled {v : Word} {o : List Symbol} {ws : List Word} {r : NodeRec} {s : State} {p : NodeIdx × State}
    (h : allocNode r s = .ok p) : allocNode r (relabelled v o ws s) = .ok (p.1, relabelled v o ws p.2) := by
  obtain ⟨hc, rfl⟩ := allocNode_eq_ok h
  exact allocNode_of_lt (s := relabelled v o ws s) hc r

theorem allocLeaves_relabelled {v : Word} {o : List Symbol} {ws : List Word} {cs : List Symbol} {s t : State}
    (h : allocLeaves cs s = .ok t) : allocLeaves cs (relabelled v o ws s) = .ok (relabelled v o ws t) := by
  induction cs generalizing s with
  | nil =>
    simp only [allocLeaves, Flow.ok.injEq] at h ⊢
    rw [h]
  | cons c cs ih =>
    obtain ⟨p, hp, h⟩ := Flow.bind_eq_ok h
    rw [allocLeaves, readFreq_of_freq_eq (s := s) (t := relabelled v o ws s) rfl, allocNode_relabelled hp, Flow.bind_ok]
    exact ih h

theorem firstToPop_relabelled (v : Word) (o : List Symbol) (ws : List Word) (s : State) (m : NodeIdx) (q : List NodeIdx) :
    firstToPop (relabelled v o ws s) m q = firstToPop s m q := by
  induction q generalizing m with
  | nil => rfl
  | cons i q ih => exact ih _

theorem popMin_relabelled (v : Word) (o : List Symbol) (ws : List Word) (s : State) (q : List NodeIdx) :
    popMin (relabelled v o ws s) q = popMin s q := by
  cases q with
  | nil => rfl
  | cons i q => simp only [popMin, firstToPop_relabelled]

theorem mergeOnce_relabelled {v : Word} {o : List Symbol} {ws : List Word} {q : List NodeIdx} {s : State}
    {p : List NodeIdx × State} (h : mergeOnce q s = .ok p) :
    mergeOnce q (relabelled v o ws s) = .ok (p.1, relabelled v o ws p.2) := by
  unfold mergeOnce at h ⊢
  simp only [popMin_relabelled]
  cases ha : popMin s q with
  | none =>
    rw [ha] at h
    cases h
    rfl
  | some x =>
    rw [ha] at h
    simp only at h ⊢
    cases hb : popMin s x.2 with
    | none =>
      rw [hb] at h
      cases h
      rfl
    | some y =>
      rw [hb] at h
      simp only at h ⊢
      obtain ⟨ra, hra, h⟩ := Flow.bind_eq_ok h
      obtain ⟨rb, hrb, h⟩ := Flow.bind_eq_ok h
      obtain ⟨u, hu, h⟩ := Flow.bind_eq_ok h
      cases h
      rw [show readNode (relabelled v o ws s) x.1 = .ok ra from hra, Flow.bind_ok,
        show readNode (relabelled v o ws s) y.1 = .ok rb from hrb, Flow.bind_ok, allocNode_relabelled hu, Flow.bind_ok]

theorem mergeLoop_relabelled {v : Word} {o : List Symbol} {ws : List Word} {k : Nat} {q : List NodeIdx} {s : State}
    {p : List NodeIdx × State} (h : mergeLoop k q s = .ok p) :
    mergeLoop k q (relabelled v o ws s) = .ok (p.1, relabelled v o ws p.2) := by
  induction k generalizing q s with
  | zero =>
    cases h
    rfl
  | succ k ih =>
    obtain ⟨u, hu, h⟩ := Flow.bind_eq_ok h
    rw [mergeLoop, mergeOnce_relabelled hu, Flow.bind_ok]
    exact ih h

/-- BUILD's work is the same whatever RESP, OUT and the host's words are. -/
theorem buildTree_relabelled {v : Word} {o : List Symbol} {ws : List Word} {s t : State} (h : buildTree s = .ok t) :
    buildTree (relabelled v o ws s) = .ok (relabelled v o ws t) := by
  have hsyms : tableSymbols (relabelled v o ws s) = tableSymbols s := rfl
  unfold buildTree at h ⊢
  simp only [hsyms]
  obtain ⟨u, hu, h⟩ := Flow.bind_eq_ok h
  rw [allocLeaves_relabelled hu, Flow.bind_ok]
  split at h
  · obtain ⟨p, hp, h⟩ := Flow.bind_eq_ok h
    rw [readFreq_of_freq_eq (s := s) (t := relabelled v o ws s) rfl, allocNode_relabelled hp, Flow.bind_ok]
    cases h
    rfl
  · obtain ⟨p, hp, h⟩ := Flow.bind_eq_ok h
    rw [mergeLoop_relabelled hp, Flow.bind_ok]
    cases h
    rfl

theorem allocLeaves_ne_fail {cs : List Symbol} {s t : State} {e : Err} : allocLeaves cs s ≠ .fail e t := by
  induction cs generalizing s with
  | nil => simp [allocLeaves]
  | cons c cs ih =>
    intro h
    rcases Flow.bind_eq_fail h with h | ⟨_, _, h⟩
    · exact allocNode_ne_fail h
    · exact ih h

theorem mergeOnce_ne_fail {q : List NodeIdx} {s t : State} {e : Err} : mergeOnce q s ≠ .fail e t := by
  unfold mergeOnce
  split
  · simp
  · split
    · simp
    · intro h
      rcases Flow.bind_eq_fail h with h | ⟨_, _, h⟩
      · exact readNode_ne_fail h
      · rcases Flow.bind_eq_fail h with h | ⟨_, _, h⟩
        · exact readNode_ne_fail h
        · rcases Flow.bind_eq_fail h with h | ⟨_, _, h⟩
          · exact allocNode_ne_fail h
          · simp at h

theorem mergeLoop_ne_fail {k : Nat} {q : List NodeIdx} {s t : State} {e : Err} : mergeLoop k q s ≠ .fail e t := by
  induction k generalizing q s with
  | zero => simp [mergeLoop]
  | succ k ih =>
    intro h
    rcases Flow.bind_eq_fail h with h | ⟨_, _, h⟩
    · exact mergeOnce_ne_fail h
    · exact ih h

/-- Once its checks have passed BUILD raises no error (R142). -/
theorem buildTree_ne_fail {s t : State} {e : Err} : buildTree s ≠ .fail e t := by
  intro h
  rcases Flow.bind_eq_fail h with h | ⟨_, _, h⟩
  · exact allocLeaves_ne_fail h
  · split at h
    · rcases Flow.bind_eq_fail h with h | ⟨_, _, h⟩
      · exact allocNode_ne_fail h
      · simp at h
    · rcases Flow.bind_eq_fail h with h | ⟨_, _, h⟩
      · exact mergeLoop_ne_fail h
      · simp at h

end Sys2Proof.Safety
end

