-- ==== Sys2Proof/Laws/Reconstruct.lean ====
section
/-! SUPPORT. What IBITS and ILEAF can do: one lemma per function of Machine/Reconstruct.lean. -/

namespace Sys2Proof.Machine

/-- An INTERNAL record as a reconstruction creates it (R149, R151). -/
abbrev freshRec : NodeRec := internalRec 0 Config.nil Config.nil

/-- The state after a bit that creates the missing child of WALK's record `r` (R151). -/
def grown (b : Bool) (r : NodeRec) (s : State) : State :=
  { setNode (pushNode freshRec s) s.walk (withChild r b s.ncount) with walk := s.ncount }

/-- The state after StartRecon with a free record (R149). -/
def started (s : State) : State :=
  { pushNode freshRec s with root := s.ncount, walk := s.ncount, phase := .recon }

/-- The state after the walk position is marked as a leaf (R152). -/
def marked (c : Symbol) (s : State) : State :=
  { setNode s s.walk (leafRec c 0) with walk := s.root }

theorem startRecon_of_lt {s : State} (h : s.ncount.toNat < Config.nodeCap) : startRecon s = .ok (started s) := by
  rw [startRecon, allocNode_of_lt h]
  rfl

theorem startRecon_cases {s t : State} (h : startRecon s = .ok t) : s.ncount.toNat < Config.nodeCap ∧ t = started s := by
  obtain ⟨p, hp, ht⟩ := Flow.bind_eq_ok h
  obtain ⟨hc, rfl⟩ := allocNode_eq_ok hp
  cases ht
  exact ⟨hc, rfl⟩

theorem startRecon_ne_fail {s t : State} {e : Err} : startRecon s ≠ .fail e t := by
  intro h
  rcases Flow.bind_eq_fail h with h | ⟨_, _, h⟩
  · exact allocNode_ne_fail h
  · simp at h

theorem enterRecon_of_recon {s : State} (h : s.phase = .recon) : enterRecon s = .ok s := by simp [enterRecon, h]

theorem enterRecon_of_idle {s : State} (h : s.phase = .idle) : enterRecon s = startRecon s := by simp [enterRecon, h]

theorem enterRecon_ne_fail {s t : State} {e : Err} : enterRecon s ≠ .fail e t := by
  unfold enterRecon
  split
  · exact startRecon_ne_fail
  · simp

theorem enterRecon_cases {s t : State} (h : enterRecon s = .ok t) :
    (s.phase = .idle ∧ s.ncount.toNat < Config.nodeCap ∧ t = started s) ∨ (s.phase ≠ .idle ∧ t = s) := by
  unfold enterRecon at h
  split at h
  · exact .inl ⟨‹_›, startRecon_cases h⟩
  · exact .inr ⟨‹_›, by simpa using h.symm⟩

/-- Everything WalkStep can do when it goes on (R151). -/
theorem walkStep_eq_ok {b : Bool} {s t : State} (h : walkStep b s = .ok t) :
    ∃ r, nodeAt s s.walk = some r ∧ r.kind ≠ .leaf ∧
      ((childOf r b ≠ Config.nil ∧ t = { s with walk := childOf r b }) ∨
        (childOf r b = Config.nil ∧ s.ncount.toNat < Config.nodeCap ∧ t = grown b r s)) := by
  obtain ⟨r, hr, h⟩ := Flow.bind_eq_ok h
  refine ⟨r, readNode_eq_ok hr, ?_⟩
  split at h
  · simp at h
  · refine ⟨‹_›, ?_⟩
    split at h
    · exact .inl ⟨‹_›, by simpa using h.symm⟩
    · split at h
      · simp at h
      · obtain ⟨p, hp, ht⟩ := Flow.bind_eq_ok h
        obtain ⟨hc, rfl⟩ := allocNode_eq_ok hp
        cases ht
        exact .inr ⟨not_not.1 ‹_›, hc, rfl⟩

/-- Everything WalkStep can do when it raises an error: nothing is changed (R151). -/
theorem walkStep_eq_fail {b : Bool} {s t : State} {e : Err} (h : walkStep b s = .fail e t) :
    t = s ∧ ∃ r, nodeAt s s.walk = some r ∧
      ((r.kind = .leaf ∧ e = .malformedHeader) ∨
        (r.kind ≠ .leaf ∧ childOf r b = Config.nil ∧ s.ncount.toNat = Config.nodeCap ∧ e = .nodeOvf)) := by
  rcases Flow.bind_eq_fail h with h | ⟨r, hr, h⟩
  · exact absurd h readNode_ne_fail
  · split at h
    · simp only [Flow.fail.injEq] at h
      exact ⟨h.2.symm, r, readNode_eq_ok hr, .inl ⟨‹_›, h.1.symm⟩⟩
    · split at h
      · simp at h
      · split at h
        · simp only [Flow.fail.injEq] at h
          exact ⟨h.2.symm, r, readNode_eq_ok hr, .inr ⟨‹_›, not_not.1 ‹_›, ‹_›, h.1.symm⟩⟩
        · rcases Flow.bind_eq_fail h with h | ⟨_, _, h⟩
          · exact absurd h allocNode_ne_fail
          · simp at h

theorem walkStep_leaf {b : Bool} {s : State} {r : NodeRec} (hr : nodeAt s s.walk = some r) (hk : r.kind = .leaf) :
    walkStep b s = .fail .malformedHeader s := by simp [walkStep, readNode_of_some hr, hk]

theorem walkStep_child {b : Bool} {s : State} {r : NodeRec} (hr : nodeAt s s.walk = some r) (hk : r.kind = .internal)
    (hc : childOf r b ≠ Config.nil) : walkStep b s = .ok { s with walk := childOf r b } := by
  unfold walkStep
  rw [readNode_of_some hr, Flow.bind_ok, if_neg (by simp [hk]), if_pos hc]

theorem walkStep_full {b : Bool} {s : State} {r : NodeRec} (hr : nodeAt s s.walk = some r) (hk : r.kind = .internal)
    (hc : childOf r b = Config.nil) (hn : s.ncount.toNat = Config.nodeCap) : walkStep b s = .fail .nodeOvf s := by
  unfold walkStep
  rw [readNode_of_some hr, Flow.bind_ok, if_neg (by simp [hk]), if_neg (not_not.2 hc), if_pos hn]

theorem walkStep_grow {b : Bool} {s : State} {r : NodeRec} (hr : nodeAt s s.walk = some r) (hk : r.kind = .internal)
    (hc : childOf r b = Config.nil) (hn : s.ncount.toNat < Config.nodeCap) : walkStep b s = .ok (grown b r s) := by
  unfold walkStep
  rw [readNode_of_some hr, Flow.bind_ok, if_neg (by simp [hk]), if_neg (not_not.2 hc), if_neg (Nat.ne_of_lt hn),
    allocNode_of_lt hn]
  rfl

/-- The walk of a chunk is the walk of its first part and then of the rest. -/
theorem walkBits_append (bs cs : List Bool) (s : State) :
    walkBits (bs ++ cs) s = (walkBits bs s).bind (walkBits cs) := by
  induction bs generalizing s with
  | nil => rfl
  | cons b bs ih =>
    simp only [List.cons_append, walkBits, Flow.bind_assoc]
    congr 1
    funext t
    exact ih t

/-- A property that one bit keeps is kept by a chunk. -/
theorem walkBits_invariant {P : State → Prop} (hP : ∀ b s t, P s → walkStep b s = .ok t → P t) {bs : List Bool}
    {s t : State} (hs : P s) (h : walkBits bs s = .ok t) : P t := by
  induction bs generalizing s with
  | nil => simp only [walkBits, Flow.ok.injEq] at h; exact h ▸ hs
  | cons b bs ih =>
    obtain ⟨u, hu, h⟩ := Flow.bind_eq_ok h
    exact ih (hP b s u hs hu) h

/-- Where a chunk fails: a first part succeeds, the next bit fails and changes nothing (R150, R226). -/
theorem walkBits_eq_fail {bs : List Bool} {s t : State} {e : Err} (h : walkBits bs s = .fail e t) :
    ∃ pre b post, bs = pre ++ b :: post ∧ walkBits pre s = .ok t ∧ walkStep b t = .fail e t := by
  induction bs generalizing s with
  | nil => simp [walkBits] at h
  | cons b bs ih =>
    rcases Flow.bind_eq_fail h with h | ⟨u, hu, h⟩
    · have := (walkStep_eq_fail h).1
      subst this
      exact ⟨[], b, bs, rfl, rfl, h⟩
    · obtain ⟨pre, c, post, rfl, h1, h2⟩ := ih h
      exact ⟨b :: pre, c, post, rfl, by simp [walkBits, hu, h1], h2⟩

/-- A property that one bit keeps holds where a chunk fails. -/
theorem walkBits_fail_invariant {P : State → Prop} (hP : ∀ b s t, P s → walkStep b s = .ok t → P t) {bs : List Bool}
    {s t : State} {e : Err} (hs : P s) (h : walkBits bs s = .fail e t) : P t := by
  obtain ⟨pre, _, _, _, h1, _⟩ := walkBits_eq_fail h
  exact walkBits_invariant hP hs h1

/-- Everything the marking of a leaf can do when it goes on (R152). -/
theorem markLeaf_eq_ok {sym : Symbol} {s t : State} (h : markLeaf sym s = .ok t) :
    s.walk ≠ s.root ∧ ∃ r, nodeAt s s.walk = some r ∧ r.kind ≠ .leaf ∧ r.c0 = Config.nil ∧ r.c1 = Config.nil ∧
      t = marked sym s := by
  unfold markLeaf at h
  split at h
  · simp at h
  · obtain ⟨r, hr, h⟩ := Flow.bind_eq_ok h
    refine ⟨‹_›, r, readNode_eq_ok hr, ?_⟩
    split at h
    · simp at h
    · split at h
      · simp at h
      · rename_i hc
        rw [not_or, not_not, not_not] at hc
        cases h
        exact ⟨‹_›, hc.1, hc.2, rfl⟩

/-- When the marking of a leaf raises an error, it is MALFORMED_HEADER and nothing is changed (R152). -/
theorem markLeaf_eq_fail {sym : Symbol} {s t : State} {e : Err} (h : markLeaf sym s = .fail e t) :
    t = s ∧ e = .malformedHeader := by
  unfold markLeaf at h
  split at h
  · simp only [Flow.fail.injEq] at h; exact ⟨h.2.symm, h.1.symm⟩
  · rcases Flow.bind_eq_fail h with h | ⟨r, _, h⟩
    · exact absurd h readNode_ne_fail
    · split at h
      · simp only [Flow.fail.injEq] at h; exact ⟨h.2.symm, h.1.symm⟩
      · split at h
        · simp only [Flow.fail.injEq] at h; exact ⟨h.2.symm, h.1.symm⟩
        · simp at h

end Sys2Proof.Machine
end

