-- ==== Sys2Proof/Laws/Commands.lean ====
section
/-! SUPPORT. Everything each command can answer, one inversion lemma per command that passes the error gate, and what the loops of BUILD, IBITS and DBITS leave alone. -/

namespace Sys2Proof.Machine

theorem gated_eq_next {k : State → Result} {s t : State} (h : gated k s = .next t) :
    (s.err ≠ .none ∧ t = respondStatus s) ∨ (s.err = .none ∧ k s = .next t) := by
  by_cases he : s.err = .none
  · exact .inr ⟨he, by rwa [gated_of_noError he] at h⟩
  · rw [gated_of_error he] at h
    exact .inl ⟨he, by simpa using h.symm⟩

/-- Under an error every command but NOP, CLR and the reads is ignored (R222). -/
theorem exec_of_error {i : Instr} {s : State} (hg : Safety.passesGate i = false) (he : s.err ≠ .none) :
    exec i s = .next (respondStatus s) := by
  cases i <;> simp only [Safety.passesGate, Bool.true_eq_false] at hg
  all_goals simp only [exec, execSetw, execIncw, execBuild, execIbits, execIleaf, execDstart, execDbits, execDend,
    gated_of_error he]

theorem execSetw_cases {c : Symbol} {v : Weight} {s t : State} (h : execSetw c v s = .next t) :
    (s.err ≠ .none ∧ t = respondStatus s) ∨ (s.err = .none ∧
      ((s.phase ≠ .idle ∧ t = raise .sequence s) ∨ (s.phase = .idle ∧ t = respondStatus (writeFreq s c v)))) := by
  refine (gated_eq_next h).imp_right fun ⟨he, h⟩ => ⟨he, ?_⟩
  split at h
  · exact .inl ⟨‹_›, by simpa using h.symm⟩
  · exact .inr ⟨not_not.1 ‹_›, by simpa using h.symm⟩

theorem execIncw_cases {c : Symbol} {s t : State} (h : execIncw c s = .next t) :
    (s.err ≠ .none ∧ t = respondStatus s) ∨ (s.err = .none ∧
      ((s.phase ≠ .idle ∧ t = raise .sequence s) ∨
       (s.phase = .idle ∧ (readFreq s c).toNat = Config.wmax ∧ t = raise .weightOvf s) ∨
       (s.phase = .idle ∧ (readFreq s c).toNat ≠ Config.wmax ∧
          t = respondStatus (writeFreq s c (readFreq s c + 1))))) := by
  refine (gated_eq_next h).imp_right fun ⟨he, h⟩ => ⟨he, ?_⟩
  split at h
  · exact .inl ⟨‹_›, by simpa using h.symm⟩
  · refine .inr ?_
    have hp := not_not.1 ‹_›
    split at h
    · exact .inl ⟨hp, ‹_›, by simpa using h.symm⟩
    · exact .inr ⟨hp, ‹_›, by simpa using h.symm⟩

theorem execBuild_cases {s t : State} (h : execBuild s = .next t) :
    (s.err ≠ .none ∧ t = respondStatus s) ∨ (s.err = .none ∧
      ((s.phase ≠ .idle ∧ t = raise .sequence s) ∨
       (s.phase = .idle ∧ tableSymbols s = [] ∧ t = raise .emptyAlphabet s) ∨
       (s.phase = .idle ∧ tableSymbols s ≠ [] ∧ Config.wmax < totalWeight s ∧ t = raise .weightOvf s) ∨
       (s.phase = .idle ∧ tableSymbols s ≠ [] ∧ totalWeight s ≤ Config.wmax ∧
          ∃ u, buildTree s = .ok u ∧ t = respondStatus u))) := by
  refine (gated_eq_next h).imp_right fun ⟨he, h⟩ => ⟨he, ?_⟩
  split at h
  · exact .inl ⟨‹_›, by simpa using h.symm⟩
  · refine .inr ?_
    have hp := not_not.1 ‹_›
    split at h
    · exact .inl ⟨hp, ‹_›, by simpa using h.symm⟩
    · refine .inr ?_
      split at h
      · exact .inl ⟨hp, ‹_›, ‹_›, by simpa using h.symm⟩
      · rcases Flow.finish_eq_next h with ⟨u, hu, rfl⟩ | ⟨e, u, hu, -⟩
        · exact .inr ⟨hp, ‹_›, not_lt.1 ‹_›, u, hu, rfl⟩
        · exact absurd hu Safety.buildTree_ne_fail

theorem execIbits_cases {n : Nat} {p : Payload} {s t : State} (h : execIbits n p s = .next t) :
    (s.err ≠ .none ∧ t = respondStatus s) ∨ (s.err = .none ∧
      ((chunkValid n p = false ∧ t = raise .badOperand s) ∨
       (chunkValid n p = true ∧ s.phase ≠ .idle ∧ s.phase ≠ .recon ∧ t = raise .sequence s) ∨
       (chunkValid n p = true ∧ (s.phase = .idle ∨ s.phase = .recon) ∧ ∃ u, enterRecon s = .ok u ∧
          ((∃ v, walkBits (chunkBits n p) u = .ok v ∧ t = respondStatus v) ∨
           ∃ e v, walkBits (chunkBits n p) u = .fail e v ∧ t = raise e v)))) := by
  refine (gated_eq_next h).imp_right fun ⟨he, h⟩ => ⟨he, ?_⟩
  split at h
  · exact .inl ⟨‹_›, by simpa using h.symm⟩
  · refine .inr ?_
    have hv : chunkValid n p = true := by simpa using ‹¬chunkValid n p = false›
    split at h
    · exact .inl ⟨hv, (‹_ ∧ _›).1, (‹_ ∧ _›).2, by simpa using h.symm⟩
    · refine .inr ⟨hv, by rename_i hp; rwa [not_and_or, not_not, not_not] at hp, ?_⟩
      rcases Flow.finish_eq_next h with ⟨v, hf, rfl⟩ | ⟨e, v, hf, rfl⟩
      · obtain ⟨u, hu, hw⟩ := Flow.bind_eq_ok hf
        exact ⟨u, hu, .inl ⟨v, hw, rfl⟩⟩
      · rcases Flow.bind_eq_fail hf with hf | ⟨u, hu, hw⟩
        · exact absurd hf enterRecon_ne_fail
        · exact ⟨u, hu, .inr ⟨e, v, hw, rfl⟩⟩

theorem execIleaf_cases {c : Symbol} {s t : State} (h : execIleaf c s = .next t) :
    (s.err ≠ .none ∧ t = respondStatus s) ∨ (s.err = .none ∧
      ((s.phase ≠ .idle ∧ s.phase ≠ .recon ∧ t = raise .sequence s) ∨
       ((s.phase = .idle ∨ s.phase = .recon) ∧ ∃ u, enterRecon s = .ok u ∧
          ((∃ v, markLeaf c u = .ok v ∧ t = respondStatus v) ∨
           markLeaf c u = .fail .malformedHeader u ∧ t = raise .malformedHeader u)))) := by
  refine (gated_eq_next h).imp_right fun ⟨he, h⟩ => ⟨he, ?_⟩
  split at h
  · exact .inl ⟨(‹_ ∧ _›).1, (‹_ ∧ _›).2, by simpa using h.symm⟩
  · refine .inr ⟨by rename_i hp; rwa [not_and_or, not_not, not_not] at hp, ?_⟩
    rcases Flow.finish_eq_next h with ⟨v, hf, rfl⟩ | ⟨e, v, hf, rfl⟩
    · obtain ⟨u, hu, hw⟩ := Flow.bind_eq_ok hf
      exact ⟨u, hu, .inl ⟨v, hw, rfl⟩⟩
    · rcases Flow.bind_eq_fail hf with hf | ⟨u, hu, hw⟩
      · exact absurd hf enterRecon_ne_fail
      · obtain ⟨rfl, rfl⟩ := markLeaf_eq_fail hw
        exact ⟨v, hu, .inr ⟨hw, rfl⟩⟩

theorem execDstart_cases {len : BitCount} {s t : State} (h : execDstart len s = .next t) :
    (s.err ≠ .none ∧ t = respondStatus s) ∨ (s.err = .none ∧
      (((s.phase = .idle ∨ s.phase = .decode) ∧ t = raise .sequence s) ∨
       (s.phase = .recon ∧ s.walk ≠ s.root ∧ t = raise .malformedHeader s) ∨
       (s.phase ≠ .idle ∧ s.phase ≠ .decode ∧ (s.phase = .recon → s.walk = s.root) ∧ t = respondStatus { s with
          bitlen := len, bitcnt := 0, pos := s.root, phase := if len = 0 then .done else .decode }))) := by
  refine (gated_eq_next h).imp_right fun ⟨he, h⟩ => ⟨he, ?_⟩
  split at h
  · exact .inl ⟨‹_›, by simpa using h.symm⟩
  · refine .inr ?_
    have hp := not_or.1 ‹_›
    split at h
    · exact .inl ⟨(‹_ ∧ _›).1, (‹_ ∧ _›).2, by simpa using h.symm⟩
    · rename_i hn
      exact .inr ⟨hp.1, hp.2, fun hr => by_contra fun hw => hn ⟨hr, hw⟩, by simpa using h.symm⟩

theorem execDbits_cases {n : Nat} {p : Payload} {s t : State} (h : execDbits n p s = .next t) :
    (s.err ≠ .none ∧ t = respondStatus s) ∨ (s.err = .none ∧
      ((chunkValid n p = false ∧ t = raise .badOperand s) ∨
       (chunkValid n p = true ∧ s.phase ≠ .decode ∧ s.phase ≠ .done ∧ t = raise .sequence s) ∨
       (chunkValid n p = true ∧ (s.phase = .decode ∨ s.phase = .done) ∧
          ((∃ v, decodeBits (chunkBits n p) s = .ok v ∧ t = respondStatus v) ∨
           ∃ e v, decodeBits (chunkBits n p) s = .fail e v ∧ t = raise e v)))) := by
  refine (gated_eq_next h).imp_right fun ⟨he, h⟩ => ⟨he, ?_⟩
  split at h
  · exact .inl ⟨‹_›, by simpa using h.symm⟩
  · refine .inr ?_
    have hv : chunkValid n p = true := by simpa using ‹¬chunkValid n p = false›
    split at h
    · exact .inl ⟨hv, (‹_ ∧ _›).1, (‹_ ∧ _›).2, by simpa using h.symm⟩
    · refine .inr ⟨hv, by rename_i hp; rwa [not_and_or, not_not, not_not] at hp, ?_⟩
      rcases Flow.finish_eq_next h with ⟨v, hf, rfl⟩ | ⟨e, v, hf, rfl⟩
      · exact .inl ⟨v, hf, rfl⟩
      · exact .inr ⟨e, v, hf, rfl⟩

theorem execDend_cases {s t : State} (h : execDend s = .next t) :
    (s.err ≠ .none ∧ t = respondStatus s) ∨ (s.err = .none ∧
      ((s.phase ≠ .decode ∧ s.phase ≠ .done ∧ t = raise .sequence s) ∨
       (s.phase = .decode ∧ t = raise .truncatedStream s) ∨ (s.phase = .done ∧ t = respondStatus s))) := by
  refine (gated_eq_next h).imp_right fun ⟨he, h⟩ => ⟨he, ?_⟩
  split at h
  · exact .inl ⟨(‹_ ∧ _›).1, (‹_ ∧ _›).2, by simpa using h.symm⟩
  · refine .inr ?_
    split at h
    · exact .inl ⟨‹_›, by simpa using h.symm⟩
    · refine .inr ⟨?_, by simpa using h.symm⟩
      rename_i hp hd
      rw [not_and_or, not_not, not_not] at hp
      exact hp.resolve_left hd

theorem execRdreg_cases {sel : Nat} {s t : State} (h : execRdreg sel s = .next t) :
    (sel ≤ 4 ∧ ∃ v, t = respond v s) ∨ (4 < sel ∧ t = raise .badOperand s) := by
  match sel with
  | 0 | 1 | 2 | 3 | 4 => exact .inl ⟨by omega, _, by simpa [execRdreg, readReg] using h.symm⟩
  | n + 5 => exact .inr ⟨by omega, by simpa [execRdreg, readReg] using h.symm⟩

theorem execRdnode_cases {idx : NodeIdx} {s t : State} (h : execRdnode idx s = .next t) :
    (idx ≠ Config.nil ∧ ∃ v, t = respond v s) ∨ (idx = Config.nil ∧ t = raise .badOperand s) := by
  unfold execRdnode at h
  split at h
  · exact .inr ⟨‹_›, by simpa using h.symm⟩
  · refine .inl ⟨‹_›, ?_⟩
    split at h
    · exact ⟨_, by simpa using h.symm⟩
    · split at h
      · exact ⟨_, by simpa using h.symm⟩
      · simp at h

/-! ## Frames of the loops -/

theorem enterRecon_frame {s t : State} (h : enterRecon s = .ok t) :
    t = { s with phase := t.phase, root := t.root, ncount := t.ncount, walk := t.walk, node := t.node } := by
  rcases enterRecon_cases h with ⟨-, -, rfl⟩ | ⟨-, rfl⟩ <;> rfl

theorem walkStep_frame {b : Bool} {s t : State} (h : walkStep b s = .ok t) :
    t = { s with ncount := t.ncount, walk := t.walk, node := t.node } := by
  obtain ⟨r, -, -, ⟨-, rfl⟩ | ⟨-, -, rfl⟩⟩ := walkStep_eq_ok h <;> rfl

theorem walkBits_frame {bs : List Bool} {s t : State} (h : walkBits bs s = .ok t) :
    t = { s with ncount := t.ncount, walk := t.walk, node := t.node } := by
  refine walkBits_invariant (P := fun u => u = { s with ncount := u.ncount, walk := u.walk, node := u.node }) ?_ rfl h
  intro b u v hu hv
  have := walkStep_frame hv
  rw [hu] at this
  exact this

/-- A failing walk leaves what the bits before the failing bit left, and the code is one of two (R151). -/
theorem walkBits_fail_frame {bs : List Bool} {s t : State} {e : Err} (h : walkBits bs s = .fail e t) :
    t = { s with ncount := t.ncount, walk := t.walk, node := t.node } ∧ (e = .malformedHeader ∨ e = .nodeOvf) := by
  obtain ⟨pre, b, post, -, h1, h2⟩ := walkBits_eq_fail h
  obtain ⟨-, r, -, ⟨-, rfl⟩ | ⟨-, -, -, rfl⟩⟩ := walkStep_eq_fail h2
  · exact ⟨walkBits_frame h1, .inl rfl⟩
  · exact ⟨walkBits_frame h1, .inr rfl⟩

/-! ## IBITS and DBITS where they go on -/

/-- IBITS of a valid chunk in an open reconstruction (R150). -/
theorem exec_ibits_recon {s : State} {n : Nat} {p : Payload} (he : s.err = .none) (hp : s.phase = .recon)
    (hv : chunkValid n p = true) : exec (.ibits n p) s = (walkBits (chunkBits n p) s).finish := by
  simp [exec, execIbits, gated_of_noError he, hp, hv, enterRecon_of_recon hp]

/-- DBITS of a valid chunk in a decode (R171). -/
theorem exec_dbits_decode {s : State} {n : Nat} {p : Payload} (he : s.err = .none)
    (hp : s.phase = .decode ∨ s.phase = .done) (hv : chunkValid n p = true) :
    exec (.dbits n p) s = (decodeBits (chunkBits n p) s).finish := by
  simp only [exec, execDbits, gated_of_noError he, hv]
  rw [if_neg (by simp), if_neg (by rcases hp with h | h <;> simp [h])]

end Sys2Proof.Machine
end

