-- ==== Sys2Proof/Laws/DecodeTree.lean ====
section
/-! SUPPORT. The structural invariant along a decode: one bit keeps it and does not stop, and what a bit does to the position and the count. -/

namespace Sys2Proof.Safety

open Sys2Proof.Machine

/-- What DecodeStep can answer from a sound DECODE state whose bit leads to a record (R169): the five lines of the
transition table but BAD_PATH. -/
theorem decodeStep_transitions {b : Bool} {s : State} {r rc : NodeRec} (hr : nodeAt s s.pos = some r)
    (hc : nodeAt s (childOf r b) = some rc) :
    decodeStep b s =
      if rc.kind = .leaf then
        .ok { s with
          bitcnt := s.bitcnt + 1, pos := s.root, out := s.out ++ [rc.sym],
          phase := if s.bitcnt + 1 = s.bitlen then .done else s.phase }
      else if s.bitcnt + 1 = s.bitlen then
        if childOf r b = s.root then .ok { s with bitcnt := s.bitcnt + 1, pos := childOf r b, phase := .done }
        else .fail .partialSymbol { s with bitcnt := s.bitcnt + 1, pos := childOf r b, phase := .done }
      else .ok { s with bitcnt := s.bitcnt + 1, pos := childOf r b } := by
  rw [decodeStep_consumes hr hc, moveTo]
  by_cases hk : rc.kind = .leaf
  · rw [if_pos hk, if_pos hk]
    by_cases hb : s.bitcnt + 1 = s.bitlen
    · rw [if_pos hb]
      exact checkBoundary_atRoot hb rfl
    · rw [if_neg hb]
      exact checkBoundary_inside hb
  · rw [if_neg hk, if_neg hk]
    by_cases hb : s.bitcnt + 1 = s.bitlen
    · rw [if_pos hb]
      by_cases hp : childOf r b = s.root
      · rw [if_pos hp]
        exact checkBoundary_atRoot hb hp
      · rw [if_neg hp]
        exact checkBoundary_partial hb hp
    · rw [if_neg hb]
      exact checkBoundary_inside hb

theorem bitcnt_succ {s : State} (h : s.bitcnt.toNat < s.bitlen.toNat) : (s.bitcnt + 1).toNat = s.bitcnt.toNat + 1 := by
  have := s.bitlen.isLt
  rw [BitVec.toNat_add, show (1 : BitCount).toNat = 1 from rfl]
  omega

/-- What one bit does in a sound DECODE state (R169, R173). -/
theorem decodeStep_spec {b : Bool} {s : State} (h : Inv s) (hp : s.phase = .decode) :
    (∃ r, nodeAt s s.pos = some r ∧ childOf r b = Config.nil ∧ decodeStep b s = .fail .badPath s) ∨
    ∃ r rc, nodeAt s s.pos = some r ∧ childOf r b ≠ Config.nil ∧ childOf r b ≠ s.root ∧
      nodeAt s (childOf r b) = some rc ∧
      ((rc.kind = .leaf ∧ decodeStep b s = .ok { s with
          bitcnt := s.bitcnt + 1, pos := s.root, out := s.out ++ [rc.sym],
          phase := if s.bitcnt + 1 = s.bitlen then .done else .decode }) ∨
       (rc.kind = .internal ∧ s.bitcnt + 1 ≠ s.bitlen ∧
          decodeStep b s = .ok { s with bitcnt := s.bitcnt + 1, pos := childOf r b }) ∨
       (rc.kind = .internal ∧ s.bitcnt + 1 = s.bitlen ∧
          decodeStep b s = .fail .partialSymbol { s with bitcnt := s.bitcnt + 1, pos := childOf r b, phase := .done })) := by
  have hph := h.phase_ok
  simp only [PhaseOk, hp] at hph
  obtain ⟨r, hr, hk⟩ := isInternal_iff.1 hph.2.2.1
  by_cases hc : childOf r b = Config.nil
  · exact .inl ⟨r, hr, hc, decodeStep_badPath hr hc⟩
  · refine .inr ?_
    obtain ⟨rc, hrc⟩ := h.tree.child_allocated hr hc
    have hne := h.tree.child_ne_root hr hc
    have ht := decodeStep_transitions hr hrc
    refine ⟨r, rc, hr, hc, hne, hrc, ?_⟩
    by_cases hl : rc.kind = .leaf
    · exact .inl ⟨hl, by rw [ht, if_pos hl, hp]⟩
    · rw [if_neg hl] at ht
      by_cases hb : s.bitcnt + 1 = s.bitlen
      · rw [if_pos hb, if_neg hne] at ht
        exact .inr (.inr ⟨kind_ne_leaf.1 hl, hb, ht⟩)
      · rw [if_neg hb] at ht
        exact .inr (.inl ⟨kind_ne_leaf.1 hl, hb, ht⟩)

/-- A bit that is consumed and raises nothing keeps the invariant, and the decoder decodes on or is done. -/
theorem decodeStep_keeps_inv {b : Bool} {s t : State} (h : Inv s) (hp : s.phase = .decode)
    (hs : decodeStep b s = .ok t) : Inv t ∧ (t.phase = .decode ∨ t.phase = .done) := by
  have hph := h.phase_ok
  simp only [PhaseOk, hp] at hph
  obtain ⟨hroot, hwalk, hpos, hlt⟩ := hph
  have hsucc := bitcnt_succ hlt
  rcases decodeStep_spec (b := b) h hp with ⟨r, -, -, he⟩ | ⟨r, rc, hr, hc, hne, hrc, ⟨hk, he⟩ | ⟨hk, hb, he⟩ | ⟨-, -, he⟩⟩
  · simp [he] at hs
  · rw [he] at hs
    cases hs
    refine ⟨TreeOk.inv (TreeOk.congr (s := s) rfl rfl rfl rfl h.tree) ?_ ?_, ?_⟩
    · show (s.bitcnt + 1).toNat ≤ _
      rw [hsucc]; exact hlt
    · by_cases hb : s.bitcnt + 1 = s.bitlen
      · rw [if_pos hb]
        exact ⟨hroot, hwalk, hroot, hb, fun hx => absurd rfl hx⟩
      · rw [if_neg hb]
        refine ⟨hroot, hwalk, hroot, ?_⟩
        have : (s.bitcnt + 1).toNat ≠ s.bitlen.toNat := fun hx => hb (BitVec.eq_of_toNat_eq hx)
        show (s.bitcnt + 1).toNat < s.bitlen.toNat
        omega
    · by_cases hb : s.bitcnt + 1 = s.bitlen
      · exact .inr (if_pos hb)
      · exact .inl (if_neg hb)
  · rw [he] at hs
    cases hs
    refine ⟨TreeOk.inv (TreeOk.congr (s := s) rfl rfl rfl rfl h.tree) ?_ ?_, .inl hp⟩
    · show (s.bitcnt + 1).toNat ≤ _
      rw [hsucc]; exact hlt
    · simp only [PhaseOk, hp]
      refine ⟨hroot, hwalk, isInternal_iff.2 ⟨rc, hrc, hk⟩, ?_⟩
      have : (s.bitcnt + 1).toNat ≠ s.bitlen.toNat := fun hx => hb (BitVec.eq_of_toNat_eq hx)
      show (s.bitcnt + 1).toNat < s.bitlen.toNat
      omega
  · simp [he] at hs

/-- A bit that raises an error leaves, once the error is recorded, a sound state. -/
theorem decodeStep_fail_inv {b : Bool} {s t : State} {e : Err} (h : Inv s) (hp : s.phase = .decode)
    (herr : s.err = .none) (hs : decodeStep b s = .fail e t) : Inv (raise e t) := by
  have hph := h.phase_ok
  simp only [PhaseOk, hp] at hph
  obtain ⟨hroot, hwalk, hpos, hlt⟩ := hph
  have hsucc := bitcnt_succ hlt
  rcases decodeStep_spec (b := b) h hp with ⟨r, -, -, he⟩ | ⟨r, rc, hr, hc, hne, hrc, ⟨-, he⟩ | ⟨-, -, he⟩ | ⟨hk, hb, he⟩⟩
  · rw [he] at hs
    cases hs
    exact h.raise _
  · simp [he] at hs
  · simp [he] at hs
  · rw [he] at hs
    cases hs
    refine TreeOk.inv (TreeOk.congr (s := s) rfl rfl rfl rfl h.tree) ?_ ?_
    · show (s.bitcnt + 1).toNat ≤ _
      rw [hsucc]; exact hlt
    · simp only [PhaseOk, raise_phase]
      refine ⟨hroot, hwalk, isInternal_iff.2 ⟨rc, hrc, hk⟩, hb, fun _ => ?_⟩
      simp [herr]

theorem decodeStep_ne_stop {b : Bool} {s : State} (h : Inv s) (hp : s.phase = .decode) {f : Fault} :
    decodeStep b s ≠ .stop f := by
  rcases decodeStep_spec (b := b) h hp with ⟨r, -, -, he⟩ | ⟨r, rc, -, -, -, -, ⟨-, he⟩ | ⟨-, -, he⟩ | ⟨-, -, he⟩⟩ <;> simp [he]

/-- What one bit leaves alone (R171). -/
theorem decodeStep_frame {b : Bool} {s t : State} (hs : decodeStep b s = .ok t ∨ ∃ e, decodeStep b s = .fail e t) :
    t = { s with phase := t.phase, pos := t.pos, bitcnt := t.bitcnt, out := t.out } := by
  have hm : ∀ (c : NodeIdx) (rc : NodeRec) (u : State), checkBoundary (moveTo c rc { s with bitcnt := s.bitcnt + 1 }) = .ok u ∨
      (∃ e, checkBoundary (moveTo c rc { s with bitcnt := s.bitcnt + 1 }) = .fail e u) →
      u = { s with phase := u.phase, pos := u.pos, bitcnt := u.bitcnt, out := u.out } := by
    intro c rc u hu
    rcases moveTo_cases c rc { s with bitcnt := s.bitcnt + 1 } with ⟨-, hmv⟩ | ⟨-, hmv⟩ <;> rw [hmv] at hu
    all_goals
      rcases hu with hu | ⟨e, hu⟩
      · rcases checkBoundary_eq_ok hu with ⟨-, rfl⟩ | ⟨-, -, rfl⟩ <;> rfl
      · obtain ⟨-, -, -, rfl⟩ := checkBoundary_eq_fail hu
        rfl
  rcases hs with hs | ⟨e, hs⟩
  · obtain ⟨r, rc, -, -, -, hb⟩ := decodeStep_eq_ok hs
    exact hm _ _ _ (.inl hb)
  · obtain ⟨r, -, ⟨-, -, rfl⟩ | ⟨rc, -, -, hb⟩⟩ := decodeStep_eq_fail hs
    · rfl
    · exact hm _ _ _ (.inr ⟨_, hb⟩)

/-- What a chunk leaves alone. -/
theorem decodeBits_frame {bs : List Bool} {s t : State} (hs : decodeBits bs s = .ok t) :
    t = { s with phase := t.phase, pos := t.pos, bitcnt := t.bitcnt, out := t.out } := by
  refine decodeBits_invariant
    (P := fun u => u = { s with phase := u.phase, pos := u.pos, bitcnt := u.bitcnt, out := u.out }) ?_ rfl hs
  intro b u v hu _ hv
  have := decodeStep_frame (.inl hv)
  rw [hu] at this
  exact this

/-- What a chunk that raises an error leaves alone. -/
theorem decodeBits_fail_frame {bs : List Bool} {s t : State} {e : Err} (hs : decodeBits bs s = .fail e t) :
    t = { s with phase := t.phase, pos := t.pos, bitcnt := t.bitcnt, out := t.out } ∧
      (e = .badPath ∨ e = .partialSymbol) := by
  obtain ⟨pre, b, post, u, -, h1, -, h3⟩ := decodeBits_eq_fail hs
  have hf := decodeStep_frame (.inr ⟨e, h3⟩)
  rw [decodeBits_frame h1] at hf
  refine ⟨hf, ?_⟩
  obtain ⟨r, -, ⟨-, he, -⟩ | ⟨rc, -, -, hb⟩⟩ := decodeStep_eq_fail h3
  · exact .inl he
  · exact .inr (checkBoundary_eq_fail hb).1

/-- A chunk that raises nothing only appends to OUT (R35). -/
theorem decodeStep_out {b : Bool} {s t : State} (hs : decodeStep b s = .ok t ∨ ∃ e, decodeStep b s = .fail e t) :
    ∃ l, t.out = s.out ++ l := by
  have hm : ∀ (c : NodeIdx) (rc : NodeRec) (u : State),
      checkBoundary (moveTo c rc { s with bitcnt := s.bitcnt + 1 }) = .ok u ∨
        (∃ e, checkBoundary (moveTo c rc { s with bitcnt := s.bitcnt + 1 }) = .fail e u) → ∃ l, u.out = s.out ++ l := by
    intro c rc u hu
    rcases moveTo_cases c rc { s with bitcnt := s.bitcnt + 1 } with ⟨-, hmv⟩ | ⟨-, hmv⟩ <;> rw [hmv] at hu
    all_goals
      rcases hu with hu | ⟨e, hu⟩
      · rcases checkBoundary_eq_ok hu with ⟨-, rfl⟩ | ⟨-, -, rfl⟩ <;> first | exact ⟨_, rfl⟩ | exact ⟨[], by simp⟩
      · obtain ⟨-, -, -, rfl⟩ := checkBoundary_eq_fail hu
        first | exact ⟨_, rfl⟩ | exact ⟨[], by simp⟩
  rcases hs with hs | ⟨e, hs⟩
  · obtain ⟨r, rc, -, -, -, hb⟩ := decodeStep_eq_ok hs
    exact hm _ _ _ (.inl hb)
  · obtain ⟨r, -, ⟨-, -, rfl⟩ | ⟨rc, -, -, hb⟩⟩ := decodeStep_eq_fail hs
    · exact ⟨[], by simp⟩
    · exact hm _ _ _ (.inr ⟨_, hb⟩)

theorem decodeBits_out {bs : List Bool} {s t : State} (hs : decodeBits bs s = .ok t ∨ ∃ e, decodeBits bs s = .fail e t) :
    ∃ l, t.out = s.out ++ l := by
  have hok : ∀ (cs : List Bool) (u : State), decodeBits cs s = .ok u → ∃ l, u.out = s.out ++ l := by
    intro cs u hu
    refine decodeBits_invariant (P := fun v => ∃ l, v.out = s.out ++ l) ?_ ⟨[], by simp⟩ hu
    rintro b v w ⟨l, hl⟩ - hw
    obtain ⟨m, hm⟩ := decodeStep_out (.inl hw)
    exact ⟨l ++ m, by rw [hm, hl, List.append_assoc]⟩
  rcases hs with hs | ⟨e, hs⟩
  · exact hok _ _ hs
  · obtain ⟨pre, b, post, u, -, h1, -, h3⟩ := decodeBits_eq_fail hs
    obtain ⟨l, hl⟩ := hok _ _ h1
    obtain ⟨m, hm⟩ := decodeStep_out (.inr ⟨e, h3⟩)
    exact ⟨l ++ m, by rw [hm, hl, List.append_assoc]⟩

/-- A chunk keeps the invariant where it raises nothing. -/
theorem decodeBits_keeps_inv {bs : List Bool} {s t : State} (h : Inv s) (hp : s.phase = .decode ∨ s.phase = .done)
    (hs : decodeBits bs s = .ok t) : Inv t ∧ (t.phase = .decode ∨ t.phase = .done) := by
  refine decodeBits_invariant (P := fun u => Inv u ∧ (u.phase = .decode ∨ u.phase = .done)) ?_ ⟨h, hp⟩ hs
  intro b u v hu hd hv
  exact decodeStep_keeps_inv hu.1 (hu.2.resolve_right hd) hv

/-- ERR is not touched before an error is raised. -/
theorem decodeBits_err {bs : List Bool} {s t : State} (hs : decodeBits bs s = .ok t) : t.err = s.err := by
  refine decodeBits_invariant (P := fun u => u.err = s.err) ?_ rfl hs
  intro b u v hu _ hv
  rw [decodeStep_frame (.inl hv)]
  exact hu

theorem decodeBits_fail_inv {bs : List Bool} {s t : State} {e : Err} (h : Inv s)
    (hp : s.phase = .decode ∨ s.phase = .done) (herr : s.err = .none) (hs : decodeBits bs s = .fail e t) :
    Inv (raise e t) := by
  obtain ⟨pre, b, post, u, -, h1, h2, h3⟩ := decodeBits_eq_fail hs
  obtain ⟨hu, hpu⟩ := decodeBits_keeps_inv h hp h1
  exact decodeStep_fail_inv hu (hpu.resolve_right h2) (by rw [decodeBits_err h1, herr]) h3

theorem decodeBits_ne_stop {bs : List Bool} {s : State} (h : Inv s) (hp : s.phase = .decode ∨ s.phase = .done)
    {f : Fault} : decodeBits bs s ≠ .stop f := by
  induction bs generalizing s with
  | nil => simp [decodeBits]
  | cons b bs ih =>
    rcases hp with hp | hp
    · rw [decodeBits_cons (by simp [hp])]
      cases hd : decodeStep b s with
      | ok t =>
        obtain ⟨ht, hpt⟩ := decodeStep_keeps_inv h hp hd
        exact ih ht hpt
      | fail e t => simp
      | stop f' => exact absurd hd (decodeStep_ne_stop h hp)
    · simp [hp]

/-- How a bit fails (R173): a missing child with nothing done, or the last bit inside a code. -/
theorem decodeStep_fail_cases {b : Bool} {s t : State} {e : Err} (hs : decodeStep b s = .fail e t) :
    (e = .badPath ∧ t = s ∧ ∃ r, nodeAt s s.pos = some r ∧ childOf r b = Config.nil) ∨
      (e = .partialSymbol ∧ s.bitcnt + 1 = s.bitlen ∧ t.pos ≠ t.root ∧
        t = { s with bitcnt := s.bitcnt + 1, pos := t.pos, phase := .done }) := by
  obtain ⟨r, hr, ⟨hc, rfl, rfl⟩ | ⟨rc, hc, hrc, hb⟩⟩ := decodeStep_eq_fail hs
  · exact .inl ⟨rfl, rfl, r, hr, hc⟩
  · obtain ⟨rfl, h1, h2, rfl⟩ := checkBoundary_eq_fail hb
    right
    rcases moveTo_cases (childOf r b) rc { s with bitcnt := s.bitcnt + 1 } with ⟨-, e⟩ | ⟨-, e⟩ <;> rw [e] at h1 h2 ⊢
    · exact absurd rfl h2
    · exact ⟨rfl, h1, h2, rfl⟩

/-- How many bits a run of the decoder without error consumes (R174): all of them, or those up to BITLEN. -/
theorem decodeBits_consumed {bs : List Bool} {s t : State} (h : Inv s) (hp : s.phase = .decode)
    (ht : decodeBits bs s = .ok t) :
    (t.phase = .decode ∧ t.bitcnt.toNat = s.bitcnt.toNat + bs.length ∧ t.bitcnt.toNat < t.bitlen.toNat) ∨
      (t.phase = .done ∧ t.bitcnt = t.bitlen ∧ s.bitlen.toNat ≤ s.bitcnt.toNat + bs.length ∧ t.pos = t.root) := by
  induction bs generalizing s t with
  | nil =>
    cases ht
    have hph := h.phase_ok
    simp only [PhaseOk, hp] at hph
    exact .inl ⟨hp, rfl, hph.2.2.2⟩
  | cons b bs ih =>
    rw [decodeBits_cons (by simp [hp])] at ht
    obtain ⟨u, hu, ht⟩ := Flow.bind_eq_ok ht
    obtain ⟨hui, hup⟩ := decodeStep_keeps_inv h hp hu
    have hph := h.phase_ok
    simp only [PhaseOk, hp] at hph
    have hsucc := bitcnt_succ hph.2.2.2
    have hcount : u.bitcnt = s.bitcnt + 1 ∧ u.bitlen = s.bitlen ∧ (u.phase = .done → u.bitcnt = u.bitlen ∧ u.pos = u.root) := by
      obtain ⟨r, rc, -, -, -, hb⟩ := decodeStep_eq_ok hu
      rcases checkBoundary_eq_ok hb with ⟨-, rfl⟩ | ⟨h1, h2, rfl⟩
      · rcases moveTo_cases (childOf r b) rc { s with bitcnt := s.bitcnt + 1 } with ⟨-, e⟩ | ⟨-, e⟩ <;>
          rw [e] <;> exact ⟨rfl, rfl, fun hx => by simp [hp] at hx⟩
      · rcases moveTo_cases (childOf r b) rc { s with bitcnt := s.bitcnt + 1 } with ⟨-, e⟩ | ⟨-, e⟩ <;>
          rw [e] at h1 h2 ⊢ <;> exact ⟨rfl, rfl, fun _ => ⟨h1, h2⟩⟩
    rw [List.length_cons]
    rcases hup with hup | hup
    · rcases ih hui hup ht with ⟨h1, h2, h3⟩ | ⟨h1, h2, h3, h4⟩
      · refine .inl ⟨h1, ?_, h3⟩
        rw [h2, hcount.1, hsucc]
        omega
      · refine .inr ⟨h1, h2, ?_, h4⟩
        rw [hcount.1, hsucc, hcount.2.1] at h3
        omega
    · have htu : t = u := by
        cases bs with
        | nil =>
          cases ht
          rfl
        | cons d ds =>
          simp only [decodeBits, hup, if_true, Flow.ok.injEq] at ht
          exact ht.symm
      subst htu
      obtain ⟨e1, e2⟩ := hcount.2.2 hup
      refine .inr ⟨hup, e1, ?_, e2⟩
      have e3 : t.bitcnt.toNat = t.bitlen.toNat := by rw [e1]
      rw [hcount.1, hsucc, hcount.2.1] at e3
      omega

end Sys2Proof.Safety
end

