-- ==== Sys2Proof/Laws/ReconTree.lean ====
section
/-! SUPPORT. The structural invariant along a reconstruction: StartRecon, one bit of a walk, and the marking of a leaf keep it. -/

namespace Sys2Proof.Safety

open Sys2Proof.Machine

theorem childIndices_freshRec : childIndices freshRec = [] := by
  simp [childIndices, internalRec]

theorem childIndices_leafRec (c : Symbol) (w : Weight) : childIndices (leafRec c w) = [] := by
  simp [childIndices, leafRec]

/-- How often `x` is a child once NIL is replaced by the child `n`. -/
theorem count_childIndices_withChild {r : NodeRec} {b : Bool} {n : NodeIdx} (hc : childOf r b = Config.nil)
    (hn : n ≠ Config.nil) (x : Nat) :
    (childIndices (withChild r b n)).count x = (childIndices r).count x + if n.toNat = x then 1 else 0 := by
  have hf : ∀ a c : NodeIdx, (([a, c].filter fun i => i != Config.nil).map BitVec.toNat).count x =
      (if a ≠ Config.nil ∧ a.toNat = x then 1 else 0) + if c ≠ Config.nil ∧ c.toNat = x then 1 else 0 := by
    intro a c
    by_cases h1 : a = Config.nil <;> by_cases h2 : c = Config.nil <;>
      simp [h1, h2, List.count_cons, Nat.add_comm]
  cases b
  · have hc : r.c0 = Config.nil := by simpa [childOf] using hc
    simp only [childIndices, withChild, hf, Bool.false_eq_true, if_false, hc]
    simp [hn, Nat.add_comm]
  · have hc : r.c1 = Config.nil := by simpa [childOf] using hc
    simp only [childIndices, withChild, hf, if_true, hc]
    simp [hn]

@[simp] theorem withChild_kind (r : NodeRec) (b : Bool) (c : NodeIdx) : (withChild r b c).kind = r.kind := by
  cases b <;> rfl

@[simp] theorem withChild_sym (r : NodeRec) (b : Bool) (c : NodeIdx) : (withChild r b c).sym = r.sym := by
  cases b <;> rfl

@[simp] theorem withChild_weight (r : NodeRec) (b : Bool) (c : NodeIdx) : (withChild r b c).weight = r.weight := by
  cases b <;> rfl

@[simp] theorem childOf_withChild_same (r : NodeRec) (b : Bool) (c : NodeIdx) : childOf (withChild r b c) b = c := by
  cases b <;> rfl

theorem childOf_withChild_other (r : NodeRec) {b d : Bool} (h : b ≠ d) (c : NodeIdx) :
    childOf (withChild r b c) d = childOf r d := by
  cases b <;> cases d <;> first | rfl | exact absurd rfl h

/-- The weight of every index is 0 where every record's is. -/
theorem weightAt_zero {s : State} (h : ∀ e ∈ s.node, e.2.weight = 0) (hr : storeRising s.node) (i : NodeIdx) :
    weightAt s i = 0 := by
  unfold weightAt
  split
  · rename_i r hi
    have := h _ ((storeFind_eq_some_iff hr).1 (nodeAt_eq_some_iff.1 hi).2)
    simp only at this
    simp [this]
  · rfl

/-- A record of a reconstructed tree is sound in any larger reconstructed tree. -/
theorem RecordOk.grow {s t : State} (hs : s.root = 0) (ht : t.root = 0) (hc : s.ncount.toNat ≤ t.ncount.toNat)
    (hw : ∀ i, weightAt t i = 0) {i : Nat} {r : NodeRec} (h : RecordOk s i r) : RecordOk t i r where
  leaf_no_child := h.leaf_no_child
  internal_sym := h.internal_sym
  internal_weight := by
    intro _
    simp [h.recon_weight hs, hw]
  recon_weight := fun _ => h.recon_weight hs
  child_order := by
    intro c hm
    have := h.child_order c hm
    rw [if_pos hs] at this
    rw [if_pos ht]
    exact ⟨by omega, this.2⟩

/-- StartRecon keeps the tree sound (R149). -/
theorem TreeOk.started {s : State} (h : TreeOk s) (hc : s.ncount = 0) : TreeOk (started s) := by
  have hn := h.node_nil hc
  have hnode : (Machine.started s).node = [(0, freshRec)] := by simp [Machine.started, hn, storePut, hc]
  have hlt : s.ncount.toNat < Config.nodeCap := by simp [hc]
  refine ⟨Memory.wf_congr (s := pushNode freshRec s) rfl rfl (Memory.wf_pushNode h.memory hlt _), ?_, ?_, ?_⟩
  · rw [hnode]
    simp [Machine.started, hc]
  · rw [hnode]
    intro e he
    rw [List.mem_singleton] at he
    subst he
    refine ⟨by simp [internalRec], by simp [internalRec], ?_, by simp [internalRec], by simp [childIndices_freshRec]⟩
    intro _
    have : ∀ i, weightAt (Machine.started s) i = 0 := by
      refine weightAt_zero ?_ ?_
      · simp [hnode, internalRec]
      · simp [hnode, storeRising]
    simp [this, internalRec]
  · intro k hk
    have : k = 0 := by simpa [Machine.started, hc] using hk
    subst this
    rw [allChildren, hnode]
    simp [childIndices_freshRec, Machine.started, hc]

/-- The node memory after a bit that creates a child. -/
theorem grown_node {s : State} (h : TreeOk s) (b : Bool) (r : NodeRec) :
    (grown b r s).node = storePut (s.node ++ [(s.ncount.toNat, freshRec)]) s.walk.toNat (withChild r b s.ncount) := by
  simp only [grown, setNode_node, pushNode_node]
  rw [storePut_append h.keys_lt]

theorem ne_nil_of_lt {i : NodeIdx} (h : i.toNat < Config.nodeCap) : i ≠ Config.nil := by
  rintro rfl
  simp [Config.nil, Config.nodeCap] at h

theorem TreeOk.walk_mem {s : State} (h : TreeOk s) {r : NodeRec} (hr : nodeAt s s.walk = some r) :
    (s.walk.toNat, r) ∈ s.node := h.nodeAt_iff.1 hr

/-- A bit that creates a child keeps the tree sound (R151). -/
theorem TreeOk.grown {s : State} (h : TreeOk s) (hroot : s.root = 0) {r : NodeRec} (hr : nodeAt s s.walk = some r)
    {b : Bool} (hk : r.kind ≠ .leaf) (hc : childOf r b = Config.nil) (hn : s.ncount.toNat < Config.nodeCap) :
    TreeOk (grown b r s) := by
  have hwalk := nodeAt_lt hr
  have hpush := Memory.wf_pushNode h.memory hn freshRec
  have hnode := grown_node h b r
  have hrise : storeRising (s.node ++ [(s.ncount.toNat, freshRec)]) := by
    rw [← storePut_append h.keys_lt]; exact hpush.2.2.1
  have hmem : (s.walk.toNat, r) ∈ s.node ++ [(s.ncount.toNat, freshRec)] := List.mem_append_left _ (h.walk_mem hr)
  have hcount : (Machine.grown b r s).ncount.toNat = s.ncount.toNat + 1 := ncount_succ hn
  have hr0 : (Machine.grown b r s).root = 0 := hroot
  have hmemory : Memory.wf (Machine.grown b r s) :=
    Memory.wf_congr (s := setNode (pushNode freshRec s) s.walk (withChild r b s.ncount)) rfl rfl
      (Memory.wf_setNode hpush (lt_trans hwalk hn) _)
  have hzero : ∀ e ∈ (Machine.grown b r s).node, e.2.weight = 0 := by
    rw [hnode]
    intro e he
    rcases mem_storePut he with rfl | he
    · simpa using (h.record hr).recon_weight hroot
    · rcases List.mem_append.1 he with he | he
      · exact (h.records e he).recon_weight hroot
      · rw [List.mem_singleton] at he; subst he; rfl
  have hw := weightAt_zero hzero hmemory.2.2.1
  refine ⟨hmemory, ?_, ?_, ?_⟩
  · rw [hnode, keys_storePut_listed hrise (List.mem_map.2 ⟨_, hmem, rfl⟩), hcount, List.map_append, h.allocated,
      List.range_succ]
    rfl
  · rw [hnode]
    intro e he
    rcases mem_storePut he with rfl | he
    · have ho := (h.record hr).grow hroot hr0 (by omega) hw
      refine ⟨fun h1 => absurd (by simpa using h1) hk, ?_, ?_, fun _ => ?_, fun c hm => ?_⟩
      · intro h1; simpa using ho.internal_sym (by simpa using h1)
      · intro _; simp [hw, (h.record hr).recon_weight hroot]
      · simpa using (h.record hr).recon_weight hroot
      · rw [if_pos hr0, hcount]
        obtain ⟨d, hd, rfl⟩ := mem_childIndices.1 hm
        by_cases hbd : b = d
        · subst hbd
          simp only [childOf_withChild_same]
          exact ⟨Nat.lt_succ_self _, hwalk⟩
        · rw [childOf_withChild_other r hbd] at hd ⊢
          have := (h.record hr).child_order _ (mem_childIndices.2 ⟨d, hd, rfl⟩)
          rw [if_pos hroot] at this
          exact ⟨Nat.lt_succ_of_lt this.1, this.2⟩
    · rcases List.mem_append.1 he with he | he
      · exact (h.records e he).grow hroot hr0 (by omega) hw
      · rw [List.mem_singleton] at he
        subst he
        exact ⟨by simp [internalRec], by simp [internalRec], by simp [hw, internalRec], by simp [internalRec],
          by simp [childIndices_freshRec]⟩
  · intro k hk
    rw [hcount, List.mem_range] at hk
    rw [hr0]
    have hcnt := count_flatMap_storePut hrise hmem childIndices (withChild r b s.ncount) k
    rw [← hnode, count_childIndices_withChild hc (ne_nil_of_lt hn)] at hcnt
    have hold : (List.flatMap (fun e => childIndices e.2) (s.node ++ [(s.ncount.toNat, freshRec)])).count k =
        (allChildren s).count k := by
      simp [allChildren, childIndices_freshRec]
    rw [hold] at hcnt
    change (allChildren (Machine.grown b r s)).count k + _ = _ at hcnt
    by_cases hkn : s.ncount.toNat = k
    · have h0 : (allChildren s).count k = 0 := List.count_eq_zero.2 fun hm => by
        have := h.child_lt k hm; omega
      have : k ≠ (0 : NodeIdx).toNat := by simp only [BitVec.ofNat_eq_ofNat, BitVec.toNat_ofNat]; omega
      rw [if_pos hkn, h0] at hcnt
      rw [if_neg this]
      omega
    · rw [if_neg hkn] at hcnt
      have := h.one_parent k (List.mem_range.2 (by omega))
      rw [hroot] at this
      omega

/-- Reading after a bit that creates a child. -/
theorem nodeAt_grown {s : State} {r : NodeRec} (hr : nodeAt s s.walk = some r) (b : Bool)
    (hn : s.ncount.toNat < Config.nodeCap) (j : NodeIdx) :
    nodeAt (grown b r s) j =
      if j = s.walk then some (withChild r b s.ncount) else if j = s.ncount then some freshRec else nodeAt s j := by
  have hw := nodeAt_lt hr
  have : nodeAt (grown b r s) j = nodeAt (setNode (pushNode freshRec s) s.walk (withChild r b s.ncount)) j :=
    nodeAt_congr rfl rfl j
  rw [this, nodeAt_setNode (by rw [pushNode_ncount, ncount_succ hn]; omega), nodeAt_pushNode hn]
  simp only [eq_comm]

/-- One bit of a walk keeps an open reconstruction sound (R151). -/
theorem walkStep_keeps_inv {b : Bool} {s t : State} (h : Inv s ∧ s.phase = .recon) (hs : walkStep b s = .ok t) :
    Inv t ∧ t.phase = .recon := by
  obtain ⟨h, hp⟩ := h
  have hph := h.phase_ok
  simp only [PhaseOk, hp] at hph
  obtain ⟨hroot, hr0, hwalk, hrest⟩ := hph
  obtain ⟨r, hr, hk, ⟨hc, rfl⟩ | ⟨hc, hn, rfl⟩⟩ := walkStep_eq_ok hs
  · refine ⟨TreeOk.inv (TreeOk.congr (s := s) rfl rfl rfl rfl h.tree) h.bits ?_, hp⟩
    obtain ⟨rc, hrc⟩ := h.tree.child_allocated hr hc
    simp only [PhaseOk, hp]
    exact ⟨hroot, hr0, nodeAt_lt hrc, hrest⟩
  · refine ⟨TreeOk.inv (h.tree.grown hr0 hr hk hc hn) h.bits ?_, hp⟩
    have hg : (grown b r s).phase = .recon := hp
    simp only [PhaseOk, hg]
    refine ⟨?_, hr0, ?_, hrest⟩
    · obtain ⟨rr, hrr, hkk⟩ := isInternal_iff.1 hroot
      refine isInternal_iff.2 ?_
      have hroot' : (grown b r s).root = s.root := rfl
      rw [hroot', nodeAt_grown hr b hn]
      by_cases h1 : s.root = s.walk
      · rw [if_pos h1]
        exact ⟨_, rfl, by simpa using kind_ne_leaf.1 hk⟩
      · have h2 : s.root ≠ s.ncount := by
          intro h2
          have := nodeAt_lt hrr
          rw [h2] at this
          exact lt_irrefl _ this
        rw [if_neg h1, if_neg h2]
        exact ⟨rr, hrr, hkk⟩
    · show s.ncount.toNat < (s.ncount + 1).toNat
      rw [ncount_succ hn]
      exact Nat.lt_succ_self _

theorem walkBits_keeps_inv {bs : List Bool} {s t : State} (h : Inv s ∧ s.phase = .recon)
    (hs : walkBits bs s = .ok t) : Inv t ∧ t.phase = .recon :=
  walkBits_invariant (fun _ _ _ h hs => walkStep_keeps_inv h hs) h hs

/-- In an open reconstruction a bit is walked or raises an error; the model does not stop (R63). -/
theorem walkStep_ne_stop {b : Bool} {s : State} (h : Inv s ∧ s.phase = .recon) {f : Fault} : walkStep b s ≠ .stop f := by
  obtain ⟨h, hp⟩ := h
  have hph := h.phase_ok
  simp only [PhaseOk, hp] at hph
  obtain ⟨r, hr⟩ := h.tree.exists_nodeAt hph.2.2.1
  have hcap : s.ncount.toNat ≤ Config.nodeCap := by
    have := s.ncount.isLt
    simp only [Config.nodeCap]
    omega
  by_cases hk : r.kind = .leaf
  · simp [walkStep_leaf hr hk]
  · by_cases hc : childOf r b = Config.nil
    · by_cases hn : s.ncount.toNat = Config.nodeCap
      · simp [walkStep_full hr (kind_ne_leaf.1 hk) hc hn]
      · simp [walkStep_grow hr (kind_ne_leaf.1 hk) hc (by omega)]
    · simp [walkStep_child hr (kind_ne_leaf.1 hk) hc]

theorem walkBits_ne_stop {bs : List Bool} {s : State} (h : Inv s ∧ s.phase = .recon) {f : Fault} :
    walkBits bs s ≠ .stop f := by
  induction bs generalizing s with
  | nil => simp [walkBits]
  | cons b bs ih =>
    simp only [walkBits]
    cases hw : walkStep b s with
    | ok t => exact ih (walkStep_keeps_inv h hw)
    | fail e t => simp
    | stop f' => exact absurd hw (walkStep_ne_stop h)

/-- StartRecon keeps the invariant and opens the reconstruction (R149). -/
theorem started_inv {s : State} (h : Inv s) (hp : s.phase = .idle) : Inv (started s) ∧ (started s).phase = .recon := by
  have hph := h.phase_ok
  simp only [PhaseOk, hp] at hph
  obtain ⟨-, hc, -, hpos, hl, hb⟩ := hph
  refine ⟨TreeOk.inv (h.tree.started hc) ?_ ?_, rfl⟩
  · exact h.bits
  · have hph : (started s).phase = .recon := rfl
    simp only [PhaseOk, hph]
    refine ⟨isInternal_iff.2 ⟨freshRec, ?_, rfl⟩, hc, ?_, hpos, hl, hb⟩
    · have : nodeAt (started s) s.ncount = nodeAt (pushNode freshRec s) s.ncount := nodeAt_congr rfl rfl _
      show nodeAt (started s) s.ncount = some freshRec
      rw [this, nodeAt_pushNode (by simp [hc])]
      simp
    · show s.ncount.toNat < (s.ncount + 1).toNat
      rw [ncount_succ (by simp [hc])]
      exact Nat.lt_succ_self _

/-- What StartRecon leaves of a sound IDLE state, written out (R149). -/
theorem started_eq {s : State} (h : Inv s) (hp : s.phase = .idle) :
    started s = { s with phase := .recon, root := 0, walk := 0, ncount := 1, node := [(0, freshRec)] } := by
  have hph := h.phase_ok
  simp only [PhaseOk, hp] at hph
  simp [started, pushNode, setNode, hph.2.1, h.tree.node_nil hph.2.1, storePut]

/-- Entering a reconstruction from IDLE or RECON succeeds, soundly. -/
theorem enterRecon_spec {s : State} (h : Inv s) (hp : s.phase = .idle ∨ s.phase = .recon) :
    ∃ t, enterRecon s = .ok t ∧ Inv t ∧ t.phase = .recon := by
  rcases hp with hp | hp
  · have hph := h.phase_ok
    simp only [PhaseOk, hp] at hph
    exact ⟨_, by rw [enterRecon_of_idle hp, startRecon_of_lt (by simp [hph.2.1])], started_inv h hp⟩
  · exact ⟨s, enterRecon_of_recon hp, h, hp⟩

/-- Marking a leaf keeps the tree sound (R152). -/
theorem TreeOk.marked {s : State} (h : TreeOk s) (hroot : s.root = 0) {r : NodeRec} (hr : nodeAt s s.walk = some r)
    (h0 : r.c0 = Config.nil) (h1 : r.c1 = Config.nil) (c : Symbol) :
    TreeOk (marked c s) := by
  have hwalk := nodeAt_lt hr
  have hcap : s.walk.toNat < Config.nodeCap := by
    have := s.ncount.isLt
    simp only [Config.nodeCap]
    omega
  have hmemory := Memory.wf_setNode h.memory hcap (leafRec c 0)
  refine TreeOk.congr (s := setNode s s.walk (leafRec c 0)) rfl rfl rfl rfl ⟨hmemory, ?_, ?_, ?_⟩
  · rw [setNode_node, keys_storePut_listed h.memory.2.2.1 (List.mem_map.2 ⟨_, h.walk_mem hr, rfl⟩)]
    exact h.allocated
  · have hw : ∀ i, weightAt (setNode s s.walk (leafRec c 0)) i = 0 := by
      refine weightAt_zero (fun e he => ?_) hmemory.2.2.1
      rcases mem_storePut he with rfl | he
      · rfl
      · exact (h.records e he).recon_weight hroot
    intro e he
    rcases mem_storePut he with rfl | he
    · exact ⟨by simp [leafRec], by simp [leafRec], by simp [leafRec], by simp [leafRec], by simp [childIndices_leafRec]⟩
    · exact (h.records e he).grow (t := setNode s s.walk (leafRec c 0)) hroot hroot (le_refl _) hw
  · intro k hk
    have hcnt := count_flatMap_storePut h.memory.2.2.1 (h.walk_mem hr) childIndices (leafRec c 0) k
    have hr0 : childIndices r = [] := by simp [childIndices, h0, h1]
    rw [childIndices_leafRec, hr0] at hcnt
    rw [setNode_root, ← h.one_parent k hk]
    simpa [allChildren] using hcnt

theorem nodeAt_marked {s : State} {r : NodeRec} (hr : nodeAt s s.walk = some r) (c : Symbol) (j : NodeIdx) :
    nodeAt (marked c s) j = if s.walk = j then some (leafRec c 0) else nodeAt s j := by
  rw [← nodeAt_setNode (nodeAt_lt hr)]
  exact nodeAt_congr rfl rfl _

theorem markLeaf_keeps_inv {c : Symbol} {s t : State} (h : Inv s ∧ s.phase = .recon) (hs : markLeaf c s = .ok t) :
    Inv t ∧ t.phase = .recon := by
  obtain ⟨h, hp⟩ := h
  have hph := h.phase_ok
  simp only [PhaseOk, hp] at hph
  obtain ⟨hroot, hr0, hwalk, hrest⟩ := hph
  obtain ⟨hne, r, hr, hk, h0, h1, rfl⟩ := markLeaf_eq_ok hs
  refine ⟨TreeOk.inv (h.tree.marked hr0 hr h0 h1 c) h.bits ?_, hp⟩
  have hm : (marked c s).phase = .recon := hp
  simp only [PhaseOk, hm]
  obtain ⟨rr, hrr, hkk⟩ := isInternal_iff.1 hroot
  have hlt : s.root.toNat < s.ncount.toNat := nodeAt_lt hrr
  refine ⟨isInternal_iff.2 ⟨rr, ?_, hkk⟩, hr0, hlt, hrest⟩
  show nodeAt (marked c s) s.root = some rr
  rw [nodeAt_marked hr, if_neg hne, hrr]

theorem markLeaf_ne_stop {c : Symbol} {s : State} (h : Inv s ∧ s.phase = .recon) {f : Fault} : markLeaf c s ≠ .stop f := by
  obtain ⟨h, hp⟩ := h
  have hph := h.phase_ok
  simp only [PhaseOk, hp] at hph
  obtain ⟨r, hr⟩ := h.tree.exists_nodeAt hph.2.2.1
  unfold markLeaf
  rw [readNode_of_some hr, Flow.bind_ok]
  split
  · simp
  · split
    · simp
    · split <;> simp

end Sys2Proof.Safety
end

