-- ==== Sys2Proof/Laws/Invariant.lean ====
section
/-! SUPPORT. What each command does to a state that meets the structural invariant: it answers a next state, and the next state meets it again. -/

namespace Sys2Proof.Safety

open Sys2Proof.Machine

/-- The command answers a next state that is sound. -/
abbrev GoesOn (r : Result) : Prop :=
  ∃ t, r = .next t ∧ Inv t

theorem goesOn_raise {s : State} (h : Inv s) (e : Err) : GoesOn (.next (raise e s)) := ⟨_, rfl, h.raise e⟩

theorem goesOn_respond {s : State} (h : Inv s) (v : Word) : GoesOn (.next (respond v s)) := ⟨_, rfl, h.respond v⟩

theorem goesOn_status {s : State} (h : Inv s) : GoesOn (.next (respondStatus s)) := ⟨_, rfl, h.respondStatus⟩

/-- A gated command goes on if it does so while ERR is NONE. -/
theorem goesOn_gated {k : State → Result} {s : State} (h : Inv s) (hk : s.err = .none → GoesOn (k s)) :
    GoesOn (gated k s) := by
  by_cases he : s.err = .none
  · rw [gated_of_noError he]
    exact hk he
  · rw [gated_of_error he]
    exact goesOn_status h

theorem execNop_goesOn {s : State} (h : Inv s) : GoesOn (execNop s) := goesOn_status h

theorem execClr_goesOn (s : State) : GoesOn (execClr s) := goesOn_status (inv_resetState s)

theorem execRdreg_goesOn {s : State} (h : Inv s) (sel : Nat) : GoesOn (execRdreg sel s) := by
  unfold execRdreg
  split
  · exact goesOn_respond h _
  · exact goesOn_raise h _

theorem execRdfreq_goesOn {s : State} (h : Inv s) (c : Symbol) : GoesOn (execRdfreq c s) := goesOn_respond h _

theorem execRdnode_goesOn {s : State} (h : Inv s) (idx : NodeIdx) : GoesOn (execRdnode idx s) := by
  unfold execRdnode
  split
  · exact goesOn_raise h _
  · split
    · exact goesOn_respond h _
    · obtain ⟨r, hr⟩ := h.tree.exists_nodeAt (i := idx) (by omega)
      rw [hr]
      exact goesOn_respond h _

/-- A write of FREQ in IDLE keeps the invariant. -/
theorem Inv.writeFreq {s : State} (h : Inv s) (c : Symbol) (v : Weight) : Inv (writeFreq s c v) where
  memory := Memory.wf_writeFreq h.memory c v
  allocated := h.allocated
  records := fun e he => RecordOk.congr (s := s) (t := Machine.writeFreq s c v) rfl rfl rfl (h.records e he)
  one_parent := h.one_parent
  bits := h.bits
  phase_ok := PhaseOk.congr (s := s) (t := Machine.writeFreq s c v) rfl rfl rfl rfl rfl rfl rfl rfl (.inl rfl) h.phase_ok

theorem execSetw_goesOn {s : State} (h : Inv s) (c : Symbol) (v : Weight) : GoesOn (execSetw c v s) := by
  refine goesOn_gated h fun _ => ?_
  split
  · exact goesOn_raise h _
  · exact goesOn_status (h.writeFreq c v)

theorem execIncw_goesOn {s : State} (h : Inv s) (c : Symbol) : GoesOn (execIncw c s) := by
  refine goesOn_gated h fun _ => ?_
  split
  · exact goesOn_raise h _
  · split
    · exact goesOn_raise h _
    · exact goesOn_status (h.writeFreq c _)

theorem execBuild_goesOn {s : State} (h : Inv s) : GoesOn (execBuild s) := by
  refine goesOn_gated h fun _ => ?_
  split
  · exact goesOn_raise h _
  · split
    · exact goesOn_raise h _
    · split
      · exact goesOn_raise h _
      · rename_i hp hne hw
        obtain ⟨t, ht, hi⟩ := buildTree_spec h (not_not.1 hp) hne (not_lt.1 hw)
        rw [ht]
        exact goesOn_status hi

/-- A flow that neither stops nor leaves an unsound state ends in a sound next state. -/
theorem goesOn_finish {x : Flow State} (hok : ∀ t, x = .ok t → Inv t) (hfail : ∀ e t, x = .fail e t → Inv (raise e t))
    (hstop : ∀ f, x ≠ .stop f) : GoesOn x.finish := by
  cases x with
  | ok t => exact goesOn_status (hok t rfl)
  | fail e t => exact ⟨_, rfl, hfail e t rfl⟩
  | stop f => exact absurd rfl (hstop f)

theorem execIbits_goesOn {s : State} (h : Inv s) (n : Nat) (payload : Payload) : GoesOn (execIbits n payload s) := by
  refine goesOn_gated h fun _ => ?_
  split
  · exact goesOn_raise h _
  · split
    · exact goesOn_raise h _
    · obtain ⟨u, hu, hi⟩ := enterRecon_spec (s := s) h (by cases hp : s.phase <;> simp_all)
      rw [hu, Flow.bind_ok]
      refine goesOn_finish (fun t ht => (walkBits_keeps_inv hi ht).1) (fun e t ht => ?_) fun f => walkBits_ne_stop hi
      exact (walkBits_fail_invariant (fun _ _ _ hv hw => walkStep_keeps_inv hv hw) hi ht).1.raise e

theorem execIleaf_goesOn {s : State} (h : Inv s) (c : Symbol) : GoesOn (execIleaf c s) := by
  refine goesOn_gated h fun _ => ?_
  split
  · exact goesOn_raise h _
  · obtain ⟨u, hu, hi⟩ := enterRecon_spec (s := s) h (by cases hp : s.phase <;> simp_all)
    rw [hu, Flow.bind_ok]
    refine goesOn_finish (fun t ht => (markLeaf_keeps_inv hi ht).1) (fun e t ht => ?_) fun f => markLeaf_ne_stop hi
    rw [(markLeaf_eq_fail ht).1]
    exact hi.1.raise e

/-- What DSTART needs of the tree it starts from. -/
theorem Inv.hasTree {s : State} (h : Inv s) (hp : s.phase ≠ .idle) : isInternal s s.root := by
  have hph := h.phase_ok
  cases hs : s.phase <;> simp only [PhaseOk, hs] at hph
  · exact absurd hs hp
  all_goals exact hph.1

/-- A tree with no entry part-way has its walk closed. -/
theorem Inv.walkClosed {s : State} (h : Inv s) (hp : s.phase ≠ .idle) (hw : s.phase = .recon → s.walk = s.root) :
    walkClosed s := by
  have hph := h.phase_ok
  cases hs : s.phase <;> simp only [PhaseOk, hs] at hph
  · exact absurd hs hp
  · rw [Safety.walkClosed, if_neg hph.2.1]
    exact hph.2.2.1
  · rw [Safety.walkClosed, if_pos hph.2.1, hw hs, hph.2.1]
  · exact hph.2.1
  · exact hph.2.1

/-- The state after a DSTART that is accepted (R170). -/
def decoding (len : BitCount) (s : State) : State :=
  { s with bitlen := len, bitcnt := 0, pos := s.root, phase := if len = 0 then .done else .decode }

theorem decoding_inv {s : State} (h : Inv s) (len : BitCount) (hp : s.phase ≠ .idle)
    (hw : s.phase = .recon → s.walk = s.root) : Inv (decoding len s) := by
  have hroot := h.hasTree hp
  have hclosed := h.walkClosed hp hw
  refine TreeOk.inv (TreeOk.congr (s := s) rfl rfl rfl rfl h.tree) (Nat.zero_le _) ?_
  by_cases hl : len = 0
  · have : (decoding len s).phase = .done := if_pos hl
    simp only [PhaseOk, this]
    exact ⟨hroot, hclosed, hroot, hl.symm, fun hx => absurd rfl hx⟩
  · have : (decoding len s).phase = .decode := if_neg hl
    simp only [PhaseOk, this]
    refine ⟨hroot, hclosed, hroot, ?_⟩
    have : len.toNat ≠ 0 := fun hx => hl (BitVec.eq_of_toNat_eq hx)
    show 0 < len.toNat
    omega

theorem execDstart_goesOn {s : State} (h : Inv s) (len : BitCount) : GoesOn (execDstart len s) := by
  refine goesOn_gated h fun _ => ?_
  split
  · exact goesOn_raise h _
  · split
    · exact goesOn_raise h _
    · rename_i hp hw
      exact goesOn_status (decoding_inv h len (fun hx => hp (.inl hx)) fun hx => by
        by_contra hne
        exact hw ⟨hx, hne⟩)

theorem execDbits_goesOn {s : State} (h : Inv s) (n : Nat) (payload : Payload) : GoesOn (execDbits n payload s) := by
  refine goesOn_gated h fun herr => ?_
  split
  · exact goesOn_raise h _
  · split
    · exact goesOn_raise h _
    · have hp : s.phase = .decode ∨ s.phase = .done := by cases hp : s.phase <;> simp_all
      exact goesOn_finish (fun t ht => (decodeBits_keeps_inv h hp ht).1) (fun e t ht => decodeBits_fail_inv h hp herr ht)
        fun f => decodeBits_ne_stop h hp

theorem execDend_goesOn {s : State} (h : Inv s) : GoesOn (execDend s) := by
  refine goesOn_gated h fun _ => ?_
  split
  · exact goesOn_raise h _
  · split
    · exact goesOn_raise h _
    · exact goesOn_status h

end Sys2Proof.Safety
end

