-- ==== Sys2Proof/Laws/Paths.lean ====
section
/-! SUPPORT. Paths in the tree (10_state R27, R33): each allocated record is reached from ROOT by exactly one, and the codes of leaves are prefix-free (41_tree_build R141). -/

namespace Sys2Proof.Safety

open Sys2Proof.Machine

/-- A path goes one bit further exactly along a child. -/
theorem follow_snoc {s : State} {i j : NodeIdx} {p : List Bool} {b : Bool} :
    follow s i (p ++ [b]) = some j ↔
      ∃ k r, follow s i p = some k ∧ nodeAt s k = some r ∧ childOf r b ≠ Config.nil ∧ childOf r b = j := by
  rw [follow_append]
  constructor
  · intro h
    obtain ⟨k, hk, h⟩ := Option.bind_eq_some_iff.1 h
    simp only [follow] at h
    split at h
    · rename_i r hr
      split at h
      · simp at h
      · exact ⟨k, r, hk, hr, ‹_›, by simpa using h⟩
    · simp at h
  · rintro ⟨k, r, hk, hr, hc, rfl⟩
    rw [hk]
    simp [follow, hr, hc]

theorem follow_cons {s : State} {i : NodeIdx} {r : NodeRec} (hr : nodeAt s i = some r) (b : Bool) (p : List Bool) :
    follow s i (b :: p) = if childOf r b = Config.nil then none else follow s (childOf r b) p := by
  simp only [follow, hr]

/-- A path from an allocated record ends at an allocated record. -/
theorem TreeOk.follow_allocated {s : State} (h : TreeOk s) {i j : NodeIdx} {p : List Bool}
    (hi : i.toNat < s.ncount.toNat) (hf : follow s i p = some j) : j.toNat < s.ncount.toNat := by
  induction p generalizing i with
  | nil => simp only [follow, Option.some.injEq] at hf; exact hf ▸ hi
  | cons b p ih =>
    obtain ⟨r, hr⟩ := h.exists_nodeAt hi
    rw [follow_cons hr] at hf
    split at hf
    · simp at hf
    · obtain ⟨rc, hrc⟩ := h.child_allocated hr ‹_›
      exact ih (nodeAt_lt hrc) hf

/-- Two records with a common child are one, and the child is theirs by one bit alone (R33). -/
theorem TreeOk.parent_unique {s : State} (h : TreeOk s) {i j : NodeIdx} {r q : NodeRec} {b d : Bool}
    (hr : nodeAt s i = some r) (hq : nodeAt s j = some q) (hc : childOf r b ≠ Config.nil)
    (he : childOf r b = childOf q d) : i = j ∧ b = d := by
  have hc' : childOf q d ≠ Config.nil := he ▸ hc
  have hmr : (childOf r b).toNat ∈ childIndices r := mem_childIndices.2 ⟨b, hc, rfl⟩
  have hmq : (childOf r b).toNat ∈ childIndices q := mem_childIndices.2 ⟨d, hc', by rw [he]⟩
  have her := h.nodeAt_iff.1 hr
  have heq := h.nodeAt_iff.1 hq
  have hlt := h.child_lt _ (List.mem_flatMap.2 ⟨_, her, hmr⟩)
  have hcount : (allChildren s).count (childOf r b).toNat ≤ 1 := by
    rw [h.one_parent _ (List.mem_range.2 hlt)]
    split <;> omega
  have hij : i = j := by
    by_contra hne
    have h2 : (i.toNat, r) ≠ (j.toNat, q) := fun hx => hne (BitVec.eq_of_toNat_eq (Prod.ext_iff.1 hx).1)
    have hperm := List.perm_cons_erase her
    have hmem : (j.toNat, q) ∈ s.node.erase (i.toNat, r) := (List.mem_erase_of_ne (Ne.symm h2)).2 heq
    have hc2 := (hperm.flatMap_right fun e => childIndices e.2).count_eq (childOf r b).toNat
    rw [List.flatMap_cons, List.count_append] at hc2
    simp only at hc2
    have h3 : 0 < (childIndices r).count (childOf r b).toNat := List.count_pos_iff.2 hmr
    have h4 : 0 < ((s.node.erase (i.toNat, r)).flatMap fun e => childIndices e.2).count (childOf r b).toNat :=
      List.count_pos_iff.2 (List.mem_flatMap.2 ⟨_, hmem, hmq⟩)
    unfold allChildren at hcount
    omega
  subst hij
  rw [hr] at hq
  cases hq
  refine ⟨rfl, ?_⟩
  by_contra hbd
  have h1 : r.c0 = r.c1 := by
    cases b <;> cases d <;> first | exact absurd rfl hbd | simpa [childOf] using he | simpa [childOf] using he.symm
  have h2 : childOf r b = r.c0 := by
    cases b
    · rfl
    · exact h1.symm
  have h3 : (childIndices r).count (childOf r b).toNat = 2 := by
    have hn : r.c0 ≠ Config.nil := h2 ▸ hc
    have hn1 : r.c1 ≠ Config.nil := h1 ▸ hn
    rw [h2]
    unfold childIndices
    rw [← h1]
    simp [hn]
  have hperm := List.perm_cons_erase her
  have hc2 := (hperm.flatMap_right fun e => childIndices e.2).count_eq (childOf r b).toNat
  rw [List.flatMap_cons, List.count_append] at hc2
  simp only at hc2
  unfold allChildren at hcount
  omega

/-- A record is reached by at most one path from ROOT (R33). -/
theorem TreeOk.path_unique {s : State} (h : TreeOk s) {p q : List Bool} {i : NodeIdx}
    (hp : follow s s.root p = some i) (hq : follow s s.root q = some i) : p = q := by
  induction p using List.reverseRecOn generalizing q i with
  | nil =>
    simp only [follow, Option.some.injEq] at hp
    rcases List.eq_nil_or_concat' q with rfl | ⟨q, d, rfl⟩
    · rfl
    · obtain ⟨k, r, -, hr, hc, he⟩ := follow_snoc.1 hq
      exact absurd (he.trans hp.symm) (h.child_ne_root hr hc)
  | append_singleton p b ih =>
    obtain ⟨k, r, hk, hr, hc, rfl⟩ := follow_snoc.1 hp
    rcases List.eq_nil_or_concat' q with rfl | ⟨q, d, rfl⟩
    · simp only [follow, Option.some.injEq] at hq
      exact absurd hq.symm (h.child_ne_root hr hc)
    · obtain ⟨k', r', hk', hr', hc', he⟩ := follow_snoc.1 hq
      obtain ⟨rfl, rfl⟩ := h.parent_unique hr hr' hc he.symm
      rw [ih hk hk']

/-- Every allocated record but ROOT is a child of an allocated record (R33). -/
theorem TreeOk.exists_parent {s : State} (h : TreeOk s) {i : NodeIdx} (hi : i.toNat < s.ncount.toNat) (hne : i ≠ s.root) :
    ∃ j r b, nodeAt s j = some r ∧ childOf r b ≠ Config.nil ∧ childOf r b = i := by
  have hc := h.one_parent _ (List.mem_range.2 hi)
  rw [if_neg fun hx => hne (BitVec.eq_of_toNat_eq hx)] at hc
  have hm : i.toNat ∈ allChildren s := List.count_pos_iff.1 (by omega)
  obtain ⟨e, he, hm⟩ := List.mem_flatMap.1 hm
  obtain ⟨b, hb, hx⟩ := mem_childIndices.1 hm
  exact ⟨_, _, b, (h.listed he).2, hb, BitVec.eq_of_toNat_eq hx⟩

/-- Every allocated record is reached from ROOT (R33): towards ROOT the indices fall in a reconstructed tree and rise in a
built one. -/
theorem TreeOk.path_exists {s : State} (h : TreeOk s) {i : NodeIdx} (hi : i.toNat < s.ncount.toNat) :
    ∃ p, follow s s.root p = some i := by
  by_cases h0 : s.root = 0
  · induction hn : i.toNat using Nat.strong_induction_on generalizing i with
    | _ n ih =>
      by_cases hr : i = s.root
      · exact ⟨[], by simp [follow, hr]⟩
      · obtain ⟨j, r, b, hj, hc, rfl⟩ := h.exists_parent hi hr
        have ho := ((h.record hj).child_order _ (mem_childIndices.2 ⟨b, hc, rfl⟩)).2
        rw [if_pos h0] at ho
        obtain ⟨p, hp⟩ := ih j.toNat (hn ▸ ho) (nodeAt_lt hj) rfl
        exact ⟨p ++ [b], follow_snoc.2 ⟨j, r, hp, hj, hc, rfl⟩⟩
  · induction hn : s.ncount.toNat - i.toNat using Nat.strong_induction_on generalizing i with
    | _ n ih =>
      by_cases hr : i = s.root
      · exact ⟨[], by simp [follow, hr]⟩
      · obtain ⟨j, r, b, hj, hc, rfl⟩ := h.exists_parent hi hr
        have ho := ((h.record hj).child_order _ (mem_childIndices.2 ⟨b, hc, rfl⟩)).2
        rw [if_neg h0] at ho
        have hlt := nodeAt_lt hj
        obtain ⟨p, hp⟩ := ih (s.ncount.toNat - j.toNat) (by omega) hlt rfl
        exact ⟨p ++ [b], follow_snoc.2 ⟨j, r, hp, hj, hc, rfl⟩⟩

/-! ## Codes -/

/-- No leaf lies on another leaf's path (R141). -/
theorem TreeOk.code_prefix {s : State} (h : TreeOk s) {p q : List Bool} {c d : Symbol} (hp : hasCode s p c)
    (hq : hasCode s q d) (hpre : p <+: q) : p = q ∧ c = d := by
  obtain ⟨i, hi, hci⟩ := hp
  obtain ⟨j, hj, hdj⟩ := hq
  obtain ⟨t, rfl⟩ := hpre
  rw [follow_append, hi] at hj
  change follow s i t = some j at hj
  obtain ⟨r, hr, hk, rfl⟩ := isLeafOf_iff.1 hci
  cases t with
  | nil =>
    simp only [follow, Option.some.injEq] at hj
    subst hj
    obtain ⟨r', hr', -, rfl⟩ := isLeafOf_iff.1 hdj
    rw [hr] at hr'
    cases hr'
    exact ⟨by simp, rfl⟩
  | cons b t =>
    rw [h.follow_leaf hr hk] at hj
    simp at hj

/-- A code is not empty where ROOT is INTERNAL. -/
theorem hasCode_ne_nil {s : State} {c : Symbol} {p : List Bool} (hroot : isInternal s s.root) (h : hasCode s p c) :
    p ≠ [] := by
  rintro rfl
  obtain ⟨i, hi, hc⟩ := h
  simp only [follow, Option.some.injEq] at hi
  subst hi
  obtain ⟨r, hr, hk, -⟩ := isLeafOf_iff.1 hc
  obtain ⟨r', hr', hk'⟩ := isInternal_iff.1 hroot
  rw [hr] at hr'
  cases hr'
  rw [hk] at hk'
  cases hk'

end Sys2Proof.Safety
end

