-- ==== Sys2Proof/Laws/Built.lean ====
section
/-! SUPPORT. What a successful BUILD leaves: the size-1 tree (41_tree_build R135) or the merged tree, with its sizes, its leaves and its records. -/

namespace Sys2Proof.Safety

open Sys2Proof.Machine

/-- Everything a successful BUILD can leave. -/
theorem Built.cases {s t : State} (h : Built s t) :
    (∃ c, tableSymbols s = [c] ∧ t = respondStatus (singleTree s c)) ∨
    (2 ≤ (tableSymbols s).length ∧ ∃ r u, t = respondStatus (rooted r u) ∧
      MergeOk s (tableSymbols s).length (totalWeight s) [r] u) := by
  have hs := h.succeeds
  rcases execBuild_cases h.builds with ⟨h1, -⟩ | ⟨-, ⟨h1, -⟩ | ⟨-, -, rfl⟩ | ⟨-, -, -, rfl⟩ | ⟨-, hne, hw, u, hu, rfl⟩⟩
  · exact absurd h.no_error h1
  · exact absurd h.idle h1
  · simp [h.no_error] at hs
  · simp [h.no_error] at hs
  · match hx : tableSymbols s, hne with
    | [c], _ =>
      rw [buildTree_single h.sound h.idle hx, Flow.ok.injEq] at hu
      exact .inl ⟨c, rfl, by rw [hu]⟩
    | c :: d :: cs, _ =>
      have hn : 2 ≤ (tableSymbols s).length := by rw [hx]; simp
      obtain ⟨r, v, hv, hm⟩ := buildTree_merged h.sound h.idle hn hw
      rw [hv, Flow.ok.injEq] at hu
      rw [hx] at hn hm
      exact .inr ⟨hn, r, v, by rw [← hu]; rfl, hm⟩

/-- BUILD goes through exactly when the table passes its checks (R133, R134). -/
theorem build_succeeds {s : State} (h : Inv s) (hp : s.phase = .idle) (he : s.err = .none) (hne : tableSymbols s ≠ [])
    (hw : totalWeight s ≤ Config.wmax) : ∃ t, Built s t := by
  obtain ⟨t, ht, -⟩ := buildTree_spec h hp hne hw
  refine ⟨respondStatus t, h, hp, he, ?_, ?_⟩
  · simp only [exec, execBuild, gated_of_noError he]
    rw [if_neg (not_not.2 hp), if_neg hne, if_neg (not_lt.2 hw), ht]
    rfl
  · rw [buildTree_frame ht]
    exact he

theorem Built.inv {s t : State} (h : Built s t) : Inv t := by
  obtain ⟨t', ht', hi⟩ := execBuild_goesOn h.sound
  have := h.builds
  rw [exec, ht', Host.Outcome.next.injEq] at this
  exact this ▸ hi

theorem Built.phase {s t : State} (h : Built s t) : t.phase = .tree := by
  rcases h.cases with ⟨c, -, rfl⟩ | ⟨-, r, u, rfl, -⟩ <;> rfl

/-- The records of the leaves come first (R131). -/
theorem Built.leaves {s t : State} (h : Built s t) : leafEntries s 0 (tableSymbols s) <+: t.node := by
  rcases h.cases with ⟨c, hc, rfl⟩ | ⟨-, r, u, rfl, hm⟩
  · rw [hc]
    exact List.prefix_append [(0, leafRec c (readFreq s c))] [(1, internalRec (readFreq s c) 0 Config.nil)]
  · exact hm.leaf_entries

/-- The records after the leaves are INTERNAL (R131), and point to smaller indices. -/
theorem Built.inner {s t : State} (h : Built s t) {e : Nat × NodeRec} (he : e ∈ t.node)
    (hge : (tableSymbols s).length ≤ e.1) : e.2.kind = .internal ∧ e.2.sym = 0 := by
  rcases h.cases with ⟨c, hc, rfl⟩ | ⟨-, r, u, rfl, hm⟩
  · rw [hc] at hge
    have he : e = (0, leafRec c (readFreq s c)) ∨ e = (1, internalRec (readFreq s c) 0 Config.nil) := by
      simpa [singleTree] using he
    rcases he with rfl | rfl
    · simp at hge
    · exact ⟨rfl, rfl⟩
  · obtain ⟨h1, h2, -⟩ := hm.inner e he hge
    exact ⟨h1, h2⟩

/-- How many records a built tree has (R138). -/
theorem Built.ncount {s t : State} (h : Built s t) :
    t.ncount.toNat = (tableSymbols s).length + max 1 ((tableSymbols s).length - 1) := by
  rcases h.cases with ⟨c, hc, rfl⟩ | ⟨hn, r, u, rfl, hm⟩
  · rw [hc]; rfl
  · have := (hm.sizes hn).1
    show u.ncount.toNat = _
    omega

/-- A record below the number of symbols is the leaf of its symbol (R131). -/
theorem Built.nodeAt_leaf {s t : State} (h : Built s t) {j : Nat} {c : Symbol} (hj : (tableSymbols s)[j]? = some c) :
    nodeAt t (BitVec.ofNat 9 j) = some (leafRec c (readFreq s c)) := by
  have hlt : j < (tableSymbols s).length := (List.getElem?_eq_some_iff.1 hj).1
  have hlen := tableSymbols_length_le s
  have hjn : (BitVec.ofNat 9 j).toNat = j := by simp only [BitVec.toNat_ofNat]; omega
  refine h.inv.tree.nodeAt_iff.2 (h.leaves.subset ?_)
  rw [hjn, mem_leafEntries]
  exact ⟨j, c, hj, by simp⟩

/-- A leaf of a built tree is the leaf of a symbol of the table (R138). -/
theorem Built.leaf_cases {s t : State} (h : Built s t) {i : NodeIdx} {r : NodeRec} (hi : nodeAt t i = some r)
    (hk : r.kind = .leaf) : ∃ c, (tableSymbols s)[i.toNat]? = some c ∧ r = leafRec c (readFreq s c) := by
  have hlt : i.toNat < (tableSymbols s).length := by
    by_contra hge
    have := (h.inner (h.inv.tree.nodeAt_iff.1 hi) (not_lt.1 hge)).1
    simp only [hk] at this
    cases this
  have hj := List.getElem?_eq_getElem hlt
  have := h.nodeAt_leaf hj
  rw [show BitVec.ofNat 9 i.toNat = i from by simp, hi, Option.some.injEq] at this
  exact ⟨_, hj, this⟩

end Sys2Proof.Safety
end

