-- ==== Sys2Proof/Laws/Chunks.lean ====
section
/-! SUPPORT. Bit chunks (30_encoding R84): the bits of a chunk and of its first part, and what a run of IBITS or DBITS chunks does: the same as all their bits at once. -/

namespace Sys2Proof.Safety

open Sys2Proof.Machine

/-! ## The bits of a chunk -/

@[simp] theorem chunkBits_length (n : Nat) (p : Payload) : (chunkBits n p).length = n := by
  induction n with
  | zero => rfl
  | succ n ih => simp [chunkBits, ih]

/-- The bits of a chunk are those of its first part and then those of the rest. -/
theorem chunkBits_add (k m : Nat) (p : Payload) : chunkBits (k + m) p = chunkBits k (p >>> m) ++ chunkBits m p := by
  induction k with
  | zero => simp [chunkBits]
  | succ k ih =>
    rw [Nat.succ_add, chunkBits, ih, chunkBits, List.cons_append, BitVec.getLsbD_ushiftRight, Nat.add_comm m k]

theorem chunkValid_iff {n : Nat} {p : Payload} :
    chunkValid n p = true ↔ 1 ≤ n ∧ n ≤ 32 ∧ (n = 32 ∨ p.toNat < 2 ^ n) := by
  simp only [chunkValid, Bool.and_eq_true, Bool.or_eq_true, decide_eq_true_eq, beq_iff_eq, and_assoc]
  have : p >>> n = 0 ↔ p.toNat < 2 ^ n := by
    rw [← BitVec.toNat_inj, BitVec.toNat_ushiftRight, Nat.shiftRight_eq_div_pow]
    simp [Nat.div_eq_zero_iff]
  rw [this]

theorem chunkValid_lt {n : Nat} {p : Payload} (h : chunkValid n p = true) : p.toNat < 2 ^ n := by
  obtain ⟨-, -, rfl | h⟩ := chunkValid_iff.1 h
  · exact p.isLt
  · exact h

/-- The first part of a valid chunk is a valid chunk. -/
theorem chunkValid_part {k m : Nat} {p : Payload} (h : chunkValid (k + m) p = true) (hk : 1 ≤ k) :
    chunkValid k (p >>> m) = true := by
  obtain ⟨-, h2, -⟩ := chunkValid_iff.1 h
  refine chunkValid_iff.2 ⟨hk, by omega, .inr ?_⟩
  rw [BitVec.toNat_ushiftRight, Nat.shiftRight_eq_div_pow]
  refine Nat.div_lt_of_lt_mul ?_
  rw [← pow_add, Nat.add_comm m k]
  exact chunkValid_lt h

/-- Where a chunk's bits are cut, the part before the cut is a chunk of its own. -/
theorem chunkBits_prefix {n : Nat} {p : Payload} {pre rest : List Bool} (h : chunkBits n p = pre ++ rest) :
    pre = chunkBits pre.length (p >>> rest.length) ∧ rest = chunkBits rest.length p := by
  have hn : n = pre.length + rest.length := by
    have := congrArg List.length h
    simpa using this
  rw [hn, chunkBits_add] at h
  obtain ⟨h1, h2⟩ := List.append_inj h (by simp)
  exact ⟨h1.symm, h2.symm⟩

theorem streamBits_cons (c : Chunk) (cs : List Chunk) : streamBits (c :: cs) = chunkBits c.1 c.2 ++ streamBits cs := rfl

/-- A valid chunk carries a bit, so an empty stream has no chunk. -/
theorem streamBits_eq_nil {cs : List Chunk} (hv : chunksValid cs) : streamBits cs = [] ↔ cs = [] := by
  refine ⟨fun h => ?_, fun h => by rw [h]; rfl⟩
  cases cs with
  | nil => rfl
  | cons c cs =>
    have h1 := (chunkValid_iff.1 (hv c List.mem_cons_self)).1
    rw [streamBits_cons, List.append_eq_nil_iff, ← List.length_eq_zero_iff, chunkBits_length] at h
    omega

/-! ## Runs of commands -/

theorem execAll_append (is js : List Instr) (s : State) :
    execAll (is ++ js) s =
      match execAll is s with
      | .next t => execAll js t
      | .fault f => .fault f
      | .refused r => .refused r := by
  induction is generalizing s with
  | nil => rfl
  | cons i is ih =>
    simp only [List.cons_append, execAll]
    cases exec i s with
    | next t => exact ih t
    | fault f => rfl
    | refused r => rfl

theorem execAll_append_of_next {is js : List Instr} {s t : State} (h : execAll is s = .next t) :
    execAll (is ++ js) s = execAll js t := by rw [execAll_append, h]

/-- Under an error a run of ignored commands changes nothing but RESP. -/
theorem execAll_of_error {is : List Instr} {s : State} (hg : ∀ i ∈ is, passesGate i = false) (he : s.err ≠ .none) :
    execAll is (respondStatus s) = .next (respondStatus s) := by
  induction is with
  | nil => rfl
  | cons i is ih =>
    rw [execAll, exec_of_error (hg i List.mem_cons_self) (by simpa using he)]
    exact ih fun j hj => hg j (List.mem_cons_of_mem _ hj)

/-! ## RESP does not matter to the loops -/

theorem readNode_respond (v : Word) (s : State) (i : NodeIdx) : readNode (respond v s) i = readNode s i := rfl

/-- How two flows compare whose states differ in RESP alone. -/
def Flow.setResp (v : Word) : Flow State → Flow State
  | .ok s => .ok (respond v s)
  | .fail e s => .fail e (respond v s)
  | .stop f => .stop f

theorem Flow.setResp_finish (v : Word) (x : Flow State) : (Flow.setResp v x).finish = x.finish := by
  cases x <;> rfl

theorem Flow.setResp_bind {x : Flow State} {k : State → Flow State} {v : Word}
    (hk : ∀ s, k (respond v s) = Flow.setResp v (k s)) : (Flow.setResp v x).bind k = Flow.setResp v (x.bind k) := by
  cases x with
  | ok s => exact hk s
  | fail e s => rfl
  | stop f => rfl

theorem decodeStep_respond (b : Bool) (v : Word) (s : State) :
    decodeStep b (respond v s) = Flow.setResp v (decodeStep b s) := by
  unfold decodeStep
  rw [readNode_respond, respond_pos]
  cases hr : readNode s s.pos with
  | ok r =>
    rw [Flow.bind_ok, Flow.bind_ok]
    split
    · rfl
    · rw [readNode_respond]
      cases hc : readNode s (childOf r b) with
      | ok rc =>
        rw [Flow.bind_ok, Flow.bind_ok]
        unfold moveTo checkBoundary
        cases rc.kind <;> simp only [respond, emit, reduceCtorEq, if_true, if_false]
        · split
          · split <;> rfl
          · rfl
        · split
          · split <;> rfl
          · rfl
      | fail e t => exact absurd hc readNode_ne_fail
      | stop f => rfl
  | fail e t => exact absurd hr readNode_ne_fail
  | stop f => rfl

theorem decodeBits_respond (bs : List Bool) (v : Word) (s : State) :
    decodeBits bs (respond v s) = Flow.setResp v (decodeBits bs s) := by
  induction bs generalizing s with
  | nil => rfl
  | cons b bs ih =>
    by_cases hd : s.phase = .done
    · rw [decodeBits_done (s := respond v s) (by simpa using hd), decodeBits_done hd]
      rfl
    · rw [decodeBits_cons (s := respond v s) (by simpa using hd), decodeBits_cons hd, decodeStep_respond,
        Flow.setResp_bind ih]

theorem walkStep_respond (b : Bool) (v : Word) (s : State) :
    walkStep b (respond v s) = Flow.setResp v (walkStep b s) := by
  unfold walkStep
  rw [readNode_respond, respond_walk]
  cases hr : readNode s s.walk with
  | ok r =>
    rw [Flow.bind_ok, Flow.bind_ok]
    split
    · rfl
    · split
      · rfl
      · rw [respond_ncount]
        split
        · rfl
        · unfold allocNode
          rw [respond_ncount]
          split <;> rfl
  | fail e t => exact absurd hr readNode_ne_fail
  | stop f => rfl

theorem walkBits_respond (bs : List Bool) (v : Word) (s : State) :
    walkBits bs (respond v s) = Flow.setResp v (walkBits bs s) := by
  induction bs generalizing s with
  | nil => rfl
  | cons b bs ih =>
    simp only [walkBits]
    rw [walkStep_respond, Flow.setResp_bind ih]

/-! ## A run of chunks is all its bits at once -/

/-- What a run of DBITS does, by its bits alone (R178). -/
theorem execAll_dstream {cs : List Chunk} (hv : chunksValid cs) (hne : cs ≠ []) (s : State) :
    execAll (dstream cs) s =
      if s.err ≠ .none then .next (respondStatus s)
      else if s.phase ≠ .decode ∧ s.phase ≠ .done then .next (raise .sequence s)
      else (decodeBits (streamBits cs) s).finish := by
  induction cs generalizing s with
  | nil => exact absurd rfl hne
  | cons c cs ih =>
    have hg : ∀ i ∈ dstream cs, passesGate i = false := by
      intro i hi
      obtain ⟨d, -, rfl⟩ := List.mem_map.1 hi
      rfl
    have hc := hv c List.mem_cons_self
    show execAll (.dbits c.1 c.2 :: dstream cs) s = _
    rw [execAll]
    by_cases he : s.err = .none
    · rw [if_neg (not_not.2 he)]
      have hx : exec (.dbits c.1 c.2) s =
          if s.phase ≠ .decode ∧ s.phase ≠ .done then .next (raise .sequence s)
          else (decodeBits (chunkBits c.1 c.2) s).finish := by
        simp only [exec, execDbits, gated_of_noError he, hc, Bool.true_eq_false, if_false]
      rw [hx]
      by_cases hp : s.phase ≠ .decode ∧ s.phase ≠ .done
      · rw [if_pos hp, if_pos hp]
        exact execAll_of_error (s := { s with err := stickyErr s.err .sequence }) hg (by simp [he])
      · rw [if_neg hp, if_neg hp, streamBits_cons, decodeBits_append]
        have hpd : s.phase = .decode ∨ s.phase = .done := by
          rwa [not_and_or, not_not, not_not] at hp
        cases hd : decodeBits (chunkBits c.1 c.2) s with
        | ok t =>
          simp only [Flow.finish_ok, Flow.bind_ok]
          by_cases hcs : cs = []
          · subst hcs
            rfl
          · rw [ih (fun d hd => hv d (List.mem_cons_of_mem _ hd)) hcs]
            have ht : t.err = .none := by rw [decodeBits_err hd, he]
            have htp : ¬((respondStatus t).phase ≠ .decode ∧ (respondStatus t).phase ≠ .done) := by
              rw [respondStatus_phase]
              have := decodeBits_invariant (P := fun u => u.phase = .decode ∨ u.phase = .done) ?_ hpd hd
              · rintro ⟨h1, h2⟩
                exact this.elim h1 h2
              · intro b u v hu hnd hw
                obtain ⟨r, rc, -, -, -, hb⟩ := decodeStep_eq_ok hw
                rcases moveTo_cases (childOf r b) rc { u with bitcnt := u.bitcnt + 1 } with ⟨-, hm⟩ | ⟨-, hm⟩ <;>
                  rw [hm] at hb <;> rcases checkBoundary_eq_ok hb with ⟨-, rfl⟩ | ⟨-, -, rfl⟩ <;>
                  first | exact hu | exact .inr rfl
            rw [if_neg (by simpa using ht), if_neg htp, respondStatus, decodeBits_respond, Flow.setResp_finish]
        | fail e t =>
          simp only [Flow.finish_fail, Flow.bind_fail]
          refine execAll_of_error (s := { t with err := stickyErr t.err e }) hg ?_
          obtain ⟨hf, rfl | rfl⟩ := decodeBits_fail_frame hd <;> rw [hf] <;> simp [he]
        | stop f => rfl
    · rw [if_pos he, exec_of_error rfl he]
      exact execAll_of_error hg he

/-- What a run of IBITS does, by its bits alone (R150). -/
theorem execAll_ibits {cs : List Chunk} (hv : chunksValid cs) (hne : cs ≠ []) (s : State) :
    execAll (cs.map fun c => .ibits c.1 c.2) s =
      if s.err ≠ .none then .next (respondStatus s)
      else if s.phase ≠ .idle ∧ s.phase ≠ .recon then .next (raise .sequence s)
      else ((enterRecon s).bind (walkBits (streamBits cs))).finish := by
  induction cs generalizing s with
  | nil => exact absurd rfl hne
  | cons c cs ih =>
    have hg : ∀ i ∈ cs.map fun c => Instr.ibits c.1 c.2, passesGate i = false := by
      intro i hi
      obtain ⟨d, -, rfl⟩ := List.mem_map.1 hi
      rfl
    have hc := hv c List.mem_cons_self
    rw [List.map_cons, execAll]
    by_cases he : s.err = .none
    · rw [if_neg (not_not.2 he)]
      have hx : exec (.ibits c.1 c.2) s =
          if s.phase ≠ .idle ∧ s.phase ≠ .recon then .next (raise .sequence s)
          else ((enterRecon s).bind (walkBits (chunkBits c.1 c.2))).finish := by
        simp only [exec, execIbits, gated_of_noError he, hc, Bool.true_eq_false, if_false]
      rw [hx]
      by_cases hp : s.phase ≠ .idle ∧ s.phase ≠ .recon
      · rw [if_pos hp, if_pos hp]
        exact execAll_of_error (s := { s with err := stickyErr s.err .sequence }) hg (by simp [he])
      · rw [if_neg hp, if_neg hp, streamBits_cons]
        have hpi : s.phase = .idle ∨ s.phase = .recon := by
          rwa [not_and_or, not_not, not_not] at hp
        cases hu : enterRecon s with
        | ok u =>
          rw [Flow.bind_ok, Flow.bind_ok, walkBits_append]
          have hue : u.err = .none := by rw [enterRecon_frame hu]; exact he
          have hup : u.phase = .recon := by
            rcases enterRecon_cases hu with ⟨-, -, rfl⟩ | ⟨h1, rfl⟩
            · rfl
            · exact hpi.resolve_left h1
          cases hd : walkBits (chunkBits c.1 c.2) u with
          | ok t =>
            simp only [Flow.finish_ok, Flow.bind_ok]
            by_cases hcs : cs = []
            · subst hcs
              rfl
            · rw [ih (fun d hd => hv d (List.mem_cons_of_mem _ hd)) hcs]
              have ht : t.err = .none := by rw [walkBits_frame hd]; exact hue
              have htp : t.phase = .recon := by rw [walkBits_frame hd]; exact hup
              have hnp : ¬((respondStatus t).phase ≠ .idle ∧ (respondStatus t).phase ≠ .recon) := by
                rintro ⟨-, h2⟩
                exact h2 (by simpa using htp)
              rw [if_neg (by simpa using ht), if_neg hnp, enterRecon_of_recon (by simpa using htp), Flow.bind_ok,
                respondStatus, walkBits_respond, Flow.setResp_finish]
          | fail e t =>
            simp only [Flow.finish_fail, Flow.bind_fail]
            refine execAll_of_error (s := { t with err := stickyErr t.err e }) hg ?_
            obtain ⟨hf, rfl | rfl⟩ := walkBits_fail_frame hd <;> rw [hf] <;> simp [hue]
          | stop f => rfl
        | fail e t => exact absurd hu enterRecon_ne_fail
        | stop f => rfl
    · rw [if_pos he, exec_of_error rfl he]
      exact execAll_of_error hg he

end Sys2Proof.Safety
end

