-- ==== Sys2Proof/Laws/Codes.lean ====
section
/-! SUPPORT. What the decoder does along a code (43_bit_decode R173): from where the path starts to the leaf it names. -/

namespace Sys2Proof.Safety

open Sys2Proof.Machine

/-- The state after the decoder has taken a path of `n` bits to a leaf that holds `c`. -/
def emitted (n : Nat) (c : Symbol) (s : State) : State :=
  { s with
    bitcnt := s.bitcnt + BitVec.ofNat 48 n
    pos := s.root
    out := s.out ++ [c]
    phase := if s.bitcnt.toNat + n = s.bitlen.toNat then .done else .decode }

/-- Decoding the bits of a path that ends at a leaf, within the bits owed, emits the leaf's symbol and ends at ROOT. -/
theorem decodeBits_path {code : List Bool} {s : State} {c : Symbol} {j : NodeIdx} (h : TreeOk s) (hp : s.phase = .decode)
    (hne : code ≠ []) (hf : follow s s.pos code = some j) (hl : isLeafOf s j c)
    (hb : s.bitcnt.toNat + code.length ≤ s.bitlen.toNat) : decodeBits code s = .ok (emitted code.length c s) := by
  induction code generalizing s with
  | nil => exact absurd rfl hne
  | cons b code ih =>
    have hlt := s.bitlen.isLt
    rw [List.length_cons] at hb
    have hsucc : (s.bitcnt + 1).toNat = s.bitcnt.toNat + 1 := bitcnt_succ (by omega)
    obtain ⟨r, hr⟩ : ∃ r, nodeAt s s.pos = some r := by
      cases hr : nodeAt s s.pos with
      | some r => exact ⟨r, rfl⟩
      | none => simp [follow, hr] at hf
    rw [follow_cons hr] at hf
    split at hf
    · simp at hf
    rename_i hc
    obtain ⟨rc, hrc⟩ := h.child_allocated hr hc
    rw [decodeBits_cons (by simp [hp]), decodeStep_transitions hr hrc]
    cases code with
    | nil =>
      simp only [follow, Option.some.injEq] at hf
      subst hf
      obtain ⟨rl, hrl, hk, rfl⟩ := isLeafOf_iff.1 hl
      rw [hrc] at hrl
      cases hrl
      rw [if_pos hk, Flow.bind_ok, decodeBits]
      have hiff : s.bitcnt + 1 = s.bitlen ↔ s.bitcnt.toNat + 1 = s.bitlen.toNat := by
        rw [← BitVec.toNat_inj, hsucc]
      simp only [emitted, List.length_cons, List.length_nil, Nat.zero_add, hiff, hp]
      rfl
    | cons d code =>
      have hk : rc.kind ≠ .leaf := by
        intro hk
        rw [h.follow_leaf hrc hk] at hf
        simp at hf
      rw [List.length_cons] at hb
      have hnb : s.bitcnt + 1 ≠ s.bitlen := by
        intro hx
        rw [← BitVec.toNat_inj, hsucc] at hx
        omega
      rw [if_neg hk, if_neg hnb, Flow.bind_ok]
      rw [ih (s := { s with bitcnt := s.bitcnt + 1, pos := childOf r b })
        (TreeOk.congr (s := s) rfl rfl rfl rfl h) hp (by simp)
        (by rw [← hf]; exact follow_congr (s := s) (t := { s with bitcnt := s.bitcnt + 1, pos := childOf r b }) rfl rfl _ _)
        (by rw [isLeafOf_iff] at hl ⊢; exact hl)
        (by show (s.bitcnt + 1).toNat + _ ≤ s.bitlen.toNat; rw [hsucc, List.length_cons]; omega)]
      have hadd : s.bitcnt + 1 + BitVec.ofNat 48 (code.length + 1) = s.bitcnt + BitVec.ofNat 48 (code.length + 1 + 1) := by
        apply BitVec.eq_of_toNat_eq
        simp only [BitVec.toNat_add, BitVec.toNat_ofNat, show (1 : BitCount).toNat = 1 from rfl]
        omega
      simp only [emitted, List.length_cons, hadd, hsucc]
      congr 2
      rw [show s.bitcnt.toNat + 1 + (code.length + 1) = s.bitcnt.toNat + (code.length + 1 + 1) by omega]

end Sys2Proof.Safety
end

