-- ==== Sys2Proof/Laws/PerInstr.lean ====
section
/-! SUPPORT. Facts about every command as syntax, one lemma per constructor: the opcode field of a command's word is the command's opcode (30_encoding R81, R85). -/

namespace Sys2Proof.Laws

/-- A concatenation as a number. -/
theorem toNat_append_eq {m n : Nat} (x : BitVec m) (y : BitVec n) : (x ++ y).toNat = x.toNat * 2 ^ n + y.toNat := by
  rw [BitVec.toNat_append, Nat.shiftLeft_eq, Nat.mul_comm, ← Nat.two_pow_add_eq_or_of_lt y.isLt]

/-- A field as a number. -/
theorem toNat_field (w : Word) (lo len : Nat) : (field w lo len).toNat = w.toNat / 2 ^ lo % 2 ^ len := by
  simp [field, BitVec.extractLsb'_toNat, Nat.shiftRight_eq_div_pow]

/-- A word as a number: its opcode above its operand bits. -/
theorem toNat_encode (i : Instr) : (encode i).toNat = i.opcode.toNat * 2 ^ 56 + i.operandBits.toNat := by
  rw [encode, toNat_append_eq]

theorem field_opcode_encode (i : Instr) : field (encode i) 56 8 = i.opcode := by
  apply BitVec.eq_of_toNat_eq
  rw [toNat_field, toNat_encode]
  have := i.operandBits.isLt
  have := i.opcode.isLt
  omega

namespace EncodedOpcode

/-- The opcode field of the command's word is its opcode. -/
def Statement (i : Instr) : Prop :=
  field (encode i) 56 8 = i.opcode

theorem nop : Statement .nop := field_opcode_encode _
theorem clr : Statement .clr := field_opcode_encode _
theorem setw (sym : Symbol) (val : Weight) : Statement (.setw sym val) := field_opcode_encode _
theorem incw (sym : Symbol) : Statement (.incw sym) := field_opcode_encode _
theorem build : Statement .build := field_opcode_encode _
theorem ibits (n : Nat) (payload : Payload) : Statement (.ibits n payload) := field_opcode_encode _
theorem ileaf (sym : Symbol) : Statement (.ileaf sym) := field_opcode_encode _
theorem dstart (len : BitCount) : Statement (.dstart len) := field_opcode_encode _
theorem dbits (n : Nat) (payload : Payload) : Statement (.dbits n payload) := field_opcode_encode _
theorem dend : Statement .dend := field_opcode_encode _
theorem rdreg (sel : Nat) : Statement (.rdreg sel) := field_opcode_encode _
theorem rdnode (idx : NodeIdx) : Statement (.rdnode idx) := field_opcode_encode _
theorem rdfreq (sym : Symbol) : Statement (.rdfreq sym) := field_opcode_encode _

end EncodedOpcode

end Sys2Proof.Laws
end

