-- ==== Sys2Proof/Laws/Encoding.lean ====
section
/-! SUPPORT. How the decoder reads a word: which words are legal, and the fields of a command's word. -/

namespace Sys2Proof.Laws

theorem checked_eq_ok_iff {f : Format} {w : Word} {i j : Instr} :
    checked f w i = .ok j ↔ reservedZero f w = true ∧ i = j := by
  unfold checked
  split <;> simp_all

/-- A field is 0 exactly when the word, above and below cut off, is. -/
theorem field_eq_zero_iff {w : Word} {lo len : Nat} : field w lo len = 0 ↔ w.toNat / 2 ^ lo % 2 ^ len = 0 := by
  rw [← toNat_field]
  exact ⟨fun h => by rw [h]; rfl, fun h => BitVec.eq_of_toNat_eq (by simpa using h)⟩

/-- Where the reserved bits of a format stand: the lowest, and how many. -/
def reservedAt : Format → Nat × Nat
  | .N => (0, 56)
  | .SW => (40, 16)
  | .Y => (8, 48)
  | .BT => (38, 18)
  | .LN => (48, 8)
  | .IX => (9, 47)
  | .SL => (4, 52)

theorem reservedZero_iff {f : Format} {w : Word} :
    reservedZero f w = true ↔ w.toNat / 2 ^ (reservedAt f).1 % 2 ^ (reservedAt f).2 = 0 := by
  cases f <;> simp only [reservedZero, beq_iff_eq] <;> exact field_eq_zero_iff

theorem ite_cases {α : Type} {c : Prop} [Decidable c] {a b x : α} (h : (if c then a else b) = x) :
    (c ∧ a = x) ∨ (¬c ∧ b = x) := by
  split at h
  · exact .inl ⟨‹_›, h⟩
  · exact .inr ⟨‹_›, h⟩

/-- A word is a command exactly when its opcode is the command's, its format's reserved bits are 0, and the command is
the one its fields give. -/
theorem decode_cases {w : Word} {i : Instr} (h : decode w = .ok i) :
    (field w 56 8 = 0x00#8 ∧ reservedZero .N w = true ∧ i = .nop) ∨
    (field w 56 8 = 0x01#8 ∧ reservedZero .N w = true ∧ i = .clr) ∨
    (field w 56 8 = 0x10#8 ∧ reservedZero .SW w = true ∧ i = .setw (field w 32 8) (field w 0 32)) ∨
    (field w 56 8 = 0x11#8 ∧ reservedZero .Y w = true ∧ i = .incw (field w 0 8)) ∨
    (field w 56 8 = 0x12#8 ∧ reservedZero .N w = true ∧ i = .build) ∨
    (field w 56 8 = 0x20#8 ∧ reservedZero .BT w = true ∧ i = .ibits (field w 32 6).toNat (field w 0 32)) ∨
    (field w 56 8 = 0x21#8 ∧ reservedZero .Y w = true ∧ i = .ileaf (field w 0 8)) ∨
    (field w 56 8 = 0x30#8 ∧ reservedZero .LN w = true ∧ i = .dstart (field w 0 48)) ∨
    (field w 56 8 = 0x31#8 ∧ reservedZero .BT w = true ∧ i = .dbits (field w 32 6).toNat (field w 0 32)) ∨
    (field w 56 8 = 0x32#8 ∧ reservedZero .N w = true ∧ i = .dend) ∨
    (field w 56 8 = 0x40#8 ∧ reservedZero .SL w = true ∧ i = .rdreg (field w 0 4).toNat) ∨
    (field w 56 8 = 0x41#8 ∧ reservedZero .IX w = true ∧ i = .rdnode (field w 0 9)) ∨
    (field w 56 8 = 0x42#8 ∧ reservedZero .Y w = true ∧ i = .rdfreq (field w 0 8)) := by
  rw [decode] at h
  generalize field w 56 8 = opc at h ⊢
  unfold decodeAs at h
  iterate 12
    rcases ite_cases h with ⟨ho, h⟩ | ⟨-, h⟩
    · exact .inl ⟨ho, (checked_eq_ok_iff.1 h).1, (checked_eq_ok_iff.1 h).2.symm⟩
    refine .inr ?_
  rcases ite_cases h with ⟨ho, h⟩ | ⟨-, h⟩
  · exact ⟨ho, (checked_eq_ok_iff.1 h).1, (checked_eq_ok_iff.1 h).2.symm⟩
  cases h

/-- A mask of all bits from `k` up, as the masks of R85 are. -/
theorem toNat_and_topMask (w : Word) (k : Nat) :
    (w &&& (BitVec.allOnes 64 <<< k)).toNat = w.toNat / 2 ^ k * 2 ^ k := by
  have : w &&& (BitVec.allOnes 64 <<< k) = (w >>> k) <<< k := by
    have hall : ∀ j (hj : j < 64), (BitVec.allOnes 64)[j] = true := fun j hj => BitVec.getElem_allOnes j hj
    generalize BitVec.allOnes 64 = ones at hall
    ext i hi
    simp only [BitVec.getElem_and, BitVec.getElem_shiftLeft, BitVec.getElem_ushiftRight]
    by_cases h : i < k
    · simp [h]
    · simp [h, hall, BitVec.getLsbD_eq_getElem hi, show k + (i - k) = i by omega]
  rw [this, BitVec.toNat_shiftLeft, BitVec.toNat_ushiftRight, Nat.shiftRight_eq_div_pow, Nat.shiftLeft_eq]
  exact Nat.mod_eq_of_lt (lt_of_le_of_lt (Nat.div_mul_le_self _ _) w.isLt)

/-- A row of R85: the word has the row's opcode, and its bits from `k` to 55 are 0. -/
theorem and_topMask_eq_iff (w : Word) {k : Nat} (hk : k ≤ 56) (opc : BitVec 8) :
    w &&& (BitVec.allOnes 64 <<< k) = BitVec.ofNat 64 (opc.toNat * 2 ^ 56) ↔
      w.toNat / 2 ^ 56 = opc.toNat ∧ w.toNat / 2 ^ k % 2 ^ (56 - k) = 0 := by
  have h := opc.isLt
  rw [← BitVec.toNat_inj, toNat_and_topMask, BitVec.toNat_ofNat, Nat.mod_eq_of_lt (by omega)]
  obtain ⟨d, hd⟩ : ∃ d, 56 = k + d := ⟨56 - k, by omega⟩
  have he : 56 - k = d := by omega
  rw [he, hd, pow_add, ← Nat.div_div_eq_div_mul]
  constructor
  · intro h
    have : w.toNat / 2 ^ k = opc.toNat * 2 ^ d :=
      Nat.eq_of_mul_eq_mul_right (show 0 < 2 ^ k by positivity) (by rw [h]; ring)
    rw [this]
    simp
  · rintro ⟨h1, h2⟩
    have := Nat.div_add_mod (w.toNat / 2 ^ k) (2 ^ d)
    rw [h1, h2] at this
    rw [← this]
    ring

open Sys2Proof.Safety in
/-- Every row of R85 masks all bits from some bit up, and matches its opcode there. -/
theorem matchMaskTable_rows : ∀ m ∈ matchMaskTable, ∃ k ≤ 56,
    m.mask = BitVec.allOnes 64 <<< k ∧ m.matchWord = BitVec.ofNat 64 (m.opc.toNat * 2 ^ 56) := by
  intro m hm
  simp only [matchMaskTable, List.mem_cons, List.not_mem_nil, or_false] at hm
  rcases hm with rfl | rfl | rfl | rfl | rfl | rfl | rfl | rfl | rfl | rfl | rfl | rfl | rfl
  · exact ⟨0, by decide, by decide, by decide⟩
  · exact ⟨0, by decide, by decide, by decide⟩
  · exact ⟨40, by decide, by decide, by decide⟩
  · exact ⟨8, by decide, by decide, by decide⟩
  · exact ⟨0, by decide, by decide, by decide⟩
  · exact ⟨38, by decide, by decide, by decide⟩
  · exact ⟨8, by decide, by decide, by decide⟩
  · exact ⟨48, by decide, by decide, by decide⟩
  · exact ⟨38, by decide, by decide, by decide⟩
  · exact ⟨0, by decide, by decide, by decide⟩
  · exact ⟨4, by decide, by decide, by decide⟩
  · exact ⟨9, by decide, by decide, by decide⟩
  · exact ⟨8, by decide, by decide, by decide⟩

/-- The opcode field of a command's word is the opcode of the command it decodes to. -/
theorem field_opcode_of_decode {w : Word} {i : Instr} (h : decode w = .ok i) : field w 56 8 = i.opcode := by
  rcases decode_cases h with h | h | h | h | h | h | h | h | h | h | h | h | h <;> obtain ⟨ho, -, rfl⟩ := h <;> exact ho

/-- The operand bits of a command's word, as a field. -/
theorem field_encode (i : Instr) {lo len : Nat} (h : lo + len ≤ 56) :
    (field (encode i) lo len).toNat = i.operandBits.toNat / 2 ^ lo % 2 ^ len := by
  rw [toNat_field, toNat_encode]
  obtain ⟨d, hd⟩ : ∃ d, 56 = lo + len + d := ⟨56 - (lo + len), by omega⟩
  have : i.opcode.toNat * 2 ^ 56 + i.operandBits.toNat =
      i.operandBits.toNat + 2 ^ lo * (2 ^ len * (i.opcode.toNat * 2 ^ d)) := by
    rw [show (2 : Nat) ^ 56 = 2 ^ lo * 2 ^ len * 2 ^ d from by rw [← pow_add, ← pow_add, ← hd]]
    ring
  rw [this, Nat.add_mul_div_left _ _ (by positivity), Nat.add_mul_mod_self_left]

end Sys2Proof.Laws
end

