-- ==== Sys2Proof/Laws/Header.lean ====
section
/-! SUPPORT. What a header entry does to the paths and the codes of a tree under reconstruction (42_tree_reconstruct R151, R152): a walk adds the prefixes of its bits to the paths, ILEAF adds one code. -/

namespace Sys2Proof.Safety

open Sys2Proof.Machine

/-- What a walk of bits `bs` from the position of path `w` makes of `s`: the old paths and the ones walked, the old codes. -/
structure Walked (w bs : List Bool) (s t : State) : Prop where
  sound : Inv t
  open_recon : t.phase = .recon
  at_end : follow t t.root (w ++ bs) = some t.walk
  keeps : ∀ p i, follow s s.root p = some i → follow t t.root p = some i
  adds : ∀ p i, follow t t.root p = some i → follow s s.root p = some i ∨ ∃ pre, pre <+: bs ∧ pre ≠ [] ∧ p = w ++ pre
  leaves : ∀ i c, isLeafOf t i c ↔ isLeafOf s i c
  count : t.ncount.toNat ≤ s.ncount.toNat + bs.length

theorem Inv.root_of_recon {s : State} (h : Inv s) (hp : s.phase = .recon) : s.root = 0 := by
  have hph := h.phase_ok
  simp only [PhaseOk, hp] at hph
  exact hph.2.1

theorem Inv.root_allocated {s : State} (h : Inv s) (hp : s.phase ≠ .idle) : s.root.toNat < s.ncount.toNat := by
  obtain ⟨r, hr, -⟩ := isInternal_iff.1 (h.hasTree hp)
  exact nodeAt_lt hr

theorem Walked.nil {w : List Bool} {s : State} (h : Inv s) (hp : s.phase = .recon)
    (hw : follow s s.root w = some s.walk) : Walked w [] s s where
  sound := h
  open_recon := hp
  at_end := by simpa using hw
  keeps := fun _ _ h => h
  adds := fun _ _ h => .inl h
  leaves := fun _ _ => Iff.rfl
  count := Nat.le_refl _

theorem Walked.trans {w bs cs : List Bool} {s t u : State} (h1 : Walked w bs s t) (h2 : Walked (w ++ bs) cs t u) :
    Walked w (bs ++ cs) s u where
  sound := h2.sound
  open_recon := h2.open_recon
  at_end := by rw [← List.append_assoc]; exact h2.at_end
  keeps := fun p i h => h2.keeps p i (h1.keeps p i h)
  adds := by
    intro p i h
    rcases h2.adds p i h with h | ⟨pre, hpre, hne, rfl⟩
    · rcases h1.adds p i h with h | ⟨pre, hpre, hne, rfl⟩
      · exact .inl h
      · exact .inr ⟨pre, hpre.trans (List.prefix_append _ _), hne, rfl⟩
    · refine .inr ⟨bs ++ pre, (List.prefix_append_right_inj bs).2 hpre, ?_, by simp⟩
      simp [hne]
  leaves := fun i c => (h2.leaves i c).trans (h1.leaves i c)
  count := by
    have := h1.count
    have := h2.count
    rw [List.length_append]
    omega

/-- One bit (R151). -/
theorem walkStep_walked {w : List Bool} {b : Bool} {s t : State} (h : Inv s) (hp : s.phase = .recon)
    (hw : follow s s.root w = some s.walk) (hs : walkStep b s = .ok t) : Walked w [b] s t := by
  obtain ⟨hti, htp⟩ := walkStep_keeps_inv ⟨h, hp⟩ hs
  obtain ⟨r, hr, hk, ⟨hc, rfl⟩ | ⟨hc, hn, rfl⟩⟩ := walkStep_eq_ok hs
  · have hf : ∀ p, follow { s with walk := childOf r b } s.root p = follow s s.root p := fun p =>
      follow_congr (s := s) (t := { s with walk := childOf r b }) rfl rfl _ _
    refine ⟨hti, htp, ?_, ?_, ?_, fun i c => Iff.rfl, Nat.le_add_right _ _⟩
    · show follow _ s.root _ = some (childOf r b)
      rw [hf]
      exact follow_snoc.2 ⟨_, r, hw, hr, hc, rfl⟩
    · intro p i hi
      show follow _ s.root p = some i
      rw [hf, hi]
    · intro p i hi
      change follow _ s.root p = some i at hi
      rw [hf] at hi
      exact .inl hi
  · have htree := h.tree
    have hlt := nodeAt_lt hr
    have hlt' : s.root.toNat < s.ncount.toNat := h.root_allocated (by simp [hp])
    have hat := nodeAt_grown hr b hn
    have hne : s.ncount ≠ s.walk := fun hx => by rw [hx] at hlt; omega
    have hnn : s.ncount ≠ Config.nil := ne_nil_of_lt hn
    have hroot : (grown b r s).root = s.root := rfl
    have hkeep : ∀ p i, follow s s.root p = some i → follow (grown b r s) s.root p = some i := by
      intro p
      induction p using List.reverseRecOn with
      | nil => exact fun i hi => hi
      | append_singleton q d ih =>
        intro i hi
        obtain ⟨k, rk, hk1, hrk, hck, rfl⟩ := follow_snoc.1 hi
        have hkn : k ≠ s.ncount := fun hx => by have := nodeAt_lt hrk; rw [hx] at this; omega
        by_cases hkw : k = s.walk
        · subst hkw
          rw [hr] at hrk
          cases hrk
          have hbd : b ≠ d := fun hx => hck (hx ▸ hc)
          refine follow_snoc.2 ⟨_, _, ih _ hk1, by rw [hat, if_pos rfl], ?_, childOf_withChild_other r hbd _⟩
          rw [childOf_withChild_other r hbd]
          exact hck
        · exact follow_snoc.2 ⟨_, rk, ih _ hk1, by rw [hat, if_neg hkw, if_neg hkn, hrk], hck, rfl⟩
    have hadd : ∀ p i, follow (grown b r s) s.root p = some i →
        follow s s.root p = some i ∨ (p = w ++ [b] ∧ i = s.ncount) := by
      intro p
      induction p using List.reverseRecOn with
      | nil => exact fun i hi => .inl hi
      | append_singleton q d ih =>
        intro i hi
        obtain ⟨k, rk, hk1, hrk, hck, rfl⟩ := follow_snoc.1 hi
        rcases ih _ hk1 with hk1 | ⟨-, rfl⟩
        · have hka := htree.follow_allocated hlt' hk1
          have hkn : k ≠ s.ncount := fun hx => by rw [hx] at hka; omega
          by_cases hkw : k = s.walk
          · subst hkw
            rw [hat, if_pos rfl] at hrk
            cases hrk
            have hq := htree.path_unique hk1 hw
            subst hq
            by_cases hbd : b = d
            · subst hbd
              exact .inr ⟨rfl, by cases b <;> rfl⟩
            · rw [childOf_withChild_other r hbd] at hck ⊢
              exact .inl (follow_snoc.2 ⟨_, r, hk1, hr, hck, rfl⟩)
          · rw [hat, if_neg hkw, if_neg hkn] at hrk
            exact .inl (follow_snoc.2 ⟨_, rk, hk1, hrk, hck, rfl⟩)
        · rw [hat, if_neg hne, if_pos rfl] at hrk
          cases hrk
          exact absurd (by cases d <;> rfl) hck
    refine ⟨hti, htp, ?_, fun p i hi => hkeep p i hi, ?_, ?_, ?_⟩
    · refine follow_snoc.2 ⟨_, _, hkeep _ _ hw, by rw [hat, if_pos rfl], ?_, ?_⟩
      · cases b <;> exact hnn
      · cases b <;> rfl
    · intro p i hi
      rcases hadd p i hi with hi | ⟨rfl, -⟩
      · exact .inl hi
      · exact .inr ⟨[b], List.prefix_refl _, by simp, rfl⟩
    · intro i c
      rw [isLeafOf_iff, isLeafOf_iff, hat]
      by_cases hiw : i = s.walk
      · subst hiw
        rw [if_pos rfl, hr]
        cases b <;> simp [withChild, hk]
      · rw [if_neg hiw]
        by_cases hin : i = s.ncount
        · subst hin
          rw [if_pos rfl]
          constructor
          · rintro ⟨_, hx, hl, -⟩
            cases hx
            cases hl
          · rintro ⟨_, hx, -⟩
            have := nodeAt_lt hx
            omega
        · rw [if_neg hin]
    · show (s.ncount + 1).toNat ≤ _
      rw [ncount_succ hn]
      exact Nat.le_refl _

/-- The bits of a code (R150). -/
theorem walkBits_walked {bs w : List Bool} {s t : State} (h : Inv s) (hp : s.phase = .recon)
    (hw : follow s s.root w = some s.walk) (hs : walkBits bs s = .ok t) : Walked w bs s t := by
  induction bs generalizing w s with
  | nil =>
    cases hs
    exact .nil h hp hw
  | cons b bs ih =>
    obtain ⟨u, hu, hs⟩ := Flow.bind_eq_ok hs
    have h1 := walkStep_walked h hp hw hu
    exact h1.trans (ih h1.sound h1.open_recon h1.at_end hs)

/-- A walk of bits succeeds where it passes no leaf and the paths it has yet to make find room. -/
theorem walkBits_succeeds {bs w : List Bool} {s : State} (h : Inv s) (hp : s.phase = .recon)
    (hw : follow s s.root w = some s.walk)
    (hleaf : ∀ pre b post, bs = pre ++ b :: post → ∀ c, ¬ hasCode s (w ++ pre) c)
    (hroom : ∀ pre b post u, bs = pre ++ b :: post → Walked w pre s u → u.ncount.toNat = Config.nodeCap →
      ∃ i, follow u u.root (w ++ pre ++ [b]) = some i) :
    ∃ t, walkBits bs s = .ok t ∧ Walked w bs s t := by
  cases hx : walkBits bs s with
  | ok t => exact ⟨t, rfl, walkBits_walked h hp hw hx⟩
  | stop f => exact absurd hx (walkBits_ne_stop ⟨h, hp⟩)
  | fail e t =>
    obtain ⟨pre, b, post, rfl, hpre, hstep⟩ := walkBits_eq_fail hx
    have hd := walkBits_walked h hp hw hpre
    obtain ⟨-, r, hr, ⟨hk, -⟩ | ⟨hk, hc, hn, -⟩⟩ := walkStep_eq_fail hstep
    · have hl : isLeafOf s t.walk r.sym := (hd.leaves _ _).1 (isLeafOf_iff.2 ⟨r, hr, hk, rfl⟩)
      obtain ⟨rs, hrs, -⟩ := isLeafOf_iff.1 hl
      obtain ⟨p, hp'⟩ := h.tree.path_exists (nodeAt_lt hrs)
      have hpw := hd.sound.tree.path_unique (hd.keeps _ _ hp') hd.at_end
      subst hpw
      exact absurd ⟨_, hp', hl⟩ (hleaf pre b post rfl r.sym)
    · obtain ⟨i, hi⟩ := hroom pre b post t rfl hd hn
      obtain ⟨k, r', hk', hr', hc', -⟩ := follow_snoc.1 hi
      rw [hd.at_end, Option.some.injEq] at hk'
      subst hk'
      rw [hr] at hr'
      cases hr'
      exact absurd hc hc'

/-- A walk from a record without children at the end of the node memory makes a chain of new records (R151). -/
theorem walkBits_fresh (bs : List Bool) {s : State} (hw : nodeAt s s.walk = some freshRec)
    (hc : s.walk.toNat + 1 = s.ncount.toNat) (hn : s.ncount.toNat + bs.length ≤ Config.nodeCap) :
    ∃ t, walkBits bs s = .ok t ∧ t.walk.toNat = s.walk.toNat + bs.length ∧
      t.ncount.toNat = s.ncount.toNat + bs.length := by
  induction bs generalizing s with
  | nil => exact ⟨s, rfl, rfl, rfl⟩
  | cons b bs ih =>
    rw [List.length_cons] at hn ⊢
    have hcap : s.ncount.toNat < Config.nodeCap := by omega
    have hne : s.ncount ≠ s.walk := fun hx => by
      rw [hx] at hc
      omega
    have hsucc : (grown b freshRec s).ncount.toNat = s.ncount.toNat + 1 := ncount_succ hcap
    obtain ⟨t, ht, h1, h2⟩ := ih (s := grown b freshRec s)
      (by show nodeAt _ s.ncount = _; rw [nodeAt_grown hw b hcap, if_neg hne, if_pos rfl]) hsucc.symm (by omega)
    refine ⟨t, ?_, ?_, by omega⟩
    · rw [walkBits, walkStep_grow hw rfl (by cases b <;> rfl) hcap]
      exact ht
    · rw [h1]
      show s.ncount.toNat + _ = _
      omega

/-- A walk along a path of the tree only moves WALK (R150: it "allocates nothing"). -/
theorem walkBits_existing {bs : List Bool} {s : State} {j : NodeIdx} (h : TreeOk s) (hf : follow s s.walk bs = some j) :
    walkBits bs s = .ok { s with walk := j } := by
  induction bs generalizing s j with
  | nil =>
    simp only [follow, Option.some.injEq] at hf
    subst hf
    rfl
  | cons b bs ih =>
    cases hr : nodeAt s s.walk with
    | none => simp [follow, hr] at hf
    | some r =>
      rw [follow_cons hr] at hf
      split at hf
      · cases hf
      · rename_i hc
        have hk : r.kind = .internal := kind_ne_leaf.1 fun hk => hc (h.leaf_child hr hk b)
        rw [walkBits, walkStep_child hr hk hc, Flow.bind_ok]
        exact ih (s := { s with walk := childOf r b }) (TreeOk.congr (s := s) rfl rfl rfl rfl h)
          ((follow_congr (s := s) (t := { s with walk := childOf r b }) rfl rfl _ _).trans hf)

/-- What a walk does to the records: an old one gets at most the children it lacks, and a LEAF none; the new ones are
INTERNAL, of weight 0 (R150, R151, R155). -/
structure Grew (s t : State) : Prop where
  count : s.ncount.toNat ≤ t.ncount.toNat
  old : ∀ i r, nodeAt s i = some r → ∃ r', nodeAt t i = some r' ∧ r' = { r with c0 := r'.c0, c1 := r'.c1 } ∧
    (r.c0 ≠ Config.nil → r'.c0 = r.c0) ∧ (r.c1 ≠ Config.nil → r'.c1 = r.c1) ∧ (r.kind = .leaf → r' = r)
  new : ∀ i r', nodeAt t i = some r' → s.ncount.toNat ≤ i.toNat → r'.kind = .internal ∧ r'.sym = 0 ∧ r'.weight = 0

theorem Grew.refl (s : State) : Grew s s where
  count := Nat.le_refl _
  old := fun _ r h => ⟨r, h, rfl, fun _ => rfl, fun _ => rfl, fun _ => rfl⟩
  new := fun _ _ h hi => absurd (nodeAt_lt h) (not_lt.2 hi)

theorem Grew.step {b : Bool} {s t u : State} (h : Grew s t) (hs : walkStep b t = .ok u) : Grew s u := by
  obtain ⟨r, hr, hk, ⟨hc, rfl⟩ | ⟨hc, hn, rfl⟩⟩ := walkStep_eq_ok hs
  · exact ⟨h.count, h.old, h.new⟩
  · have hat := nodeAt_grown hr b hn
    refine ⟨?_, ?_, ?_⟩
    · show _ ≤ (t.ncount + 1).toNat
      rw [ncount_succ hn]
      exact Nat.le_succ_of_le h.count
    · intro i q hq
      obtain ⟨q', hq', e, f0, f1, fl⟩ := h.old i q hq
      rw [hat]
      by_cases hi : i = t.walk
      · subst hi
        rw [hr, Option.some.injEq] at hq'
        subst hq'
        rw [if_pos rfl]
        refine ⟨_, rfl, ?_, ?_, ?_, fun hx => absurd ((congrArg NodeRec.kind (fl hx)).trans hx) hk⟩
        · rw [e]
          cases b <;> rfl
        · intro hx
          cases b
          · exact absurd hc (by rw [childOf, if_neg (by decide), f0 hx]; exact hx)
          · exact f0 hx
        · intro hx
          cases b
          · exact f1 hx
          · exact absurd hc (by rw [childOf, if_pos rfl, f1 hx]; exact hx)
      · have hne : i ≠ t.ncount := fun hx => by
          have := nodeAt_lt hq'
          rw [hx] at this
          exact lt_irrefl _ this
        rw [if_neg hi, if_neg hne]
        exact ⟨q', hq', e, f0, f1, fl⟩
    · intro i q hq hi
      rw [hat] at hq
      split at hq
      · rename_i hx
        subst hx
        cases hq
        have := h.new _ r hr hi
        cases b <;> exact this
      · split at hq
        · cases hq
          exact ⟨rfl, rfl, rfl⟩
        · exact h.new _ q hq hi

/-- A walk grows the tree, also where a bit of it fails. -/
theorem walkBits_grew {bs : List Bool} {s t : State} (hs : walkBits bs s = .ok t ∨ ∃ e, walkBits bs s = .fail e t) :
    Grew s t := by
  rcases hs with hs | ⟨e, hs⟩
  · exact walkBits_invariant (P := Grew s) (fun _ _ _ h => h.step) (Grew.refl s) hs
  · exact walkBits_fail_invariant (P := Grew s) (fun _ _ _ h => h.step) (Grew.refl s) hs

/-- A path whose record no longer path extends has no child. -/
theorem child_nil_of_paths {s : State} {w : List Bool} {i : NodeIdx} {r : NodeRec}
    (hw : follow s s.root w = some i) (hr : nodeAt s i = some r) (hno : ∀ b, follow s s.root (w ++ [b]) = none) :
    r.c0 = Config.nil ∧ r.c1 = Config.nil := by
  have : ∀ b, childOf r b = Config.nil := by
    intro b
    by_contra hc
    have := follow_snoc.2 ⟨i, r, hw, hr, hc, rfl⟩
    rw [hno b] at this
    cases this
  exact ⟨this false, this true⟩

/-- ILEAF at the end of a new code (R152): it marks the leaf and adds its code. -/
theorem markLeaf_codes {w : List Bool} {c : Symbol} {s : State} (h : Inv s) (hp : s.phase = .recon)
    (hw : follow s s.root w = some s.walk) (hne : w ≠ []) (hleaf : ∀ d, ¬ hasCode s w d)
    (hno : ∀ b, follow s s.root (w ++ [b]) = none) :
    markLeaf c s = .ok (marked c s) ∧ (∀ p, follow (marked c s) s.root p = follow s s.root p) ∧
      ∀ p d, hasCode (marked c s) p d ↔ hasCode s p d ∨ (p = w ∧ d = c) := by
  have hwalk : s.walk ≠ s.root := fun hx =>
    hne (h.tree.path_unique (hx ▸ hw) (by simp [follow]))
  obtain ⟨r, hr⟩ := h.tree.exists_nodeAt (h.tree.follow_allocated (h.root_allocated (by simp [hp])) hw)
  have hk : r.kind ≠ .leaf := fun hk => hleaf r.sym ⟨_, hw, isLeafOf_iff.2 ⟨r, hr, hk, rfl⟩⟩
  obtain ⟨h0, h1⟩ := child_nil_of_paths hw hr hno
  have hat := nodeAt_marked hr c
  have hf : ∀ p i, follow (marked c s) i p = follow s i p := by
    intro p
    induction p with
    | nil => exact fun i => rfl
    | cons b p ih =>
      intro i
      by_cases hi : s.walk = i
      · subst hi
        rw [follow_cons hr, follow_cons (r := leafRec c 0) (by rw [hat, if_pos rfl])]
        cases b <;> simp [childOf, leafRec, h0, h1]
      · have : nodeAt (marked c s) i = nodeAt s i := by rw [hat, if_neg hi]
        cases hn : nodeAt s i with
        | none => simp only [follow, this, hn]
        | some q => rw [follow_cons hn, follow_cons (this.trans hn), ih]
  refine ⟨?_, fun p => hf p _, fun p d => ?_⟩
  · unfold markLeaf
    rw [if_neg hwalk, readNode_of_some hr, Flow.bind_ok, if_neg hk, if_neg (by simp [h0, h1])]
    rfl
  · constructor
    · rintro ⟨i, hi, hl⟩
      change follow _ s.root p = some i at hi
      rw [hf] at hi
      obtain ⟨q, hq, hqk, rfl⟩ := isLeafOf_iff.1 hl
      rw [hat] at hq
      split at hq
      · rename_i hx
        subst hx
        cases hq
        exact .inr ⟨h.tree.path_unique hi hw, rfl⟩
      · exact .inl ⟨i, hi, isLeafOf_iff.2 ⟨q, hq, hqk, rfl⟩⟩
    · rintro (⟨i, hi, hl⟩ | ⟨rfl, rfl⟩)
      · refine ⟨i, (hf _ _).trans hi, ?_⟩
        obtain ⟨q, hq, hqk, rfl⟩ := isLeafOf_iff.1 hl
        refine isLeafOf_iff.2 ⟨q, ?_, hqk, rfl⟩
        rw [hat, if_neg, hq]
        rintro rfl
        rw [hr] at hq
        cases hq
        exact hk hqk
      · exact ⟨s.walk, (hf _ _).trans hw, isLeafOf_iff.2 ⟨leafRec d 0, by rw [hat, if_pos rfl], rfl, rfl⟩⟩

/-! ## Counting records by their paths -/

/-- Where every path of one tree is a path of another, each record has its own record in the other. -/
theorem exists_injective_of_paths {s t : State} (hs : TreeOk s) (ht : TreeOk t) (hroot : t.root.toNat < t.ncount.toNat)
    (h : ∀ p i, follow s s.root p = some i → ∃ j, follow t t.root p = some j) :
    ∃ f : Fin s.ncount.toNat → Fin t.ncount.toNat, Function.Injective f ∧ ∀ i : Fin s.ncount.toNat, ∃ p,
      follow s s.root p = some (BitVec.ofNat 9 i) ∧ follow t t.root p = some (BitVec.ofNat 9 (f i)) := by
  have hex : ∀ i : Fin s.ncount.toNat, ∃ j : Fin t.ncount.toNat, ∃ p,
      follow s s.root p = some (BitVec.ofNat 9 i) ∧ follow t t.root p = some (BitVec.ofNat 9 j) := by
    intro i
    have hi : (BitVec.ofNat 9 i.1).toNat = i.1 := by
      have := s.ncount.isLt
      have := i.isLt
      simp only [BitVec.toNat_ofNat]
      omega
    obtain ⟨p, hp⟩ := hs.path_exists (i := BitVec.ofNat 9 i) (by rw [hi]; exact i.isLt)
    obtain ⟨j, hj⟩ := h p _ hp
    refine ⟨⟨j.toNat, ht.follow_allocated hroot hj⟩, p, hp, ?_⟩
    simpa using hj
  choose f hf using hex
  refine ⟨f, ?_, hf⟩
  intro a b hab
  obtain ⟨p, hp, hp'⟩ := hf a
  obtain ⟨q, hq, hq'⟩ := hf b
  rw [hab] at hp'
  have := ht.path_unique hp' hq'
  subst this
  rw [hp, Option.some.injEq, ← BitVec.toNat_inj] at hq
  have := s.ncount.isLt
  have := a.isLt
  have := b.isLt
  simp only [BitVec.toNat_ofNat] at hq
  exact Fin.ext (by omega)

/-- A tree with all the paths of another has at least as many records. -/
theorem ncount_le_of_paths {s t : State} (hs : TreeOk s) (ht : TreeOk t) (hroot : t.root.toNat < t.ncount.toNat)
    (h : ∀ p i, follow s s.root p = some i → ∃ j, follow t t.root p = some j) : s.ncount.toNat ≤ t.ncount.toNat := by
  obtain ⟨f, hf, -⟩ := exists_injective_of_paths hs ht hroot h
  simpa using Fintype.card_le_of_injective f hf

/-- A tree with all the paths of another and no more records has no other path. -/
theorem paths_of_ncount_le {s t : State} (hs : TreeOk s) (ht : TreeOk t) (hroot : t.root.toNat < t.ncount.toNat)
    (h : ∀ p i, follow s s.root p = some i → ∃ j, follow t t.root p = some j) (hn : t.ncount.toNat ≤ s.ncount.toNat)
    {p : List Bool} {j : NodeIdx} (hj : follow t t.root p = some j) : ∃ i, follow s s.root p = some i := by
  obtain ⟨f, hf, hp⟩ := exists_injective_of_paths hs ht hroot h
  have hle : s.ncount.toNat ≤ t.ncount.toNat := by simpa using Fintype.card_le_of_injective f hf
  have hsurj := ((Fintype.bijective_iff_injective_and_card f).2 ⟨hf, by simp; omega⟩).2
  obtain ⟨i, hi⟩ := hsurj ⟨j.toNat, ht.follow_allocated hroot hj⟩
  obtain ⟨q, hq, hq'⟩ := hp i
  rw [hi] at hq'
  have := ht.path_unique hj (q := q) (by simpa using hq')
  subst this
  exact ⟨_, hq⟩

/-! ## One entry of a header -/

/-- The paths of a state where no tree is, and of a reconstruction that has just started: none but the root's. -/
theorem enterRecon_paths {s u : State} (h : Inv s) (hp : s.phase = .idle ∨ (s.phase = .recon ∧ s.walk = s.root))
    (hu : enterRecon s = .ok u) :
    Inv u ∧ u.phase = .recon ∧ u.walk = u.root ∧ u.err = s.err ∧
      (∀ p i, follow u u.root p = some i → p = [] ∨ ∃ j, follow s s.root p = some j) ∧
      (∀ p c, hasCode u p c ↔ hasCode s p c) ∧
      u.ncount.toNat = (if s.phase = .idle then 1 else s.ncount.toNat) := by
  rcases hp with hp | ⟨hp, hw⟩
  · have hph := h.phase_ok
    simp only [PhaseOk, hp] at hph
    rw [enterRecon_of_idle hp] at hu
    obtain ⟨hn, rfl⟩ := startRecon_cases hu
    obtain ⟨hi, hr⟩ := started_inv h hp
    have hroot : (started s).root = s.ncount := rfl
    have hnone : ∀ i, nodeAt s i = none := by
      intro i
      cases hx : nodeAt s i with
      | none => rfl
      | some r =>
        have := nodeAt_lt hx
        simp [hph.2.1] at this
    have hat : ∀ j, nodeAt (started s) j = if s.ncount = j then some freshRec else none := by
      intro j
      rw [show nodeAt (started s) j = nodeAt (pushNode freshRec s) j from nodeAt_congr rfl rfl j, nodeAt_pushNode hn, hnone]
    have hpaths : ∀ p i, follow (started s) (started s).root p = some i → p = [] := by
      intro p i hf
      cases p with
      | nil => rfl
      | cons b p =>
        rw [hroot, follow_cons (r := freshRec) (by rw [hat, if_pos rfl])] at hf
        cases b <;> simp [childOf, internalRec] at hf
    refine ⟨hi, hr, rfl, rfl, fun p i hf => .inl (hpaths p i hf), fun p c => ?_, ?_⟩
    · constructor
      · rintro ⟨i, hf, hl⟩
        obtain ⟨r, hr', hk, -⟩ := isLeafOf_iff.1 hl
        rw [hat] at hr'
        split at hr'
        · cases hr'
          cases hk
        · cases hr'
      · rintro ⟨i, -, hl⟩
        obtain ⟨r, hr', -⟩ := isLeafOf_iff.1 hl
        rw [hnone] at hr'
        cases hr'
    · rw [if_pos hp]
      show (s.ncount + 1).toNat = 1
      rw [hph.2.1]
      rfl
  · rw [enterRecon_of_recon hp, Flow.ok.injEq] at hu
    subst hu
    exact ⟨h, hp, hw, rfl, fun p i hf => .inr ⟨i, hf⟩, fun _ _ => Iff.rfl, by rw [if_neg (by simp [hp])]⟩

/-- One entry whose code is new and finds room (R151, R152): its run and what it leaves. -/
theorem execAll_ientry {s : State} {sym : Symbol} {cs : List Chunk} (h : Inv s) (he : s.err = .none)
    (hp : s.phase = .idle ∨ (s.phase = .recon ∧ s.walk = s.root)) (hv : chunksValid cs) (hne : cs ≠ [])
    (hnew : follow s s.root (streamBits cs) = none) (hpre : ∀ code c, hasCode s code c → ¬ code <+: streamBits cs)
    (hroom : ∀ pre b post v, streamBits cs = pre ++ b :: post → Inv v → v.phase = .recon →
      (∀ p i, follow v v.root p = some i → p <+: pre ∨ ∃ j, follow s s.root p = some j) →
      v.ncount.toNat ≤ (if s.phase = .idle then 1 else s.ncount.toNat) + pre.length →
      v.ncount.toNat = Config.nodeCap → ∃ i, follow v v.root (pre ++ [b]) = some i) :
    ∃ t, execAll (ientry sym cs) s = .next t ∧ Inv t ∧ t.err = .none ∧ t.phase = .recon ∧ t.walk = t.root ∧
      (∀ p i, follow t t.root p = some i → p <+: streamBits cs ∨ ∃ j, follow s s.root p = some j) ∧
      ∀ code c, hasCode t code c ↔ hasCode s code c ∨ (code = streamBits cs ∧ c = sym) := by
  have hbits : streamBits cs ≠ [] := fun hx => hne ((streamBits_eq_nil hv).1 hx)
  obtain ⟨u, hu, -, -⟩ := enterRecon_spec h (hp.imp_right And.left)
  obtain ⟨hui, hup, huw, hue, hupaths, hucodes, hun⟩ := enterRecon_paths h hp hu
  have hw0 : follow u u.root [] = some u.walk := by simp [follow, huw]
  obtain ⟨v, hv1, hd⟩ := walkBits_succeeds (bs := streamBits cs) hui hup hw0
    (fun pre b post hx c hc => hpre pre c ((hucodes _ _).1 (by simpa using hc)) (hx ▸ List.prefix_append _ _))
    (by
      intro pre b post v hx hd hn
      refine hroom pre b post v hx hd.sound hd.open_recon ?_ (hun ▸ hd.count) hn
      intro p i hi
      rcases hd.adds p i hi with hi | ⟨q, hq, -, rfl⟩
      · rcases hupaths p i hi with rfl | hj
        · exact .inl List.nil_prefix
        · exact .inr hj
      · exact .inl (by simpa using hq))
  have hfv : ∀ i p, follow (respondStatus v) i p = follow v i p := follow_congr rfl rfl
  have hcv : ∀ p c, hasCode (respondStatus v) p c ↔ hasCode v p c := by
    intro p c
    simp only [hasCode, hfv]
    rfl
  have hvcodes : ∀ p c, hasCode v p c ↔ hasCode s p c := by
    intro p c
    rw [← hucodes]
    constructor
    · rintro ⟨i, hi, hl⟩
      have hl' := (hd.leaves i c).1 hl
      obtain ⟨r, hr, -⟩ := isLeafOf_iff.1 hl'
      obtain ⟨q, hq⟩ := hui.tree.path_exists (nodeAt_lt hr)
      have := hd.sound.tree.path_unique (hd.keeps _ _ hq) hi
      subst this
      exact ⟨i, hq, hl'⟩
    · rintro ⟨i, hi, hl⟩
      exact ⟨i, hd.keeps _ _ hi, (hd.leaves i c).2 hl⟩
  have hend : follow (respondStatus v) (respondStatus v).root (streamBits cs) = some (respondStatus v).walk := by
    rw [hfv]
    simpa using hd.at_end
  have hpathv : ∀ p i, follow v v.root p = some i → p <+: streamBits cs ∨ ∃ j, follow s s.root p = some j := by
    intro p i hi
    rcases hd.adds p i hi with hi | ⟨q, hq, -, rfl⟩
    · rcases hupaths p i hi with rfl | hj
      · exact .inl List.nil_prefix
      · exact .inr hj
    · exact .inl (by simpa using hq)
  have hve : v.err = .none := by
    rw [walkBits_frame hv1]
    exact hue.trans he
  obtain ⟨hm, hmf, hmc⟩ := markLeaf_codes (c := sym) hd.sound.respondStatus hd.open_recon hend hbits
    (fun d hx => hpre _ _ ((hvcodes _ _).1 ((hcv _ _).1 hx)) (List.prefix_refl _))
    (by
      intro b
      rw [hfv]
      cases hx : follow v (respondStatus v).root (streamBits cs ++ [b]) with
      | none => rfl
      | some i =>
        exfalso
        rcases hpathv _ _ hx with hl | ⟨j, hj⟩
        · have := hl.length_le
          simp at this
        · rw [follow_append, hnew] at hj
          cases hj)
  have hrun : execAll (ientry sym cs) s = .next (respondStatus (marked sym (respondStatus v))) := by
    have h1 : execAll (cs.map fun c => .ibits c.1 c.2) s = .next (respondStatus v) := by
      rw [execAll_ibits hv hne, if_neg (by simp [he]), if_neg (by rcases hp with hp | ⟨hp, -⟩ <;> simp [hp]), hu, Flow.bind_ok,
        hv1]
      rfl
    unfold ientry
    rw [execAll_append_of_next h1]
    have hvp : (respondStatus v).phase = .recon := hd.open_recon
    have hve' : (respondStatus v).err = .none := hve
    simp only [execAll, exec, execIleaf, gated_of_noError hve', hvp, enterRecon_of_recon hvp, Flow.bind_ok, hm]
    rfl
  obtain ⟨hti, htp⟩ := markLeaf_keeps_inv ⟨hd.sound.respondStatus, hd.open_recon⟩ hm
  have hft : ∀ i p, follow (respondStatus (marked sym (respondStatus v))) i p = follow (marked sym (respondStatus v)) i p :=
    follow_congr rfl rfl
  refine ⟨_, hrun, hti.respondStatus, hve, htp, rfl, ?_, ?_⟩
  · intro p i hi
    rw [hft] at hi
    change follow _ (respondStatus v).root p = some i at hi
    rw [hmf, hfv] at hi
    exact hpathv p i hi
  · intro code c
    have : hasCode (respondStatus (marked sym (respondStatus v))) code c ↔ hasCode (marked sym (respondStatus v)) code c := by
      simp only [hasCode, hft]
      rfl
    rw [this, hmc, hcv, hvcodes]

end Sys2Proof.Safety
end

