-- ==== Sys2Proof/Laws/Step.lean ====
section
/-! SUPPORT. The command step by the word the host writes next (60_exceptions R223). -/

namespace Sys2Proof.Machine

theorem step_of_idle {s : State} (h : s.input = []) : step s = .next s := by
  unfold step takeCommand
  rw [h]

theorem step_of_command {s : State} {w : Word} {ws : List Word} {i : Instr} (h : s.input = w :: ws)
    (hd : decode w = .ok i) : step s = exec i { s with input := ws } := by
  unfold step takeCommand
  rw [h]
  simp only [hd]

theorem step_of_illegal {s : State} {w : Word} {ws : List Word} {e : Illegal} (h : s.input = w :: ws)
    (hd : decode w = .error e) : step s = .next (raise .illegalCmd { s with input := ws }) := by
  unfold step takeCommand
  rw [h]
  simp only [hd]
  rfl

/-- Everything a step can be. -/
theorem step_cases {s t : State} (h : step s = .next t) :
    (s.input = [] ∧ t = s) ∨ ∃ w ws, s.input = w :: ws ∧
      ((∃ i, decode w = .ok i ∧ exec i { s with input := ws } = .next t) ∨
       ∃ e, decode w = .error e ∧ t = raise .illegalCmd { s with input := ws }) := by
  cases hi : s.input with
  | nil =>
    rw [step_of_idle hi] at h
    exact .inl ⟨rfl, by simpa using h.symm⟩
  | cons w ws =>
    refine .inr ⟨w, ws, rfl, ?_⟩
    cases hd : decode w with
    | ok i => exact .inl ⟨i, rfl, by rwa [step_of_command hi hd] at h⟩
    | error e =>
      rw [step_of_illegal hi hd] at h
      exact .inr ⟨e, rfl, by simpa using h.symm⟩

/-- A word that the host writes is the word the next step takes (log 2). -/
@[simp] theorem takeCommand_offerCommand (w : Word) (s : State) : takeCommand (offerCommand w s) = some (w, s) := rfl

end Sys2Proof.Machine
end

