-- ==== Sys2Proof/Laws/Views.lean ====
section
/-! SUPPORT. The two composed words as numbers, STATUS (10_state R26) and the RDNODE response (44_control_readout R205): a sum of their fields, each at its place. -/

namespace Sys2Proof.Machine

/-- Two fields that do not overlap. -/
theorem or_fields {a b k : Nat} (h : b < 2 ^ k) : (a * 2 ^ k) ||| b = a * 2 ^ k + b := by
  rw [Nat.mul_comm, ← Nat.two_pow_add_eq_or_of_lt h]

theorem status_toNat (s : State) :
    (status s).toNat =
      s.ncount.toNat * 2 ^ 32 + (s.root.toNat * 2 ^ 16 + ((errCode s.err).toNat * 2 ^ 8 + (phaseCode s.phase).toNat)) := by
  have h1 := s.ncount.isLt
  have h2 := s.root.isLt
  have h3 := (errCode s.err).isLt
  have h4 := (phaseCode s.phase).isLt
  unfold status
  rw [BitVec.or_assoc, BitVec.or_assoc]
  simp only [BitVec.toNat_or, BitVec.toNat_shiftLeft, BitVec.toNat_setWidth, BitVec.zeroExtend, Nat.shiftLeft_eq]
  iterate 7 rw [Nat.mod_eq_of_lt (b := 2 ^ 64) (by omega)]
  rw [or_fields (k := 8) (by omega), or_fields (k := 16) (by omega), or_fields (k := 32) (by omega)]

theorem packNode_toNat (r : NodeRec) :
    (packNode r).toNat =
      (kindCode r.kind).toNat * 2 ^ 58 +
        (r.c1.toNat * 2 ^ 49 + (r.c0.toNat * 2 ^ 40 + (r.sym.toNat * 2 ^ 32 + r.weight.toNat))) := by
  have h1 := (kindCode r.kind).isLt
  have h2 := r.c1.isLt
  have h3 := r.c0.isLt
  have h4 := r.sym.isLt
  have h5 := r.weight.isLt
  unfold packNode
  rw [BitVec.or_assoc, BitVec.or_assoc, BitVec.or_assoc]
  simp only [BitVec.toNat_or, BitVec.toNat_shiftLeft, BitVec.toNat_setWidth, BitVec.zeroExtend, Nat.shiftLeft_eq]
  iterate 9 rw [Nat.mod_eq_of_lt (b := 2 ^ 64) (by omega)]
  rw [or_fields (k := 32) (by omega), or_fields (k := 40) (by omega), or_fields (k := 49) (by omega),
    or_fields (k := 58) (by omega)]

/-- STATUS after CLR (R26, R260). -/
theorem status_resetState (s : State) : status (resetState s) = 0x0000000001FF0000#64 :=
  BitVec.eq_of_toNat_eq (by rw [status_toNat]; simp [errCode, phaseCode])

end Sys2Proof.Machine
end

