-- ==== Sys2Proof/Tests/Slice0.lean ====
section
/-! SUPPORT. The model's own tests. Expected values come from the spec: the examples of the command rules and the vectors of 95_test_vectors (their ids stand in the docstrings). Then, for each statement that has hypotheses, a state and operands that meet them. -/

namespace Sys2Proof.Tests

-- One theorem at a time, so that the checks of `decide +kernel` do not wait on one another in threads of their own.
set_option Elab.async false

open Sys2Proof.Machine Sys2Proof.Safety

/-! ## WellFormed refuses an operand that does not fit its field (R91) -/

theorem test_ibits_n_64_refused : (Instr.ibits 64 0).wellFormed = false := by decide
theorem test_dbits_n_64_refused : (Instr.dbits 64 0).wellFormed = false := by decide
theorem test_rdreg_sel_16_refused : (Instr.rdreg 16).wellFormed = false := by decide

/-! ## Words (30_encoding R81, R85): OPC in the first byte, the fields as R81 places them -/

/-- Format N: NOP, CLR, BUILD, DEND. -/
theorem test_decode_N :
    decodeTableWord 64 0x0000000000000000 = some .nop ∧ decodeTableWord 64 0x0100000000000000 = some .clr ∧
    decodeTableWord 64 0x1200000000000000 = some .build ∧ decodeTableWord 64 0x3200000000000000 = some .dend := by decide

/-- Format SW: SYM at [39:32], VAL at [31:0] (TL1). -/
theorem test_decode_SW : decodeTableWord 64 0x1000006100000003 = some (.setw 0x61#8 3#32) := by decide

/-- Format Y: SYM at [7:0] (TL4, TR2, TC14). -/
theorem test_decode_Y :
    decodeTableWord 64 0x1100000000000061 = some (.incw 0x61#8) ∧
    decodeTableWord 64 0x2100000000000062 = some (.ileaf 0x62#8) ∧
    decodeTableWord 64 0x4200000000000061 = some (.rdfreq 0x61#8) := by decide

/-- Format BT: N at [37:32], PAYLOAD at [31:0] (TR1, TD4). -/
theorem test_decode_BT :
    decodeTableWord 64 0x2000000200000001 = some (.ibits 2 1#32) ∧
    decodeTableWord 64 0x310000040000000E = some (.dbits 4 0xE#32) := by decide

/-- Format LN: LEN at [47:0]. -/
theorem test_decode_LN : decodeTableWord 64 0x3000800000000004 = some (.dstart 0x800000000004#48) := by decide

/-- Formats IX and SL: IDX at [8:0], SEL at [3:0] (TC9, TC3). -/
theorem test_decode_IX_SL :
    decodeTableWord 64 0x4100000000000101 = some (.rdnode 0x101#9) ∧
    decodeTableWord 64 0x4000000000000001 = some (.rdreg 1) := by decide

/-- Reserved bits and unassigned opcodes (TL9, TC16, TC17, TC18, TC20, TC21). -/
theorem test_decode_illegal :
    decodeTableWord 64 0x1000010000000000 = none ∧ decodeTableWord 64 0x0000000000000001 = none ∧
    decodeTableWord 64 0x0200000000000000 = none ∧ decodeTableWord 64 0xFFFFFFFFFFFFFFFF = none ∧
    decodeTableWord 64 0x4000000000000010 = none ∧ decodeTableWord 64 0x4100000000000200 = none := by decide

/-! ## Small states -/

/-- The state after the commands, or where they stop. -/
def run : List Instr → State → State
  | [], s => s
  | i :: is, s =>
    match exec i s with
    | .next t => run is t
    | _ => s

/-- The table of the line "aaa" (R111's example). -/
def aaa : State := run [.setw 0x0A 1, .setw 0x61 3] State.reset

/-- Its tree: newline "0", 'a' "1" (R130's example). -/
def aaaTree : State := run [.build] aaa

/-- A size-1 table and its tree (TB2). -/
def oneTable : State := run [.setw 0x0A 1] State.reset
def oneTree : State := run [.build] oneTable

/-- A tree with a code of two bits (TB4): 'c' "0", 'a' "10", 'b' "11". -/
def abcTree : State := run [.setw 0x61 1, .setw 0x62 1, .setw 0x63 1, .build] State.reset

/-- A reconstruction with one entry, 'a' "01" (R150's example). -/
def entry01 : State := run [.ibits 2 1, .ileaf 0x61] State.reset

/-! ## One step of each command -/

/-- R200: after reset. -/
theorem test_nop : (run [.nop] State.reset).resp = 0x0000000001FF0000#64 := by decide

/-- TC2: CLR leaves an error and keeps OUT. -/
theorem test_clr :
    run [.clr] { aaaTree with err := .truncatedStream, out := [0x61] } =
      { State.reset with resp := 0x0000000001FF0000#64, out := [0x61] } := by decide +kernel

/-- TL1, TL2. -/
theorem test_setw : aaa.freq = [(0x0A, 1), (0x61, 3)] ∧ (run [.setw 0x61 0] aaa).freq = [(0x0A, 1)] := by decide

/-- TL4, TL5. -/
theorem test_incw :
    (run [.incw 0x61] State.reset).freq = [(0x61, 1)] ∧
    run [.incw 0x61] (run [.setw 0x61 0xFFFFFFFF] State.reset) =
      { State.reset with freq := [(0x61, 0xFFFFFFFF)], err := .weightOvf, resp := 0x0000000001FF0600#64 } := by decide +kernel

/-- TB3: the first popped is the zero-child. -/
theorem test_build :
    aaaTree.node = [(0, ⟨.leaf, 0x0A, 1, Config.nil, Config.nil⟩), (1, ⟨.leaf, 0x61, 3, Config.nil, Config.nil⟩),
      (2, ⟨.internal, 0, 4, 0, 1⟩)] ∧ aaaTree.resp = 0x0000000300020001#64 := by decide +kernel

/-- TB4: the tie-break; a leaf pops before an INTERNAL record of the same weight (TB5). -/
theorem test_build_tie :
    (abcTree.node.drop 3) = [(3, ⟨.internal, 0, 2, 0, 1⟩), (4, ⟨.internal, 0, 3, 2, 3⟩)] ∧
    (run [.setw 0x61 1, .setw 0x62 1, .setw 0x63 2, .build] State.reset).node.drop 4 = [(4, ⟨.internal, 0, 4, 2, 3⟩)] := by
  decide +kernel

/-- TR1. -/
theorem test_ibits :
    (run [.ibits 2 1] State.reset).node = [(0, ⟨.internal, 0, 0, 1, Config.nil⟩), (1, ⟨.internal, 0, 0, Config.nil, 2⟩),
      (2, ⟨.internal, 0, 0, Config.nil, Config.nil⟩)] ∧ (run [.ibits 2 1] State.reset).resp = 0x0000000300000002#64 := by
  decide +kernel

/-- TR6: the bit before the failing bit keeps its effect. -/
theorem test_ibits_precise :
    (run [.ibits 1 0, .ileaf 0x61, .ibits 2 1] State.reset).walk = 1 ∧
    (run [.ibits 1 0, .ileaf 0x61, .ibits 2 1] State.reset).resp = 0x0000000200000202#64 := by decide +kernel

/-- TR2, TR3. -/
theorem test_ileaf :
    nodeAt entry01 2 = some ⟨.leaf, 0x61, 0, Config.nil, Config.nil⟩ ∧ entry01.walk = 0 ∧
    (run [.ileaf 0x61] State.reset).resp = 0x0000000100000202#64 := by decide +kernel

/-- TD3, TD2. -/
theorem test_dstart :
    run [.dstart 4] aaaTree = { aaaTree with bitlen := 4, pos := 2, phase := .decode, resp := 0x0000000300020003#64 } ∧
    (run [.dstart 0] aaaTree).resp = 0x0000000300020004#64 := by decide +kernel

/-- TD4; the source's "0001" decodes otherwise on this tree (S1's guard). -/
theorem test_dbits :
    (run [.dstart 4, .dbits 4 0xE] aaaTree).out = [0x61, 0x61, 0x61, 0x0A] ∧
    (run [.dstart 4, .dbits 4 0x1] aaaTree).out = [0x0A, 0x0A, 0x0A, 0x61] := by decide +kernel

/-- TD7, TD8: the error responses. -/
theorem test_dbits_errors :
    (run [.dstart 2, .dbits 2 1] abcTree).resp = 0x0000000500040504#64 ∧
    (run [.dstart 3, .dbits 3 2] oneTree).resp = 0x0000000200010403#64 := by decide +kernel

/-- TD9. -/
theorem test_dend : (run [.dstart 10, .dbits 4 0xE, .dend] aaaTree).resp = 0x0000000300020303#64 := by decide +kernel

/-- TC6, TC8. -/
theorem test_rdreg :
    (run [.ibits 2 1, .rdreg 4] State.reset).resp = 2 ∧ (run [.rdreg 5] State.reset).resp = 0x0000000001FF0A00#64 := by
  decide +kernel

/-- TC9, TC10, TC11, TC12. -/
theorem test_rdnode :
    (run [.rdnode 1] aaaTree).resp = 0x07FFFF6100000003#64 ∧ (run [.rdnode 2] aaaTree).resp = 0x0802000000000004#64 ∧
    (run [.rdnode 3] aaaTree).resp = 0 ∧ (run [.rdnode 0x1FF] aaaTree).resp = 0x0000000300020A01#64 := by decide +kernel

/-- TC14, TC15. -/
theorem test_rdfreq :
    (run [.rdfreq 0x61] aaaTree).resp = 3 ∧ (run [.rdfreq 0x7A] State.reset).resp = 0 := by decide +kernel

/-- The command step on a word that the host writes, and TC19: an illegal word keeps the first code. -/
theorem test_step :
    step (State.reset.withFetchWord 64 0x1100000000000061) =
      .next { State.reset with freq := [(0x61, 1)], resp := 0x0000000001FF0000#64 } ∧
    step ({ State.reset with err := .sequence }.withFetchWord 64 0x0200000000000000) =
      .next { State.reset with err := .sequence, resp := 0x0000000001FF0800#64 } := ⟨by rfl, by rfl⟩

/-! ## Sound states -/

theorem exec_goesOn {s : State} (h : Safety.Inv s) (i : Instr) : GoesOn (exec i s) := by
  cases i with
  | nop => exact execNop_goesOn h
  | clr => exact execClr_goesOn s
  | setw sym val => exact execSetw_goesOn h sym val
  | incw sym => exact execIncw_goesOn h sym
  | build => exact execBuild_goesOn h
  | ibits n payload => exact execIbits_goesOn h n payload
  | ileaf sym => exact execIleaf_goesOn h sym
  | dstart len => exact execDstart_goesOn h len
  | dbits n payload => exact execDbits_goesOn h n payload
  | dend => exact execDend_goesOn h
  | rdreg sel => exact execRdreg_goesOn h sel
  | rdnode idx => exact execRdnode_goesOn h idx
  | rdfreq sym => exact execRdfreq_goesOn h sym

theorem exec_eq_run {s : State} (h : Safety.Inv s) (i : Instr) :
    exec i s = .next (run [i] s) ∧ Safety.Inv (run [i] s) := by
  obtain ⟨t, ht, hi⟩ := exec_goesOn h i
  simp only [run, ht]
  exact ⟨trivial, hi⟩

theorem run_inv {s : State} (h : Safety.Inv s) (is : List Instr) : Safety.Inv (run is s) := by
  induction is generalizing s with
  | nil => exact h
  | cons i is ih =>
    obtain ⟨t, ht, hi⟩ := exec_goesOn h i
    simp only [run, ht]
    exact ih hi

theorem reset_inv : Safety.Inv State.reset := inv_resetState State.reset

theorem aaa_inv : Safety.Inv aaa := run_inv reset_inv _
theorem aaaTree_inv : Safety.Inv aaaTree := run_inv aaa_inv _
theorem oneTable_inv : Safety.Inv oneTable := run_inv reset_inv _
theorem oneTree_inv : Safety.Inv oneTree := run_inv oneTable_inv _
theorem abcTree_inv : Safety.Inv abcTree := run_inv reset_inv _
theorem entry01_inv : Safety.Inv entry01 := run_inv reset_inv _

/-- A reconstruction of any number of records, its walk at a record with no child. -/
theorem chain_exists (n : Nat) (hn : n < 511) : ∃ s, Safety.Inv s ∧ s.err = .none ∧ s.phase = .recon ∧
    s.ncount.toNat = n + 1 ∧ nodeAt s s.walk = some freshRec := by
  induction n with
  | zero => exact ⟨started State.reset, (started_inv reset_inv rfl).1, rfl, rfl, rfl, by decide⟩
  | succ n ih =>
    obtain ⟨s, hs, he, hp, hc, hw⟩ := ih (by omega)
    have hcap : s.ncount.toNat < Config.nodeCap := by simp only [Config.nodeCap]; omega
    obtain ⟨hi, hp'⟩ := walkStep_keeps_inv ⟨hs, hp⟩ (walkStep_grow (b := false) hw rfl rfl hcap)
    have hne : s.ncount ≠ s.walk := fun hx => by
      have := nodeAt_lt hw
      rw [← hx] at this
      exact lt_irrefl _ this
    refine ⟨grown false freshRec s, hi, he, hp', (ncount_succ hcap).trans (by omega), ?_⟩
    show nodeAt _ s.ncount = _
    rw [nodeAt_grown hw false hcap, if_neg hne, if_pos rfl]

theorem built_aaa : Built aaa aaaTree where
  sound := aaa_inv
  idle := by decide
  no_error := by decide
  builds := (exec_eq_run aaa_inv .build).1
  succeeds := by decide +kernel

theorem built_one : Built oneTable oneTree where
  sound := oneTable_inv
  idle := by decide
  no_error := by decide
  builds := (exec_eq_run oneTable_inv .build).1
  succeeds := by decide +kernel

theorem aaaTree_codes (code : List Bool) (c : Symbol) :
    hasCode aaaTree code c ↔ (code = [false] ∧ c = 0x0A) ∨ (code = [true] ∧ c = 0x61) := by
  have h0 : nodeAt aaaTree 0 = some (leafRec 0x0A 1) := by decide +kernel
  have h1 : nodeAt aaaTree 1 = some (leafRec 0x61 3) := by decide +kernel
  have h2 : nodeAt aaaTree 2 = some (internalRec 4 0 1) := by decide +kernel
  have hr : aaaTree.root = 2 := by decide +kernel
  have f0 : ∀ p, follow aaaTree 2 (false :: p) = follow aaaTree 0 p := fun p => by rw [follow_cons h2]; rfl
  have f1 : ∀ p, follow aaaTree 2 (true :: p) = follow aaaTree 1 p := fun p => by rw [follow_cons h2]; rfl
  have g0 : ∀ b p, follow aaaTree 0 (b :: p) = none := fun b p => aaaTree_inv.tree.follow_leaf h0 rfl
  have g1 : ∀ b p, follow aaaTree 1 (b :: p) = none := fun b p => aaaTree_inv.tree.follow_leaf h1 rfl
  have e : ∀ i : NodeIdx, follow aaaTree i [] = some i := fun i => rfl
  constructor
  · rintro ⟨i, hi, hl⟩
    rw [hr] at hi
    obtain ⟨r, hn, hk, rfl⟩ := isLeafOf_iff.1 hl
    rcases code with _ | ⟨_ | _, _ | ⟨b, p⟩⟩
    · rw [e, Option.some.injEq] at hi
      subst hi
      rw [h2, Option.some.injEq] at hn
      subst hn
      exact absurd hk (by decide)
    · rw [f0, e, Option.some.injEq] at hi
      subst hi
      rw [h0, Option.some.injEq] at hn
      subst hn
      exact .inl ⟨rfl, rfl⟩
    · rw [f0, g0] at hi
      exact absurd hi (by simp)
    · rw [f1, e, Option.some.injEq] at hi
      subst hi
      rw [h1, Option.some.injEq] at hn
      subst hn
      exact .inr ⟨rfl, rfl⟩
    · rw [f1, g1] at hi
      exact absurd hi (by simp)
  · rintro (⟨rfl, rfl⟩ | ⟨rfl, rfl⟩)
    · exact ⟨0, by decide +kernel, by decide +kernel⟩
    · exact ⟨1, by decide +kernel, by decide +kernel⟩

/-! ## A witness for the hypotheses of each statement, at the ends of the ranges -/

/-- DecodeOfEncodeIsTheCommand. -/
theorem witness_DecodeOfEncode :
    (Instr.ibits 63 0xFFFFFFFF).wellFormed = true ∧ (Instr.dbits 0 0).wellFormed = true ∧
    (Instr.rdreg 15).wellFormed = true ∧ (Instr.rdnode 0x1FF).wellFormed = true := by decide

/-- EncodeOfDecodeIsTheWord, DecodeFollowsTheMatchMaskTable and OperandsAreReadUnscaled: each format, every operand at its
greatest value. -/
theorem witness_OperandsAreReadUnscaled :
    decode 0x100000FFFFFFFFFF#64 = .ok (.setw 0xFF#8 0xFFFFFFFF#32) ∧ decode 0x11000000000000FF#64 = .ok (.incw 0xFF#8) ∧
    decode 0x2000003FFFFFFFFF#64 = .ok (.ibits 63 0xFFFFFFFF#32) ∧ decode 0x21000000000000FF#64 = .ok (.ileaf 0xFF#8) ∧
    decode 0x3000FFFFFFFFFFFF#64 = .ok (.dstart 0xFFFFFFFFFFFF#48) ∧
    decode 0x3100003FFFFFFFFF#64 = .ok (.dbits 63 0xFFFFFFFF#32) ∧ decode 0x400000000000000F#64 = .ok (.rdreg 15) ∧
    decode 0x41000000000001FF#64 = .ok (.rdnode 0x1FF#9) ∧ decode 0x42000000000000FF#64 = .ok (.rdfreq 0xFF#8) :=
  ⟨rfl, rfl, rfl, rfl, rfl, rfl, rfl, rfl, rfl⟩

/-- ReservedBitsAreNeverIgnored: the lowest and the highest reserved bit. -/
theorem witness_ReservedBits :
    (∃ m ∈ matchMaskTable, (0x0000000000000001#64).toNat / 2 ^ 56 = m.opc.toNat ∧ m.mask.getLsbD 0 = true ∧
      (0x0000000000000001#64).getLsbD 0 = true) ∧
    ∃ m ∈ matchMaskTable, (0x3080000000000000#64).toNat / 2 ^ 56 = m.opc.toNat ∧ m.mask.getLsbD 55 = true ∧
      (0x3080000000000000#64).getLsbD 55 = true := by decide

/-- UnassignedOpcodesAreIllegal: the ends of R87's ranges. -/
theorem witness_UnassignedOpcodes :
    [0x02, 0x0F, 0x13, 0x1F, 0x22, 0x2F, 0x33, 0x3F, 0x43, 0xFF].all unassignedOpcode = true := by decide

/-- BitChunksAreFirstBitHighest: valid at 1 and 32, invalid at 0, 33 and with a bit above bit N - 1. -/
theorem witness_BitChunks :
    chunkValid 1 1 = true ∧ chunkValid 32 0xFFFFFFFF = true ∧ chunkValid 0 0 = false ∧ chunkValid 33 0 = false ∧
    chunkValid 1 2 = false ∧ State.reset.err = .none := by decide

/-- StepRunsTheDecodedCommand, and IdleStepKeepsTheState at reset. -/
theorem witness_Step :
    ({ State.reset with input := [0] }).input = 0 :: [] ∧ decode 0 = .ok .nop ∧ State.reset.input = [] := ⟨rfl, rfl, rfl⟩

/-- CodesAreRaisedByTheirCommands: a code kept, a code raised, CLR; and a step that raises ILLEGAL_CMD. -/
theorem witness_CodesAreRaised :
    (∃ t, exec .nop State.reset = .next t ∧ t.err = .none) ∧
    (∃ t, exec .dend State.reset = .next t ∧ t.err = .sequence) ∧
    (∃ t, exec .clr { State.reset with err := .badPath } = .next t ∧ t.err = .none) ∧
    ∃ t, step { State.reset with input := [1] } = .next t ∧ t.err = .illegalCmd :=
  ⟨⟨_, rfl, rfl⟩, ⟨_, rfl, rfl⟩, ⟨_, rfl, rfl⟩, ⟨_, rfl, rfl⟩⟩

/-- ErrorsAreSticky: a gated command, an illegal word and CLR, under an error. -/
theorem witness_ErrorsAreSticky :
    (∃ s : State, s.input = [encode .dend] ∧ s.err ≠ .none ∧ decode (encode .dend) = .ok .dend ∧ passesGate .dend = false ∧
      ∃ t, step s = .next t) ∧
    (∃ s : State, s.input = [1] ∧ s.err ≠ .none ∧ ∃ e, decode 1 = .error e) ∧
    ∃ s t : State, s.input = [encode .clr] ∧ s.err ≠ .none ∧ step s = .next t ∧ t.err ≠ s.err :=
  ⟨⟨{ State.reset with err := .badPath, input := [encode .dend] }, rfl, by decide, rfl, rfl, _, rfl⟩,
   ⟨{ State.reset with err := .badPath, input := [1] }, rfl, by decide, _, rfl⟩,
   ⟨{ State.reset with err := .badPath, input := [encode .clr] }, _, rfl, by decide, rfl, by decide⟩⟩

/-- AnErrorIsInItsResponse: an error raised, and one raised under another. -/
theorem witness_AnErrorIsInItsResponse :
    (∃ t, exec .dend State.reset = .next t ∧ t.err ≠ .none) ∧
    ∃ t, exec (.rdreg 5) { State.reset with err := .badPath } = .next t ∧ t.err ≠ .none :=
  ⟨⟨_, rfl, by decide⟩, ⟨_, rfl, by decide⟩⟩

/-- PhaseAcceptance: a refused and an accepted command, and the rows with notes. -/
theorem witness_PhaseAcceptance :
    (operandOk (.ibits 1 0) = true ∧ accepts (.ibits 1 0) aaaTree.phase = false ∧ aaaTree.err = .none) ∧
    (accepts (.ileaf 0) State.reset.phase = true ∧ ∃ t, exec (.ileaf 0) State.reset = .next t) ∧
    (let s := run [.ibits 1 0] State.reset
     s.phase = .recon ∧ s.walk ≠ s.root ∧ s.err = .none ∧ accepts (.dstart 1) s.phase = true) ∧
    (let s := run [.dstart 0] aaaTree
     s.phase = .done ∧ s.err = .none ∧ accepts (.dbits 1 0) s.phase = true) ∧
    (let s := run [.dstart 1] aaaTree
     s.phase = .decode ∧ s.err = .none ∧ accepts .dend s.phase = true) :=
  ⟨by decide +kernel, ⟨rfl, _, rfl⟩, by decide +kernel, by decide +kernel, by decide +kernel⟩

/-- OperandErrorsComeFirst. -/
theorem witness_OperandErrors :
    operandOk (.ibits 33 0) = false ∧ operandOk (.dbits 0 0) = false ∧ operandOk (.rdreg 5) = false ∧
    operandOk (.rdnode 0x1FF) = false ∧ State.reset.err = .none := by decide

/-- ErrorsArePrecise: an error with no other effect, StartRecon's effect, the bits before a failing bit of IBITS, and of
DBITS, and the failing bit of PARTIAL_SYMBOL. -/
theorem witness_ErrorsArePrecise :
    ((run [.dend] State.reset).err ≠ .none ∧ (run [.ileaf 0] State.reset).phase = .recon) ∧
    (let s := run [.ibits 1 0, .ileaf 0x61] State.reset
     s.err = .none ∧ (run [.ibits 2 1] s).err = .malformedHeader ∧ (run [.ibits 2 1] s).walk ≠ s.walk) ∧
    (let s := run [.dstart 3] oneTree
     s.err = .none ∧ (run [.dbits 3 2] s).err = .badPath ∧ (run [.dbits 3 2] s).bitcnt = 1) ∧
    (let s := run [.dstart 2] abcTree
     s.err = .none ∧ (run [.dbits 2 1] s).err = .partialSymbol ∧ (run [.dbits 2 1] s).pos ≠ abcTree.root) := by
  decide +kernel

/-- RegistersAreWrittenByTheirCommands: every register but ERR and RESP has a command that does not write it. -/
theorem witness_Registers :
    ([Register.phase, .root, .ncount, .walk, .pos, .bitlen, .bitcnt, .freq, .node, .out].all
      fun r => writtenBy r .nop == false) = true ∧ ∃ t, exec .nop State.reset = .next t := ⟨by decide, _, rfl⟩

/-- OutputIsAppendOnly, EveryStepKeepsTheInvariant and EveryStepCompletes: a step that emits. -/
theorem witness_Step_emits : ∃ s t, Safety.Inv s ∧ step s = .next t ∧ t.out ≠ s.out := by
  have hi : Safety.Inv (run [.dstart 1] aaaTree) := run_inv aaaTree_inv _
  have hs : ∀ (u : State), step { u with input := [encode (.dbits 1 1)] } = exec (.dbits 1 1) { u with input := [] } :=
    fun u => step_of_command rfl rfl
  exact ⟨_, _, hi.takeCommand _, (hs _).trans (exec_eq_run (hi.takeCommand []) (.dbits 1 1)).1, by decide +kernel⟩

/-- RootIsFixedUntilClear: IDLE and a tree; BUILD, IBITS and CLR. -/
theorem witness_RootIsFixed :
    (State.reset.root = Config.nil ∧ aaaTree.root ≠ Config.nil ∧ aaaTree.root ≠ aaa.root) ∧
    (run [.ibits 1 0] State.reset).root ≠ Config.nil ∧ (run [.clr] aaaTree).root ≠ aaaTree.root := by decide +kernel

/-- EveryRecordHasOnePath: the last record, and a path. -/
theorem witness_EveryRecordHasOnePath :
    aaaTree.phase ≠ .idle ∧ (2 : NodeIdx).toNat < aaaTree.ncount.toNat ∧ follow aaaTree aaaTree.root [true] = some 1 := by
  decide +kernel

/-- IdempotentCommands. -/
theorem witness_Idempotent :
    (∃ t, exec (.setw 0xFF 0xFFFFFFFF) State.reset = .next t) ∧ (∃ t, exec .dend State.reset = .next t) ∧
    ∃ t, exec .clr State.reset = .next t := ⟨⟨_, rfl⟩, ⟨_, rfl⟩, ⟨_, rfl⟩⟩

/-- ReadsHaveNoSideEffects: a read that succeeds and one that fails. -/
theorem witness_Reads :
    operandOk (.rdreg 4) = true ∧ operandOk (.rdreg 5) = false ∧ operandOk (.rdnode 0x1FE) = true ∧
    operandOk (.rdnode 0x1FF) = false ∧ operandOk (.rdfreq 0xFF) = true := by decide

/-- RdnodeReadsTheRecord: NIL, the first and last unallocated index, the last allocated one. -/
theorem witness_Rdnode :
    (0x1FF : NodeIdx) = Config.nil ∧ aaaTree.ncount.toNat ≤ (3 : NodeIdx).toNat ∧ (510 : NodeIdx) ≠ Config.nil ∧
    aaaTree.ncount.toNat ≤ (510 : NodeIdx).toNat ∧ (2 : NodeIdx).toNat < aaaTree.ncount.toNat := by decide +kernel

/-- RdfreqReadsTheWeight: a symbol that is not in the table. -/
theorem witness_Rdfreq : (0x7A : Symbol) ∉ tableSymbols aaa := by decide +kernel

/-- SetwSetsTheWeight and IncwCountsOneOccurrence: IDLE and a tree, weights WMAX - 1 and WMAX. -/
theorem witness_Setw_Incw :
    State.reset.err = .none ∧ State.reset.phase = .idle ∧ aaaTree.err = .none ∧ aaaTree.phase ≠ .idle ∧
    readFreq (run [.setw 0 0xFFFFFFFE] State.reset) 0 ≠ 0xFFFFFFFF#32 ∧
    readFreq (run [.setw 0 0xFFFFFFFF] State.reset) 0 = 0xFFFFFFFF#32 := by decide +kernel

/-- SymbolOrderDoesNotMatter: two orders of three occurrences, one weight reaching WMAX. -/
theorem witness_SymbolOrder :
    let s := run [.setw 1 0xFFFFFFFD] State.reset
    s.err = .none ∧ s.phase = .idle ∧ Memory.wf s ∧ [1, 0, 1].Perm ([0, 1, 1] : List Symbol) ∧
    ∀ c, (readFreq s c).toNat + ([1, 0, 1] : List Symbol).count c ≤ 0xFFFFFFFF := by decide +kernel

/-- LastSetwCounts: a symbol written twice. -/
theorem witness_LastSetw :
    State.reset.err = .none ∧ State.reset.phase = .idle ∧ ([(1, 2), (0, 5), (1, 0)] : List (Symbol × Weight)) ≠ [] := by
  decide

/-- BuildChecksTheTable: a tree, an empty table, a total of WMAX + 1 (TB9). -/
theorem witness_BuildChecks :
    (aaaTree.err = .none ∧ aaaTree.phase ≠ .idle) ∧ (State.reset.phase = .idle ∧ ∀ c, readFreq State.reset c = 0) ∧
    (let s := run [.setw 0 0xFFFFFFFF, .setw 1 1] State.reset
     s.err = .none ∧ s.phase = .idle ∧
       0xFFFFFFFF < ((List.range 256).map fun c => (readFreq s (BitVec.ofNat 8 c)).toNat).sum) := by decide +kernel

/-- BuildCompletesTheTree: one symbol, and two whose total is exactly WMAX (TB8). -/
theorem witness_BuildCompletes :
    (Safety.Inv oneTable ∧ oneTable.err = .none ∧ oneTable.phase = .idle ∧ readFreq oneTable 0x0A ≠ 0 ∧
      (tableSymbols oneTable).length = 1 ∧
      ((List.range 256).map fun c => (readFreq oneTable (BitVec.ofNat 8 c)).toNat).sum ≤ 0xFFFFFFFF) ∧
    (let s := run [.setw 0 0xFFFFFFFE, .setw 1 1] State.reset
     Safety.Inv s ∧ s.err = .none ∧ s.phase = .idle ∧ readFreq s 1 ≠ 0 ∧ 2 ≤ (tableSymbols s).length ∧
       ((List.range 256).map fun c => (readFreq s (BitVec.ofNat 8 c)).toNat).sum = 0xFFFFFFFF) :=
  ⟨⟨oneTable_inv, by decide +kernel⟩, ⟨run_inv reset_inv _, by decide +kernel⟩⟩

/-- LeavesStandInSymbolOrder, WeightsAddUpToTheRoot and EachMergeTakesTheTwoLeast: a tree of two symbols, its last leaf and
its root. -/
theorem witness_Built :
    Built aaa aaaTree ∧ (tableSymbols aaa)[1]? = some 0x61 ∧ 2 ≤ (tableSymbols aaa).length ∧
    nodeAt aaaTree 2 = some (internalRec 4 0 1) := ⟨built_aaa, by decide +kernel⟩

/-- SingletonTableGetsOneBit. -/
theorem witness_Singleton :
    Built oneTable oneTree ∧ tableSymbols oneTable = [0x0A] :=
  ⟨built_one, by decide +kernel⟩

/-- TheTreeDependsOnFreqAlone: the same table loaded in another order, after another tree. -/
theorem witness_TheTreeDependsOnFreqAlone :
    let s' := run [.build, .clr, .setw 0x61 2, .setw 0x0A 1, .incw 0x61] aaa
    Built aaa aaaTree ∧ Safety.Inv s' ∧ s'.phase = .idle ∧ s'.err = .none ∧ (∀ c, readFreq s' c = readFreq aaa c) ∧
      ∃ t', exec .build s' = .next t' := by
  intro s'
  have hi : Safety.Inv s' := run_inv aaa_inv _
  exact ⟨built_aaa, hi, by decide +kernel, by decide +kernel, by decide +kernel, _, (exec_eq_run hi .build).1⟩

/-- CodesAreNoLongerThanTheAlphabet, CodesArePrefixFreeAndComplete and EverySymbolOfTheTableHasOneCode: two symbols and one. -/
theorem witness_Codes :
    hasCode aaaTree [false] 0x0A ∧ hasCode aaaTree [true] 0x61 ∧ (tableSymbols aaa).length = 2 ∧
    hasCode oneTree [false] 0x0A ∧ readFreq aaa 0x61 ≠ 0 ∧ readFreq aaa 0x62 = 0 :=
  ⟨⟨0, by decide +kernel, by decide +kernel⟩, ⟨1, by decide +kernel, by decide +kernel⟩, by decide +kernel,
    ⟨0, by decide +kernel, by decide +kernel⟩, by decide +kernel, by decide +kernel⟩

/-- FirstEntryCommandCreatesTheRoot: chunks of 1 and of 32 bits. -/
theorem witness_FirstEntry :
    Safety.Inv State.reset ∧ State.reset.err = .none ∧ State.reset.phase = .idle ∧ chunkValid 1 0 = true ∧
    chunkValid 32 0xFFFFFFFF = true := ⟨reset_inv, by decide⟩

/-- OneCodeBitWalksOrGrows: at a leaf; with a child; at 511 records; with a free record. -/
theorem witness_OneCodeBit :
    (∃ s : State, Safety.Inv s ∧ s.err = .none ∧ s.phase = .recon ∧ (nodeAt s s.walk).map NodeRec.kind = some .leaf) ∧
    (Safety.Inv entry01 ∧ entry01.err = .none ∧ entry01.phase = .recon ∧
      nodeAt entry01 entry01.walk = some (internalRec 0 1 Config.nil)) ∧
    (∃ s : State, Safety.Inv s ∧ s.err = .none ∧ s.phase = .recon ∧ nodeAt s s.walk = some freshRec ∧ s.ncount = 511) ∧
    ∃ s : State, Safety.Inv s ∧ s.err = .none ∧ s.phase = .recon ∧ nodeAt s s.walk = some freshRec ∧ s.ncount ≠ 511 := by
  refine ⟨⟨run [.ibits 2 1] entry01, run_inv entry01_inv _, by decide +kernel⟩, ⟨entry01_inv, by decide +kernel⟩, ?_, ?_⟩
  · obtain ⟨s, hi, he, hp, hc, hw⟩ := chain_exists 510 (by omega)
    exact ⟨s, hi, he, hp, hw, BitVec.eq_of_toNat_eq hc⟩
  · obtain ⟨s, hi, he, hp, hc, hw⟩ := chain_exists 0 (by omega)
    exact ⟨s, hi, he, hp, hw, fun hx => by rw [hx] at hc; simp at hc⟩

/-- IbitsWalksTheCode: a tree; an open reconstruction with an existing path; and one where no LEAF is on the way. -/
theorem witness_IbitsWalks :
    (aaaTree.err = .none ∧ aaaTree.phase ≠ .idle ∧ aaaTree.phase ≠ .recon ∧ chunkValid 1 1 = true) ∧
    (Safety.Inv entry01 ∧ entry01.err = .none ∧ entry01.phase = .recon ∧
      follow entry01 entry01.walk (chunkBits 2 1) = some 2) ∧
    entry01.ncount.toNat + 1 ≤ 511 ∧
    ∀ pre b post, chunkBits 1 1 = pre ++ b :: post → ∀ i, follow entry01 entry01.walk pre = some i → isInternal entry01 i := by
  refine ⟨by decide +kernel, ⟨entry01_inv, by decide +kernel⟩, by decide +kernel, ?_⟩
  rintro (_ | ⟨d, pre⟩) b post h i hi
  · cases hi
    decide +kernel
  · have := congrArg List.length h
    simp [chunkBits] at this

/-- CodeChunkingDoesNotMatter and ContentChunkingDoesNotMatter: one chunk and two of the same bits. -/
theorem witness_Chunking :
    chunksValid [(3, 5)] ∧ chunksValid [(1, 1), (2, 1)] ∧ streamBits [(3, 5)] = streamBits [(1, 1), (2, 1)] := by decide

/-- IleafMarksTheWalkPosition: a tree; an empty code, a duplicate, a prefix; and a new code. -/
theorem witness_Ileaf :
    (aaaTree.err = .none ∧ aaaTree.phase ≠ .idle ∧ aaaTree.phase ≠ .recon) ∧
    (Safety.Inv entry01 ∧ entry01.err = .none ∧ entry01.phase = .recon ∧ entry01.walk = entry01.root) ∧
    (let s := run [.ibits 2 1] entry01
     Safety.Inv s ∧ s.err = .none ∧ s.phase = .recon ∧ (nodeAt s s.walk).map NodeRec.kind = some .leaf) ∧
    (let s := run [.ibits 1 0] entry01
     Safety.Inv s ∧ s.err = .none ∧ s.phase = .recon ∧ (nodeAt s s.walk).map NodeRec.c1 ≠ some Config.nil) ∧
    (let s := run [.ibits 1 1] entry01
     Safety.Inv s ∧ s.err = .none ∧ s.phase = .recon ∧ s.walk ≠ s.root ∧ nodeAt s s.walk = some freshRec) :=
  ⟨by decide +kernel, ⟨entry01_inv, by decide +kernel⟩, ⟨run_inv entry01_inv _, by decide +kernel⟩,
    ⟨run_inv entry01_inv _, by decide +kernel⟩, ⟨run_inv entry01_inv _, by decide +kernel⟩⟩

/-- OneEntryAddsExactlyItsLeaf: the first entry, at the longest code, and a second one. -/
theorem witness_OneEntry :
    (let cs : List Chunk := List.replicate 15 (32, 0) ++ [(30, 0)]
     Safety.Inv State.reset ∧ State.reset.err = .none ∧ State.reset.phase = .idle ∧ chunksValid cs ∧ cs ≠ [] ∧
       follow State.reset State.reset.root (streamBits cs) = none ∧ 1 + (streamBits cs).length = 511) ∧
    (Safety.Inv entry01 ∧ entry01.err = .none ∧ entry01.phase = .recon ∧ entry01.walk = entry01.root ∧
      chunksValid [(1, 1)] ∧ follow entry01 entry01.root (streamBits [(1, 1)]) = none ∧
      entry01.ncount.toNat + (streamBits [(1, 1)]).length ≤ 511) :=
  ⟨⟨reset_inv, by decide +kernel⟩, ⟨entry01_inv, by decide +kernel⟩⟩

/-- HeaderIsomorphism: the entries of a tree, out of order. -/
theorem witness_HeaderIsomorphism :
    let entries : List (Symbol × List Chunk) := [(0x61, [(1, 1)]), (0x0A, [(1, 0)])]
    Built aaa aaaTree ∧ (∀ e ∈ entries, chunksValid e.2) ∧ (entries.map Prod.fst).Nodup ∧
      ∀ code c, hasCode aaaTree code c ↔ ∃ e ∈ entries, e.1 = c ∧ streamBits e.2 = code := by
  refine ⟨built_aaa, by decide, by decide, fun code c => ?_⟩
  rw [aaaTree_codes]
  have h1 : streamBits [((1 : Nat), (1 : Payload))] = [true] := by decide
  have h0 : streamBits [((1 : Nat), (0 : Payload))] = [false] := by decide
  simp only [List.mem_cons, List.not_mem_nil, or_false, exists_eq_or_imp, exists_eq_left, h0, h1]
  simp only [eq_comm (b := c), eq_comm (b := code), and_comm, or_comm]

/-- DstartStartsADecode: each row of its checks. -/
theorem witness_Dstart :
    State.reset.phase = .idle ∧ (run [.dstart 1] aaaTree).phase = .decode ∧ (run [.dstart 1] aaaTree).err = .none ∧
    (run [.ibits 1 0] State.reset).phase = .recon ∧ (run [.ibits 1 0] State.reset).walk ≠ (run [.ibits 1 0] State.reset).root ∧
    (run [.ibits 1 0] State.reset).err = .none ∧ aaaTree.phase = .tree ∧ aaaTree.err = .none ∧
    entry01.phase = .recon ∧ entry01.walk = entry01.root ∧ entry01.err = .none ∧
    (run [.dstart 0] aaaTree).phase = .done ∧ (run [.dstart 0] aaaTree).err = .none := by decide +kernel

/-- DecoderTransitions: DONE, a missing child, and each of the four other rows. -/
theorem witness_DecoderTransitions :
    (let s := run [.dstart 0] aaaTree
     Safety.Inv s ∧ s.err = .none ∧ s.phase = .done) ∧
    (let s := run [.dstart 1] oneTree
     Safety.Inv s ∧ s.err = .none ∧ s.phase = .decode ∧ (nodeAt s s.pos).map (fun r => childOf r true) = some Config.nil) ∧
    (let s := run [.dstart 2] abcTree
     Safety.Inv s ∧ s.err = .none ∧ s.phase = .decode ∧ s.bitcnt.toNat + 1 < s.bitlen.toNat ∧
       (nodeAt s s.pos).map (fun r => childOf r false) = some 2 ∧ (nodeAt s 2).map NodeRec.kind = some .leaf ∧
       (nodeAt s s.pos).map (fun r => childOf r true) = some 3 ∧ (nodeAt s 3).map NodeRec.kind = some .internal) ∧
    (let s := run [.dstart 1] abcTree
     Safety.Inv s ∧ s.err = .none ∧ s.phase = .decode ∧ s.bitcnt.toNat + 1 = s.bitlen.toNat ∧
       (nodeAt s s.pos).map (fun r => childOf r false) = some 2 ∧ (nodeAt s 2).map NodeRec.kind = some .leaf ∧
       (nodeAt s s.pos).map (fun r => childOf r true) = some 3 ∧ (nodeAt s 3).map NodeRec.kind = some .internal) :=
  ⟨⟨run_inv aaaTree_inv _, by decide +kernel⟩, ⟨run_inv oneTree_inv _, by decide +kernel⟩,
    ⟨run_inv abcTree_inv _, by decide +kernel⟩, ⟨run_inv abcTree_inv _, by decide +kernel⟩⟩

/-- DbitsConsumesUpToTheBoundary: no decode, DONE, and a decode on a tree with no missing child. -/
theorem witness_Dbits :
    (aaaTree.phase ≠ .decode ∧ aaaTree.phase ≠ .done ∧ aaaTree.err = .none ∧ chunkValid 32 0xFFFFFFFF = true) ∧
    (run [.dstart 0] aaaTree).phase = .done ∧
    (let s := run [.dstart 33] aaaTree
     Safety.Inv s ∧ s.err = .none ∧ s.phase = .decode ∧ s.bitcnt.toNat + 32 < s.bitlen.toNat ∧
       ∀ i r, nodeAt s i = some r → r.kind = .internal → r.c0 ≠ Config.nil ∧ r.c1 ≠ Config.nil) := by
  refine ⟨by decide +kernel, by decide +kernel, ?_⟩
  have hi : Safety.Inv (run [.dstart 33] aaaTree) := run_inv aaaTree_inv _
  refine ⟨hi, by decide +kernel, by decide +kernel, by decide +kernel, fun i r hr hk => ?_⟩
  have hn : (run [.dstart 33] aaaTree).node =
      [(0, leafRec 0x0A 1), (1, leafRec 0x61 3), (2, internalRec 4 0 1)] := by decide +kernel
  have hm := hi.tree.nodeAt_iff.1 hr
  rw [hn] at hm
  simp only [List.mem_cons, Prod.mk.injEq, List.not_mem_nil, or_false] at hm
  rcases hm with ⟨-, rfl⟩ | ⟨-, rfl⟩ | ⟨-, rfl⟩
  · cases hk
  · cases hk
  · decide

/-- DendReportsTruncation: no decode, DECODE, DONE. -/
theorem witness_Dend :
    State.reset.err = .none ∧ State.reset.phase ≠ .decode ∧ State.reset.phase ≠ .done ∧
    (run [.dstart 1] aaaTree).err = .none ∧ (run [.dstart 1] aaaTree).phase = .decode ∧
    (run [.dstart 0] aaaTree).err = .none ∧ (run [.dstart 0] aaaTree).phase = .done := by decide +kernel

/-- ExtraInputIsDiscarded: one bit owed of 32; and DONE. -/
theorem witness_ExtraInput :
    (let s := run [.dstart 1] aaaTree
     Safety.Inv s ∧ s.err = .none ∧ s.phase = .decode ∧ chunkValid 32 0xFFFFFFFF = true ∧ s.bitcnt.toNat + 1 = s.bitlen.toNat) ∧
    (let s := run [.dstart 0] aaaTree
     Safety.Inv s ∧ s.err = .none ∧ s.phase = .done ∧ chunksValid [(1, 1)]) :=
  ⟨⟨run_inv aaaTree_inv _, by decide +kernel⟩, ⟨run_inv aaaTree_inv _, by decide +kernel⟩⟩

/-- RoundTrip: the line "aaa" cut into two chunks (P1), on its tree. -/
theorem witness_RoundTrip :
    let message : List (Symbol × List Bool) := [(0x61, [true]), (0x61, [true]), (0x61, [true]), (0x0A, [false])]
    Safety.Inv aaaTree ∧ aaaTree.err = .none ∧ aaaTree.phase = .tree ∧ (∀ m ∈ message, hasCode aaaTree m.2 m.1) ∧
      chunksValid [(3, 7), (1, 0)] ∧ streamBits [(3, 7), (1, 0)] = message.flatMap Prod.snd ∧
      (streamBits [(3, 7), (1, 0)]).length < 2 ^ 48 := by
  refine ⟨aaaTree_inv, by decide +kernel, by decide +kernel, ?_, by decide, by decide, by decide⟩
  intro m hm
  rw [aaaTree_codes]
  simp only [List.mem_cons, List.not_mem_nil, or_false] at hm
  rcases hm with rfl | rfl | rfl | rfl <;> decide

end Sys2Proof.Tests
end

section
/-! PROOFS. The statements of 10_state: the STATUS view (R26), which command writes which register (R23), OUT (R35), ROOT (R28), the structural invariant (R29-R38), and the paths and codes of the tree (R27, R33). -/

namespace Sys2Proof.Machine

open Sys2Proof.Safety

/-! ## Frames: the fields a command can change, as R23 lists them -/

theorem execSetw_frame {c : Symbol} {v : Weight} {s t : State} (h : execSetw c v s = .next t) :
    t = { s with err := t.err, resp := t.resp, freq := t.freq } := by
  rcases execSetw_cases h with ⟨-, rfl⟩ | ⟨-, ⟨-, rfl⟩ | ⟨-, rfl⟩⟩ <;> rfl

theorem execIncw_frame {c : Symbol} {s t : State} (h : execIncw c s = .next t) :
    t = { s with err := t.err, resp := t.resp, freq := t.freq } := by
  rcases execIncw_cases h with ⟨-, rfl⟩ | ⟨-, ⟨-, rfl⟩ | ⟨-, -, rfl⟩ | ⟨-, -, rfl⟩⟩ <;> rfl

theorem execBuild_frame {s t : State} (h : execBuild s = .next t) :
    t = { s with phase := t.phase, err := t.err, root := t.root, ncount := t.ncount, resp := t.resp, node := t.node } := by
  rcases execBuild_cases h with
    ⟨-, rfl⟩ | ⟨-, ⟨-, rfl⟩ | ⟨-, -, rfl⟩ | ⟨-, -, -, rfl⟩ | ⟨-, -, -, u, hu, rfl⟩⟩
  · rfl
  · rfl
  · rfl
  · rfl
  · rw [buildTree_frame hu]
    rfl

theorem execIbits_frame {n : Nat} {p : Payload} {s t : State} (h : execIbits n p s = .next t) :
    t = { s with phase := t.phase, err := t.err, root := t.root, ncount := t.ncount, walk := t.walk, resp := t.resp,
                 node := t.node } := by
  rcases execIbits_cases h with
    ⟨-, rfl⟩ | ⟨-, ⟨-, rfl⟩ | ⟨-, -, -, rfl⟩ | ⟨-, -, u, hu, ⟨v, hv, rfl⟩ | ⟨e, v, hv, rfl⟩⟩⟩
  · rfl
  · rfl
  · rfl
  · rw [walkBits_frame hv, enterRecon_frame hu]
    rfl
  · rw [(walkBits_fail_frame hv).1, enterRecon_frame hu]
    rfl

theorem execIleaf_frame {c : Symbol} {s t : State} (h : execIleaf c s = .next t) :
    t = { s with phase := t.phase, err := t.err, root := t.root, ncount := t.ncount, walk := t.walk, resp := t.resp,
                 node := t.node } := by
  rcases execIleaf_cases h with ⟨-, rfl⟩ | ⟨-, ⟨-, -, rfl⟩ | ⟨-, u, hu, ⟨v, hv, rfl⟩ | ⟨-, rfl⟩⟩⟩
  · rfl
  · rfl
  · obtain ⟨-, r, -, -, -, -, rfl⟩ := markLeaf_eq_ok hv
    rw [enterRecon_frame hu]
    rfl
  · rw [enterRecon_frame hu]
    rfl

theorem execDstart_frame {len : BitCount} {s t : State} (h : execDstart len s = .next t) :
    t = { s with phase := t.phase, err := t.err, pos := t.pos, bitlen := t.bitlen, bitcnt := t.bitcnt,
                 resp := t.resp } := by
  rcases execDstart_cases h with ⟨-, rfl⟩ | ⟨-, ⟨-, rfl⟩ | ⟨-, -, rfl⟩ | ⟨-, -, -, rfl⟩⟩ <;> rfl

theorem execDbits_frame {n : Nat} {p : Payload} {s t : State} (h : execDbits n p s = .next t) :
    t = { s with phase := t.phase, err := t.err, pos := t.pos, bitcnt := t.bitcnt, resp := t.resp, out := t.out } := by
  rcases execDbits_cases h with
    ⟨-, rfl⟩ | ⟨-, ⟨-, rfl⟩ | ⟨-, -, -, rfl⟩ | ⟨-, -, ⟨v, hv, rfl⟩ | ⟨e, v, hv, rfl⟩⟩⟩
  · rfl
  · rfl
  · rfl
  · rw [decodeBits_frame hv]
    rfl
  · rw [(decodeBits_fail_frame hv).1]
    rfl

theorem execDend_frame {s t : State} (h : execDend s = .next t) : t = { s with err := t.err, resp := t.resp } := by
  rcases execDend_cases h with ⟨-, rfl⟩ | ⟨-, ⟨-, -, rfl⟩ | ⟨-, rfl⟩ | ⟨-, rfl⟩⟩ <;> rfl

theorem execRdreg_frame {sel : Nat} {s t : State} (h : execRdreg sel s = .next t) :
    t = { s with err := t.err, resp := t.resp } := by
  rcases execRdreg_cases h with ⟨-, v, rfl⟩ | ⟨-, rfl⟩ <;> rfl

theorem execRdnode_frame {idx : NodeIdx} {s t : State} (h : execRdnode idx s = .next t) :
    t = { s with err := t.err, resp := t.resp } := by
  rcases execRdnode_cases h with ⟨-, v, rfl⟩ | ⟨-, rfl⟩ <;> rfl

/-- `s` with the registers that R23 lets `i` write taken from `t`. -/
def written (i : Instr) (s t : State) : State where
  phase := if writtenBy .phase i then t.phase else s.phase
  err := if writtenBy .err i then t.err else s.err
  root := if writtenBy .root i then t.root else s.root
  ncount := if writtenBy .ncount i then t.ncount else s.ncount
  walk := if writtenBy .walk i then t.walk else s.walk
  pos := if writtenBy .pos i then t.pos else s.pos
  bitlen := if writtenBy .bitlen i then t.bitlen else s.bitlen
  bitcnt := if writtenBy .bitcnt i then t.bitcnt else s.bitcnt
  resp := if writtenBy .resp i then t.resp else s.resp
  freq := if writtenBy .freq i then t.freq else s.freq
  node := if writtenBy .node i then t.node else s.node
  out := if writtenBy .out i then t.out else s.out
  input := s.input

theorem unchanged_written {i : Instr} {r : Register} (h : writtenBy r i = false) (s t : State) :
    unchanged s (written i s t) r := by
  cases r <;> simp [unchanged, written, h]

/-- The frame of every command: it changes the registers of R23's table and no other field. -/
theorem exec_eq_written {i : Instr} {s t : State} (h : exec i s = .next t) : t = written i s t := by
  cases i with
  | nop => cases h; rfl
  | clr => cases h; rfl
  | setw c v => exact execSetw_frame h
  | incw c => exact execIncw_frame h
  | build => exact execBuild_frame h
  | ibits n p => exact execIbits_frame h
  | ileaf c => exact execIleaf_frame h
  | dstart len => exact execDstart_frame h
  | dbits n p => exact execDbits_frame h
  | dend => exact execDend_frame h
  | rdreg sel => exact execRdreg_frame h
  | rdnode idx => exact execRdnode_frame h
  | rdfreq c => cases h; rfl

/-- Settles O19, by the frame of every command. -/
theorem registersAreWrittenByTheirCommands : Obligations.RegistersAreWrittenByTheirCommands := by
  intro i s t h r hr
  rw [exec_eq_written h]
  exact unchanged_written hr s t

/-! ## OUT -/

theorem execDbits_out {n : Nat} {p : Payload} {s t : State} (h : execDbits n p s = .next t) :
    ∃ symbols, t.out = s.out ++ symbols := by
  rcases execDbits_cases h with
    ⟨-, rfl⟩ | ⟨-, ⟨-, rfl⟩ | ⟨-, -, -, rfl⟩ | ⟨-, -, ⟨v, hv, rfl⟩ | ⟨e, v, hv, rfl⟩⟩⟩
  · exact ⟨[], by simp⟩
  · exact ⟨[], by simp⟩
  · exact ⟨[], by simp⟩
  · exact decodeBits_out (t := v) (.inl hv)
  · exact decodeBits_out (t := v) (.inr ⟨e, hv⟩)

/-- A command appends to OUT, and only DBITS appends a symbol. -/
theorem exec_out {i : Instr} {s t : State} (h : exec i s = .next t) :
    ∃ symbols, t.out = s.out ++ symbols ∧ (symbols ≠ [] → ∃ n payload, i = .dbits n payload) := by
  cases hw : writtenBy .out i with
  | false =>
    have hout : t.out = s.out := registersAreWrittenByTheirCommands i s t h .out hw
    exact ⟨[], by simp [hout], fun hne => absurd rfl hne⟩
  | true =>
    cases i <;> simp only [writtenBy, Bool.false_eq_true] at hw
    case dbits n payload =>
      obtain ⟨symbols, hout⟩ := execDbits_out h
      exact ⟨symbols, hout, fun _ => ⟨n, payload, rfl⟩⟩

/-- Settles O20, by what a step can be: no word, a command, or an illegal word. -/
theorem outputIsAppendOnly : Obligations.OutputIsAppendOnly := by
  refine ⟨rfl, fun s t h => ?_⟩
  rcases step_cases h with ⟨-, rfl⟩ | ⟨w, ws, hin, ⟨i, hd, hx⟩ | ⟨e, -, rfl⟩⟩
  · exact ⟨[], by simp, fun hne => absurd rfl hne⟩
  · obtain ⟨symbols, hout, hemit⟩ := exec_out hx
    refine ⟨symbols, hout, fun hne => ?_⟩
    obtain ⟨n, payload, rfl⟩ := hemit hne
    exact ⟨w, ws, n, payload, hin, hd⟩
  · exact ⟨[], by simp, fun hne => absurd rfl hne⟩

/-! ## STATUS -/

/-- A field of STATUS by its place in the sum of all fields. -/
theorem extractLsb'_status {s : State} {lo len : Nat} {x : BitVec len}
    (h : (s.ncount.toNat * 2 ^ 32 + (s.root.toNat * 2 ^ 16 + ((errCode s.err).toNat * 2 ^ 8 + (phaseCode s.phase).toNat))) /
      2 ^ lo % 2 ^ len = x.toNat) : (status s).extractLsb' lo len = x := by
  apply BitVec.eq_of_toNat_eq
  rw [BitVec.extractLsb'_toNat, status_toNat, Nat.shiftRight_eq_div_pow, h]

/-- Settles O18: each field is read off STATUS as a number. -/
theorem statusLayout : Obligations.StatusLayout := by
  refine ⟨fun s => ?_, rfl, rfl⟩
  have hn := s.ncount.isLt
  have hr := s.root.isLt
  have he := (errCode s.err).isLt
  have hp := (phaseCode s.phase).isLt
  have hz : ∀ n, (0 : BitVec n).toNat = 0 := fun n => BitVec.toNat_zero
  exact ⟨extractLsb'_status (by omega), extractLsb'_status (by rw [hz]; omega), extractLsb'_status (by omega),
    extractLsb'_status (by rw [hz]; omega), extractLsb'_status (by omega), extractLsb'_status (by rw [hz]; omega),
    extractLsb'_status (by omega), extractLsb'_status (by rw [hz]; omega)⟩

end Sys2Proof.Machine

namespace Sys2Proof.Safety

open Sys2Proof.Machine

/-! ## The structural invariant -/

/-- Settles O58: reset is what CLR restores. -/
theorem resetIsSound : Obligations.ResetIsSound :=
  inv_resetState State.reset

/-- From a sound state every command answers a sound next state. -/
theorem exec_goesOn {s : State} (h : Inv s) (i : Instr) : GoesOn (exec i s) := by
  cases i with
  | nop => exact execNop_goesOn h
  | clr => exact execClr_goesOn s
  | setw c v => exact execSetw_goesOn h c v
  | incw c => exact execIncw_goesOn h c
  | build => exact execBuild_goesOn h
  | ibits n p => exact execIbits_goesOn h n p
  | ileaf c => exact execIleaf_goesOn h c
  | dstart len => exact execDstart_goesOn h len
  | dbits n p => exact execDbits_goesOn h n p
  | dend => exact execDend_goesOn h
  | rdreg sel => exact execRdreg_goesOn h sel
  | rdnode idx => exact execRdnode_goesOn h idx
  | rdfreq c => exact execRdfreq_goesOn h c

theorem exec_keeps_inv {i : Instr} {s t : State} (h : Inv s) (hx : exec i s = .next t) : Inv t := by
  obtain ⟨u, hu, hi⟩ := exec_goesOn h i
  rw [hx, Host.Outcome.next.injEq] at hu
  exact hu ▸ hi

/-- Settles O59: no word, a command (`exec_keeps_inv`), or an illegal word, which raises an error alone. -/
theorem everyStepKeepsTheInvariant : Obligations.EveryStepKeepsTheInvariant := by
  intro s t h hs
  rcases step_cases hs with ⟨-, rfl⟩ | ⟨w, ws, -, ⟨i, -, hx⟩ | ⟨e, -, rfl⟩⟩
  · exact h
  · exact exec_keeps_inv (h.takeCommand ws) hx
  · exact (h.takeCommand ws).raise .illegalCmd

/-! ## Paths and codes -/

/-- Settles O22: a path exists by induction towards ROOT (`TreeOk.path_exists`), and is the only one since each record has
one parent (`TreeOk.path_unique`). -/
theorem everyRecordHasOnePath : Obligations.EveryRecordHasOnePath := by
  refine fun s h hp => ⟨fun i hi => ?_, fun path i => h.tree.follow_allocated (h.root_allocated hp)⟩
  obtain ⟨path, hpath⟩ := h.tree.path_exists hi
  exact ⟨path, hpath, fun path' hpath' => h.tree.path_unique hpath' hpath⟩

/-- The leaves of a built tree that hold `c` are the one at the place of `c` in the table (R131). -/
theorem Built.isLeafOf_iff {s t : State} (h : Built s t) {i : NodeIdx} {c : Symbol} :
    isLeafOf t i c ↔ (tableSymbols s)[i.toNat]? = some c := by
  rw [Safety.isLeafOf_iff]
  constructor
  · rintro ⟨r, hr, hk, rfl⟩
    obtain ⟨d, hd, rfl⟩ := h.leaf_cases hr hk
    exact hd
  · intro hc
    have hi := h.nodeAt_leaf hc
    rw [BitVec.ofNat_toNat, BitVec.setWidth_eq] at hi
    exact ⟨_, hi, rfl, rfl⟩

theorem tableSymbols_nodup (s : State) : (tableSymbols s).Nodup :=
  (tableSymbols_rising s).imp fun hlt heq => Nat.ne_of_lt hlt (congrArg BitVec.toNat heq)

/-- A symbol of the table is held by exactly one leaf of the built tree. -/
theorem Built.exists_unique_leaf {s t : State} (h : Built s t) {c : Symbol} (hc : readFreq s c ≠ 0) :
    ∃! i, isLeafOf t i c := by
  obtain ⟨j, hj, hjc⟩ := List.getElem_of_mem (mem_tableSymbols.2 hc)
  have hlen := tableSymbols_length_le s
  have hjn : (BitVec.ofNat 9 j).toNat = j := by rw [BitVec.toNat_ofNat]; omega
  refine ⟨BitVec.ofNat 9 j, h.isLeafOf_iff.2 ?_, fun i hi => BitVec.eq_of_toNat_eq ?_⟩
  · rw [hjn, List.getElem?_eq_getElem hj, hjc]
  · obtain ⟨hi, hic⟩ := List.getElem?_eq_some_iff.1 (h.isLeafOf_iff.1 hi)
    rw [hjn]
    exact (tableSymbols_nodup s).getElem_inj_iff.1 (hic.trans hjc.symm)

/-- Settles O43: one leaf for each symbol of the table and for no other, and one path to each leaf. -/
theorem everySymbolOfTheTableHasOneCode : Obligations.EverySymbolOfTheTableHasOneCode := by
  intro s t h c
  refine ⟨fun hc => ?_, fun hc code ⟨i, _, hi⟩ => ?_⟩
  · obtain ⟨i, hi, huniq⟩ := h.exists_unique_leaf hc
    obtain ⟨r, hr, -⟩ := Safety.isLeafOf_iff.1 hi
    obtain ⟨code, hcode⟩ := h.inv.tree.path_exists (nodeAt_lt hr)
    refine ⟨code, ⟨i, hcode, hi⟩, fun code' ⟨i', hcode', hi'⟩ => ?_⟩
    rw [huniq i' hi'] at hcode'
    exact h.inv.tree.path_unique hcode' hcode
  · exact mem_tableSymbols.1 (List.mem_of_getElem? (h.isLeafOf_iff.1 hi)) hc

/-! ## ROOT -/

theorem Inv.idle_iff_root_nil {s : State} (h : Inv s) : s.phase = .idle ↔ s.root = Config.nil := by
  constructor
  · intro hp
    have hph := h.phase_ok
    simp only [PhaseOk, hp] at hph
    exact hph.1
  · intro hr
    by_contra hp
    obtain ⟨r, hroot, -⟩ := isInternal_iff.1 (h.hasTree hp)
    exact nodeAt_ne_nil hroot hr

theorem Built.root_is_last {s t : State} (h : Built s t) : t.root.toNat + 1 = t.ncount.toNat := by
  rcases h.cases with ⟨c, -, rfl⟩ | ⟨hn, r, u, rfl, hm⟩
  · rfl
  · obtain ⟨hcount, hroot⟩ := hm.sizes hn
    show r.toNat + 1 = u.ncount.toNat
    omega

/-- BUILD leaves ROOT, or makes a tree from IDLE. -/
theorem build_root_cases {s t : State} (h : Inv s) (hx : exec .build s = .next t) :
    t.root = s.root ∨ (s.phase = .idle ∧ t.root.toNat + 1 = t.ncount.toNat) := by
  rcases execBuild_cases hx with
    ⟨-, rfl⟩ | ⟨he, ⟨-, rfl⟩ | ⟨-, -, rfl⟩ | ⟨-, -, -, rfl⟩ | ⟨hp, -, -, u, hu, rfl⟩⟩
  · exact .inl rfl
  · exact .inl rfl
  · exact .inl rfl
  · exact .inl rfl
  · have herr : (respondStatus u).err = .none := by rw [buildTree_frame hu]; exact he
    exact .inr ⟨hp, Built.root_is_last ⟨h, hp, he, hx, herr⟩⟩

theorem enterRecon_root_cases {s t : State} (h : Inv s) (hx : enterRecon s = .ok t) :
    t.root = s.root ∨ (s.phase = .idle ∧ t.root = 0) := by
  rcases enterRecon_cases hx with ⟨hp, -, rfl⟩ | ⟨-, rfl⟩
  · exact .inr ⟨hp, by rw [started_eq h hp]⟩
  · exact .inl rfl

/-- IBITS leaves ROOT, or opens a reconstruction in IDLE. -/
theorem ibits_root_cases {n : Nat} {p : Payload} {s t : State} (h : Inv s) (hx : exec (.ibits n p) s = .next t) :
    t.root = s.root ∨ (s.phase = .idle ∧ t.root = 0) := by
  rcases execIbits_cases hx with
    ⟨-, rfl⟩ | ⟨-, ⟨-, rfl⟩ | ⟨-, -, -, rfl⟩ | ⟨-, -, u, hu, ⟨v, hv, rfl⟩ | ⟨e, v, hv, rfl⟩⟩⟩
  · exact .inl rfl
  · exact .inl rfl
  · exact .inl rfl
  · rw [walkBits_frame hv]
    exact enterRecon_root_cases (t := u) h hu
  · rw [(walkBits_fail_frame hv).1]
    exact enterRecon_root_cases (t := u) h hu

/-- ILEAF leaves ROOT, or opens a reconstruction in IDLE. -/
theorem ileaf_root_cases {c : Symbol} {s t : State} (h : Inv s) (hx : exec (.ileaf c) s = .next t) :
    t.root = s.root ∨ (s.phase = .idle ∧ t.root = 0) := by
  rcases execIleaf_cases hx with ⟨-, rfl⟩ | ⟨-, ⟨-, -, rfl⟩ | ⟨-, u, hu, ⟨v, hv, rfl⟩ | ⟨-, rfl⟩⟩⟩
  · exact .inl rfl
  · exact .inl rfl
  · obtain ⟨-, r, -, -, -, -, rfl⟩ := markLeaf_eq_ok hv
    exact enterRecon_root_cases (t := u) h hu
  · exact enterRecon_root_cases (t := u) h hu

/-- How ROOT can change: CLR clears it, and from IDLE BUILD sets it to its last record and a reconstruction to 0 (R28). -/
theorem exec_root_cases {i : Instr} {s t : State} (h : Inv s) (hx : exec i s = .next t) :
    t.root = s.root ∨ i = .clr ∨ (s.phase = .idle ∧
      ((i = .build ∧ t.root.toNat + 1 = t.ncount.toNat) ∨
       ((∃ n payload, i = .ibits n payload) ∨ ∃ sym, i = .ileaf sym) ∧ t.root = 0)) := by
  cases hw : writtenBy .root i with
  | false => exact .inl (registersAreWrittenByTheirCommands i s t hx .root hw)
  | true =>
    cases i <;> simp only [writtenBy, Bool.false_eq_true] at hw
    case clr => exact .inr (.inl rfl)
    case build => exact (build_root_cases h hx).imp_right fun ⟨hp, hr⟩ => .inr ⟨hp, .inl ⟨rfl, hr⟩⟩
    case ibits n payload =>
      exact (ibits_root_cases h hx).imp_right fun ⟨hp, hr⟩ => .inr ⟨hp, .inr ⟨.inl ⟨n, payload, rfl⟩, hr⟩⟩
    case ileaf sym => exact (ileaf_root_cases h hx).imp_right fun ⟨hp, hr⟩ => .inr ⟨hp, .inr ⟨.inr ⟨sym, rfl⟩, hr⟩⟩

/-- Settles O21, by how ROOT can change (`exec_root_cases`). -/
theorem rootIsFixedUntilClear : Obligations.RootIsFixedUntilClear := by
  intro i s t h hx
  refine ⟨h.idle_iff_root_nil, fun hr => ?_, fun hne hclr => ?_⟩
  · rcases exec_root_cases h hx with hsame | hclr | ⟨hp, -⟩
    · exact .inl hsame
    · exact .inr hclr
    · exact absurd (h.idle_iff_root_nil.1 hp) hr
  · rcases exec_root_cases h hx with hsame | hc | ⟨-, hset⟩
    · exact absurd hsame hne
    · exact absurd hc hclr
    · exact hset

end Sys2Proof.Safety
end

section
/-! PROOFS. The statements of 20_memory: every step of a sound state completes (R63), and which commands are idempotent (R65). -/

namespace Sys2Proof.Safety

open Sys2Proof.Machine

/-! ## Every step completes -/

/-- Settles O60: no word, a command (`exec_goesOn`), or an illegal word, which raises an error alone. -/
theorem everyStepCompletes : Obligations.EveryStepCompletes := by
  intro s h
  cases hin : s.input with
  | nil => exact ⟨s, step_of_idle hin⟩
  | cons w ws =>
    cases hd : decode w with
    | ok i =>
      obtain ⟨t, ht, -⟩ := exec_goesOn (h.takeCommand ws) i
      exact ⟨t, (step_of_command hin hd).trans ht⟩
    | error e => exact ⟨_, step_of_illegal hin hd⟩

end Sys2Proof.Safety

namespace Sys2Proof.Machine

/-! ## A write of FREQ, done twice -/

/-- No canonical form is needed: a put stops at the key's place, which the first put fixed. -/
@[simp] theorem storePut_storePut_same {α : Type} (m : List (Nat × α)) (k : Nat) (v : α) :
    storePut (storePut m k v) k v = storePut m k v := by
  induction m with
  | nil => simp [storePut]
  | cons e m ih =>
    obtain ⟨j, w⟩ := e
    by_cases hlt : k < j
    · simp [storePut, hlt]
    · by_cases heq : k = j
      · simp [storePut, heq]
      · simp [storePut, hlt, heq, ih]

@[simp] theorem storeErase_storeErase_same {α : Type} (m : List (Nat × α)) (k : Nat) :
    storeErase (storeErase m k) k = storeErase m k := by
  induction m with
  | nil => rfl
  | cons e m ih =>
    obtain ⟨j, w⟩ := e
    by_cases hj : j = k <;> simp [storeErase, hj, ih]

@[simp] theorem writeFreq_writeFreq_same (s : State) (c : Symbol) (v : Weight) :
    writeFreq (writeFreq s c v) c v = writeFreq s c v := by
  by_cases hv : v = 0
  · subst hv
    simp [writeFreq]
  · simp only [writeFreq, if_neg hv, storePut_storePut_same]

/-- STATUS holds neither RESP nor FREQ, so a response before the write leaves no trace once the write has responded. -/
theorem respondStatus_writeFreq_respondStatus (s : State) (c : Symbol) (v : Weight) :
    respondStatus (writeFreq (respondStatus s) c v) = respondStatus (writeFreq s c v) := rfl

/-! ## Commands that an error holds back, done twice -/

/-- A gated command that an error held back is held back again. -/
theorem exec_respondStatus_of_error {i : Instr} {s : State} (hg : Safety.passesGate i = false) (he : s.err ≠ .none) :
    exec i (respondStatus s) = .next (respondStatus s) :=
  exec_of_error (s := respondStatus s) hg he

/-- Once an error is raised, a gated command changes nothing. -/
theorem exec_raise {i : Instr} {s : State} {e : Err} (hg : Safety.passesGate i = false) (hs : s.err = .none)
    (he : e ≠ .none) : exec i (raise e s) = .next (raise e s) :=
  exec_of_error (s := raise e s) hg (by rwa [raise_err, hs, stickyErr_none])

/-! ## The idempotent commands -/

theorem exec_setw_again {c : Symbol} {v : Weight} {s t : State} (h : exec (.setw c v) s = .next t) :
    exec (.setw c v) t = .next t := by
  rcases execSetw_cases h with ⟨he, rfl⟩ | ⟨he, ⟨-, rfl⟩ | ⟨hp, rfl⟩⟩
  · exact exec_respondStatus_of_error rfl he
  · exact exec_raise rfl he (by decide)
  · simp [exec, execSetw, gated_of_noError, he, hp, respondStatus_writeFreq_respondStatus]

theorem exec_dend_again {s t : State} (h : exec .dend s = .next t) : exec .dend t = .next t := by
  rcases execDend_cases h with ⟨he, rfl⟩ | ⟨he, ⟨-, -, rfl⟩ | ⟨-, rfl⟩ | ⟨hp, rfl⟩⟩
  · exact exec_respondStatus_of_error rfl he
  · exact exec_raise rfl he (by decide)
  · exact exec_raise rfl he (by decide)
  · simp only [exec, execDend, gated_of_noError, respondStatus_err, respondStatus_phase, he, hp]
    rfl

/-- What CLR keeps, OUT and the words still to write, it keeps again; all else it resets. -/
theorem exec_clr_again {s t : State} (h : exec .clr s = .next t) : exec .clr t = .next t := by
  cases h
  rfl

/-- Settles O23: a first run that raised an error or met one makes the second an ignored command; after a first run that
succeeded the second writes what is there. -/
theorem idempotentCommands : Obligations.IdempotentCommands := by
  rintro i s t (⟨c, v, rfl⟩ | rfl | rfl) h
  · exact exec_setw_again h
  · exact exec_dend_again h
  · exact exec_clr_again h

end Sys2Proof.Machine
end

section
/-! PROOFS. The statements of 30_encoding: decode and encode are inverse (R88, R91), the match and mask table (R85), the operand fields (R82), illegal words (R86, R87) and bit chunks (R84). -/

namespace Sys2Proof

open Sys2Proof.Laws Sys2Proof.Machine Sys2Proof.Safety

/-! ## A word is a command: its row of R85 and its operand fields -/

/-- The format of a command (R85). -/
def Instr.format : Instr → Format
  | .nop | .clr | .build | .dend => .N
  | .setw _ _ => .SW
  | .incw _ | .ileaf _ | .rdfreq _ => .Y
  | .ibits _ _ | .dbits _ _ => .BT
  | .dstart _ => .LN
  | .rdreg _ => .SL
  | .rdnode _ => .IX

/-- The command of the same mnemonic whose operands are the fields of `w` (R82). -/
def Instr.withFields (w : Word) : Instr → Instr
  | .nop => .nop
  | .clr => .clr
  | .setw _ _ => .setw (field w 32 8) (field w 0 32)
  | .incw _ => .incw (field w 0 8)
  | .build => .build
  | .ibits _ _ => .ibits (field w 32 6).toNat (field w 0 32)
  | .ileaf _ => .ileaf (field w 0 8)
  | .dstart _ => .dstart (field w 0 48)
  | .dbits _ _ => .dbits (field w 32 6).toNat (field w 0 32)
  | .dend => .dend
  | .rdreg _ => .rdreg (field w 0 4).toNat
  | .rdnode _ => .rdnode (field w 0 9)
  | .rdfreq _ => .rdfreq (field w 0 8)

@[simp] theorem opcode_withFields (i : Instr) (w : Word) : (i.withFields w).opcode = i.opcode := by
  cases i <;> rfl

@[simp] theorem format_withFields (i : Instr) (w : Word) : (i.withFields w).format = i.format := by
  cases i <;> rfl

@[simp] theorem withFields_withFields (i : Instr) (w : Word) : (i.withFields w).withFields w = i.withFields w := by
  cases i <;> rfl

/-- The decoder, said once for all commands: a word decodes to `i` exactly when it has the opcode of `i`, the reserved bits
of that format are 0, and the operands of `i` are the word's fields. -/
theorem decode_eq_ok_iff {w : Word} {i : Instr} :
    decode w = .ok i ↔ field w 56 8 = i.opcode ∧ reservedZero i.format w = true ∧ i.withFields w = i := by
  constructor
  · intro h
    rcases decode_cases h with h | h | h | h | h | h | h | h | h | h | h | h | h <;>
      obtain ⟨ho, hr, rfl⟩ := h <;> exact ⟨ho, hr, rfl⟩
  · rintro ⟨ho, hr, hi⟩
    have hchecked : decode w = checked i.format w (i.withFields w) := by
      rw [decode, ho]
      cases i <;> rfl
    rw [hchecked, checked_eq_ok_iff]
    exact ⟨hr, hi⟩

/-! ## Decode after encode -/

/-- The operand bits of a command as a number (R81). -/
def Instr.operandNat : Instr → Nat
  | .nop | .clr | .build | .dend => 0
  | .setw sym val => sym.toNat * 2 ^ 32 + val.toNat
  | .incw sym | .ileaf sym | .rdfreq sym => sym.toNat
  | .ibits n payload | .dbits n payload => n % 2 ^ 6 * 2 ^ 32 + payload.toNat
  | .dstart len => len.toNat
  | .rdreg sel => sel % 2 ^ 4
  | .rdnode idx => idx.toNat

theorem toNat_zero_append (m : Nat) {n : Nat} (x : BitVec n) : (0#m ++ x).toNat = x.toNat := by
  simp

theorem toNat_operandBits (i : Instr) : i.operandBits.toNat = i.operandNat := by
  cases i with
  | nop | clr | build | dend => rfl
  | setw sym val => exact (toNat_zero_append 16 _).trans (toNat_append_eq sym val)
  | ibits n payload | dbits n payload => exact (toNat_zero_append 18 _).trans (toNat_append_eq (BitVec.ofNat 6 n) payload)
  | incw | ileaf | rdfreq => exact toNat_zero_append 48 _
  | dstart len => exact toNat_zero_append 8 len
  | rdreg sel => exact toNat_zero_append 52 (BitVec.ofNat 4 sel)
  | rdnode idx => exact toNat_zero_append 47 idx

/-- The operands of a command end below the reserved bits of its format. -/
theorem operandNat_lt (i : Instr) : i.operandNat < 2 ^ (reservedAt i.format).1 := by
  cases i <;> simp only [Instr.operandNat, Instr.format, reservedAt] <;> omega

/-- The reserved bits of a format end where the opcode begins. -/
theorem reservedAt_add (f : Format) : (reservedAt f).1 + (reservedAt f).2 = 56 := by
  cases f <;> rfl

theorem toNat_field_encode (i : Instr) {lo len : Nat} (hfit : lo + len ≤ 56) :
    (field (encode i) lo len).toNat = i.operandNat / 2 ^ lo % 2 ^ len := by
  rw [field_encode i hfit, toNat_operandBits]

theorem reservedZero_encode (i : Instr) : reservedZero i.format (encode i) = true := by
  rw [reservedZero_iff, ← toNat_field, toNat_field_encode i (reservedAt_add _).le, Nat.div_eq_of_lt (operandNat_lt i),
    Nat.zero_mod]

/-- A field of a command's word is the operand that stands there. -/
theorem field_encode_eq {i : Instr} {lo len : Nat} {x : BitVec len} (hfit : lo + len ≤ 56)
    (h : i.operandNat / 2 ^ lo % 2 ^ len = x.toNat) : field (encode i) lo len = x :=
  BitVec.eq_of_toNat_eq ((toNat_field_encode i hfit).trans h)

/-- The field at bit 0 of a command with one operand. -/
theorem field_encode_of_single {i : Instr} {len : Nat} {x : BitVec len} (hfit : len ≤ 56) (h : i.operandNat = x.toNat) :
    field (encode i) 0 len = x :=
  field_encode_eq (by omega) (by rw [h, pow_zero, Nat.div_one, Nat.mod_eq_of_lt x.isLt])

theorem withFields_encode {i : Instr} (h : i.wellFormed = true) : i.withFields (encode i) = i := by
  cases i with
  | nop | clr | build | dend => rfl
  | setw sym val =>
    refine congrArg₂ Instr.setw (field_encode_eq (by decide) ?_) (field_encode_eq (by decide) ?_) <;>
      simp only [Instr.operandNat] <;> omega
  | ibits n payload | dbits n payload =>
    have hn : n < 2 ^ 6 := of_decide_eq_true h
    refine congrArg₂ _ ((toNat_field_encode _ (by decide)).trans ?_) (field_encode_eq (by decide) ?_) <;>
      simp only [Instr.operandNat] <;> omega
  | incw | ileaf | rdfreq | dstart | rdnode => exact congrArg _ (field_encode_of_single (by decide) rfl)
  | rdreg sel =>
    have hsel : sel < 2 ^ 4 := of_decide_eq_true h
    refine congrArg Instr.rdreg ((toNat_field_encode _ (by decide)).trans ?_)
    simp only [Instr.operandNat]
    omega

/-- Settles O1: the word of a command has its opcode, no reserved bit, and its operands in their fields. -/
theorem decodeOfEncodeIsTheCommand : Obligations.DecodeOfEncodeIsTheCommand := fun i h =>
  decode_eq_ok_iff.2 ⟨field_opcode_encode i, reservedZero_encode i, withFields_encode h⟩

/-! ## Encode after decode -/

theorem wellFormed_withFields (i : Instr) (w : Word) : (i.withFields w).wellFormed = true := by
  cases i <;> simp only [Instr.withFields, Instr.wellFormed, decide_eq_true_eq] <;> exact BitVec.isLt _

/-- Where the reserved bits are 0, the fields are all of bits [55:0]. -/
theorem operandNat_withFields {i : Instr} {w : Word} (h : reservedZero i.format w = true) :
    (i.withFields w).operandNat = w.toNat % 2 ^ 56 := by
  rw [reservedZero_iff] at h
  cases i <;> simp only [Instr.format, reservedAt] at h <;>
    simp only [Instr.withFields, Instr.operandNat, toNat_field] <;> omega

/-- Settles O2: the opcode and the fields are all of a legal word, since its reserved bits are 0. -/
theorem encodeOfDecodeIsTheWord : Obligations.EncodeOfDecodeIsTheWord := by
  intro w i h
  obtain ⟨ho, hr, hi⟩ := decode_eq_ok_iff.1 h
  refine ⟨hi ▸ wellFormed_withFields i w, BitVec.eq_of_toNat_eq ?_⟩
  have hop : i.operandNat = w.toNat % 2 ^ 56 := by rw [← operandNat_withFields hr, hi]
  rw [toNat_encode, toNat_operandBits, hop, ← ho, toNat_field]
  omega

/-! ## The match and mask table -/

/-- The row of a command in the match and mask table: its opcode, and all bits from its lowest reserved bit up. -/
def Instr.row (i : Instr) : MatchMask where
  opc := i.opcode
  matchWord := BitVec.ofNat 64 (i.opcode.toNat * 2 ^ 56)
  mask := BitVec.allOnes 64 <<< (reservedAt i.format).1

/-- The rows of R85 are those of the thirteen commands. -/
theorem mem_matchMaskTable_iff {m : MatchMask} : m ∈ matchMaskTable ↔ ∃ i : Instr, m = i.row := by
  constructor
  · intro hm
    simp only [matchMaskTable, List.mem_cons, List.not_mem_nil, or_false] at hm
    rcases hm with rfl | rfl | rfl | rfl | rfl | rfl | rfl | rfl | rfl | rfl | rfl | rfl | rfl
    · exact ⟨.nop, by decide⟩
    · exact ⟨.clr, by decide⟩
    · exact ⟨.setw 0 0, by decide⟩
    · exact ⟨.incw 0, by decide⟩
    · exact ⟨.build, by decide⟩
    · exact ⟨.ibits 0 0, by decide⟩
    · exact ⟨.ileaf 0, by decide⟩
    · exact ⟨.dstart 0, by decide⟩
    · exact ⟨.dbits 0 0, by decide⟩
    · exact ⟨.dend, by decide⟩
    · exact ⟨.rdreg 0, by decide⟩
    · exact ⟨.rdnode 0, by decide⟩
    · exact ⟨.rdfreq 0, by decide⟩
  · rintro ⟨i, rfl⟩
    cases i <;> simp only [Instr.row, Instr.opcode, Instr.format, reservedAt] <;> decide

/-- No two rows of R85 have the same opcode. -/
theorem matchMaskTable_opc_inj : ∀ m ∈ matchMaskTable, ∀ m' ∈ matchMaskTable, m.opc = m'.opc → m = m' := by
  decide

theorem row_eq_of_opcode {m : MatchMask} (hm : m ∈ matchMaskTable) {i : Instr} (h : i.opcode = m.opc) : i.row = m :=
  matchMaskTable_opc_inj _ (mem_matchMaskTable_iff.2 ⟨i, rfl⟩) m hm h

/-- A word matches the row of `i` when it has its opcode and no reserved bit of its format. -/
theorem and_row_mask_eq_iff (w : Word) (i : Instr) :
    w &&& i.row.mask = i.row.matchWord ↔ field w 56 8 = i.opcode ∧ reservedZero i.format w = true := by
  have hopc : w.toNat / 2 ^ 56 = i.opcode.toNat ↔ field w 56 8 = i.opcode := by
    rw [← BitVec.toNat_inj, toNat_field]
    omega
  have hend := reservedAt_add i.format
  have hlen : (reservedAt i.format).2 = 56 - (reservedAt i.format).1 := by omega
  rw [reservedZero_iff, hlen, ← hopc]
  exact and_topMask_eq_iff w (by omega) i.opcode

/-- A word that decodes to `i` matches the row of `i`. -/
theorem and_row_mask_of_decode {w : Word} {i : Instr} (h : decode w = .ok i) : w &&& i.row.mask = i.row.matchWord := by
  obtain ⟨ho, hr, -⟩ := decode_eq_ok_iff.1 h
  exact (and_row_mask_eq_iff w i).2 ⟨ho, hr⟩

/-- Settles O3: a word that matches a row decodes to the row's command with the word's fields for operands. -/
theorem decodeFollowsTheMatchMaskTable : Obligations.DecodeFollowsTheMatchMaskTable := by
  refine fun w => ⟨fun m hm => ⟨fun h => ?_, ?_⟩, fun i _ => ⟨i.row, mem_matchMaskTable_iff.2 ⟨i, rfl⟩, rfl⟩⟩
  · obtain ⟨i, rfl⟩ := mem_matchMaskTable_iff.1 hm
    obtain ⟨ho, hr⟩ := (and_row_mask_eq_iff w i).1 h
    exact ⟨i.withFields w, decode_eq_ok_iff.2 (by simp [ho, hr]), opcode_withFields i w⟩
  · rintro ⟨i, hd, hi⟩
    obtain rfl := row_eq_of_opcode hm hi
    exact and_row_mask_of_decode hd

/-! ## The operand fields -/

/-- Settles O4: a decoded command is read off the word's fields (`decode_eq_ok_iff`). -/
theorem operandsAreReadUnscaled : Obligations.OperandsAreReadUnscaled := by
  refine ⟨fun w i h => ?_, fun sym val => ⟨rfl, rfl, rfl, rfl⟩⟩
  have hlow : ∀ len, (field w 0 len).toNat = w.toNat % 2 ^ len := fun len => by rw [toNat_field, pow_zero, Nat.div_one]
  obtain ⟨-, -, hi⟩ := decode_eq_ok_iff.1 h
  rw [← hi]
  cases i with
  | nop | clr | build | dend => trivial
  | setw | ibits | dbits => exact ⟨toNat_field w _ _, hlow _⟩
  | incw | ileaf | rdfreq | dstart | rdnode | rdreg => exact hlow _

/-! ## Illegal words -/

/-- A word that decodes to no command raises ILLEGAL_CMD and has no other effect (R86, R87). -/
theorem step_of_no_command {s : State} {w : Word} {ws : List Word} (hin : s.input = w :: ws)
    (h : ∀ i, decode w ≠ .ok i) : step s = .next (failed .illegalCmd { s with input := ws }) := by
  cases hd : decode w with
  | ok i => exact absurd hd (h i)
  | error e => exact step_of_illegal hin hd

theorem opcode_toNat_of_decode {w : Word} {i : Instr} (h : decode w = .ok i) : w.toNat / 2 ^ 56 = i.opcode.toNat := by
  rw [← field_opcode_of_decode h, toNat_field]
  omega

/-- A match word of R85 has only opcode bits. -/
theorem getLsbD_row_matchWord (i : Instr) {k : Nat} (hk : k < 56) : i.row.matchWord.getLsbD k = false := by
  rw [Instr.row, BitVec.getLsbD_ofNat, Nat.testBit_mul_two_pow, decide_eq_false (by omega : ¬56 ≤ k), Bool.false_and,
    Bool.and_false]

/-- Settles O5: a command's word matches the command's row, whose match word has a 0 in every bit of the mask below the
opcode. -/
theorem reservedBitsAreNeverIgnored : Obligations.ReservedBitsAreNeverIgnored := by
  intro s w ws m k hin hm hopc hk hmask hbit
  refine step_of_no_command hin fun i hd => ?_
  obtain rfl := row_eq_of_opcode hm (BitVec.eq_of_toNat_eq ((opcode_toNat_of_decode hd).symm.trans hopc))
  have hset : (w &&& i.row.mask).getLsbD k = true := by rw [BitVec.getLsbD_and, hbit, hmask]; rfl
  rw [and_row_mask_of_decode hd, getLsbD_row_matchWord i hk] at hset
  exact Bool.false_ne_true hset

theorem unassignedOpcode_opcode (i : Instr) : unassignedOpcode i.opcode.toNat = false := by
  cases i <;> rfl

/-- A word with an unassigned opcode decodes to no command. -/
theorem decode_ne_ok_of_unassigned {w : Word} (h : unassignedOpcode (w.toNat / 2 ^ 56) = true) (i : Instr) :
    decode w ≠ .ok i := by
  intro hd
  rw [opcode_toNat_of_decode hd, unassignedOpcode_opcode] at h
  exact Bool.false_ne_true h

/-- Settles O6: no command has an unassigned opcode, and the all-ones word has one, 0xFF. -/
theorem unassignedOpcodesAreIllegal : Obligations.UnassignedOpcodesAreIllegal :=
  ⟨fun _ _ _ hin h => step_of_no_command hin (decode_ne_ok_of_unassigned h), rfl,
    fun _ _ hin => step_of_no_command hin (decode_ne_ok_of_unassigned (by decide))⟩

/-! ## Bit chunks -/

theorem chunkBits_eq_map (n : Nat) (payload : Payload) :
    chunkBits n payload = (List.range n).map fun j => payload.getLsbD (n - 1 - j) := by
  induction n with
  | zero => rfl
  | succ n ih =>
    rw [chunkBits, ih, List.range_succ_eq_map, List.map_cons, List.map_map]
    refine congrArg _ (List.map_congr_left fun j _ => ?_)
    simp [Nat.sub_sub, Nat.add_comm]

theorem exec_ibits_of_invalid {n : Nat} {payload : Payload} {s : State} (he : s.err = .none)
    (hv : chunkValid n payload = false) : exec (.ibits n payload) s = .next (failed .badOperand s) := by
  simp only [exec, execIbits, gated_of_noError he, hv, if_true]
  rfl

theorem exec_dbits_of_invalid {n : Nat} {payload : Payload} {s : State} (he : s.err = .none)
    (hv : chunkValid n payload = false) : exec (.dbits n payload) s = .next (failed .badOperand s) := by
  simp only [exec, execDbits, gated_of_noError he, hv, if_true]
  rfl

/-- Settles O7: `chunkValid_iff`, the bits by induction on their number, and the operand check at the head of both
commands. -/
theorem bitChunksAreFirstBitHighest : Obligations.BitChunksAreFirstBitHighest := fun n payload =>
  ⟨chunkValid_iff, chunkBits_eq_map n payload,
    fun _ he hv => ⟨exec_ibits_of_invalid he hv, exec_dbits_of_invalid he hv⟩⟩

/-! ## Sample words -/

/-- Settles O8: the decoder evaluates on each word. -/
theorem sampleWordsDecode : Obligations.SampleWordsDecode :=
  ⟨rfl, rfl, rfl, rfl, rfl, rfl, rfl, rfl, rfl, rfl, rfl, rfl, rfl⟩

end Sys2Proof
end

section
/-! PROOFS. The statements of 40_table_load: SETW (R110), INCW (R111), and what a sequence of either leaves in the table (R112, R113). -/

namespace Sys2Proof.Machine

open Sys2Proof.Laws Sys2Proof.Safety

/-! ## One SETW -/

theorem exec_setw_of_idle {s : State} (he : s.err = .none) (hp : s.phase = .idle) (c : Symbol) (v : Weight) :
    exec (.setw c v) s = .next (respondStatus (writeFreq s c v)) := by
  simp [exec, execSetw, gated_of_noError he, hp]

theorem exec_setw_of_not_idle {s : State} (he : s.err = .none) (hp : s.phase ≠ .idle) (c : Symbol) (v : Weight) :
    exec (.setw c v) s = .next (failed .sequence s) := by
  simp only [exec, execSetw, gated_of_noError he, if_pos hp]
  rfl

@[simp] theorem readFreq_respondStatus (s : State) (c : Symbol) : readFreq (respondStatus s) c = readFreq s c := rfl

/-- A symbol just written is in the table exactly when its weight is not 0 (R34). -/
theorem mem_tableSymbols_respondStatus_writeFreq (s : State) (c : Symbol) (v : Weight) :
    c ∈ tableSymbols (respondStatus (writeFreq s c v)) ↔ v ≠ 0 := by
  rw [mem_tableSymbols, readFreq_respondStatus, readFreq_writeFreq, if_pos rfl]

/-- Settles O30: the write's own laws in IDLE, the phase check elsewhere, and the codec's round trip. -/
theorem setwSetsTheWeight : Obligations.SetwSetsTheWeight := by
  intro s c v he
  refine ⟨fun hp => ⟨_, exec_setw_of_idle he hp c v, rfl, rfl, fun d => ?_, mem_tableSymbols_respondStatus_writeFreq s c v⟩,
    fun hp => exec_setw_of_not_idle he hp c v, ?_, decodeOfEncodeIsTheCommand _ rfl⟩
  · rw [readFreq_respondStatus, readFreq_writeFreq]
    simp only [eq_comm]
  · rw [toNat_encode, toNat_operandBits, Nat.add_assoc]
    rfl

/-! ## One INCW -/

/-- `s` with one more occurrence of `c` counted (R111). -/
def counted (s : State) (c : Symbol) : State :=
  respondStatus (writeFreq s c (readFreq s c + 1))

theorem exec_incw_of_lt {s : State} {c : Symbol} (he : s.err = .none) (hp : s.phase = .idle)
    (hlt : (readFreq s c).toNat < Config.wmax) : exec (.incw c) s = .next (counted s c) := by
  simp [exec, execIncw, gated_of_noError he, hp, hlt.ne, counted]

theorem exec_incw_of_wmax {s : State} {c : Symbol} (he : s.err = .none) (hp : s.phase = .idle)
    (hmax : (readFreq s c).toNat = Config.wmax) : exec (.incw c) s = .next (failed .weightOvf s) := by
  simp only [exec, execIncw, gated_of_noError he, hp, ne_eq, not_true_eq_false, if_false, if_pos hmax]
  rfl

theorem exec_incw_of_not_idle {s : State} (he : s.err = .none) (hp : s.phase ≠ .idle) (c : Symbol) :
    exec (.incw c) s = .next (failed .sequence s) := by
  simp only [exec, execIncw, gated_of_noError he, if_pos hp]
  rfl

theorem readFreq_counted_other (s : State) {c d : Symbol} (h : c ≠ d) : readFreq (counted s c) d = readFreq s d := by
  rw [counted, readFreq_respondStatus, readFreq_writeFreq, if_neg h]

/-- Below WMAX the count does not wrap (R10). -/
theorem toNat_readFreq_counted_same {s : State} {c : Symbol} (hlt : (readFreq s c).toNat < Config.wmax) :
    (readFreq (counted s c) c).toNat = (readFreq s c).toNat + 1 := by
  rw [counted, readFreq_respondStatus, readFreq_writeFreq, if_pos rfl]
  exact BitVec.toNat_add_of_lt (Nat.succ_lt_succ hlt)

theorem Memory.wf_counted {s : State} (h : Memory.wf s) (c : Symbol) : Memory.wf (counted s c) :=
  Memory.wf_congr (s := writeFreq s c (readFreq s c + 1)) rfl rfl (Memory.wf_writeFreq h c _)

/-- WMAX is the largest weight, so every other one is below it (R6). -/
theorem toNat_lt_wmax_of_ne {v : Weight} (h : v ≠ 0xFFFFFFFF#32) : v.toNat < Config.wmax := by
  show v.toNat < 0xFFFFFFFF
  bv_omega

/-- Settles O31: below WMAX the count is one more, at WMAX and outside IDLE the checks raise, and the codec round-trips. -/
theorem incwCountsOneOccurrence : Obligations.IncwCountsOneOccurrence := by
  intro s c he
  refine ⟨fun hp hne => ?_, fun hp hmax => exec_incw_of_wmax he hp (by rw [hmax]; rfl),
    fun hp => exec_incw_of_not_idle he hp c, ?_, decodeOfEncodeIsTheCommand _ rfl⟩
  · have hlt := toNat_lt_wmax_of_ne hne
    exact ⟨_, exec_incw_of_lt he hp hlt, rfl, rfl, toNat_readFreq_counted_same hlt,
      fun d hd => readFreq_counted_other s hd.symm⟩
  · rw [toNat_encode, toNat_operandBits]
    rfl

/-! ## A sequence of INCW -/

/-- One occurrence counted is one occurrence less to come. -/
theorem toNat_readFreq_counted_add_count {s : State} {c : Symbol} (hlt : (readFreq s c).toNat < Config.wmax)
    (cs : List Symbol) (d : Symbol) :
    (readFreq (counted s c) d).toNat + cs.count d = (readFreq s d).toNat + (c :: cs).count d := by
  by_cases h : c = d
  · subst h
    rw [toNat_readFreq_counted_same hlt, List.count_cons_self]
    omega
  · rw [readFreq_counted_other s h, List.count_cons_of_ne h]

/-- What a sequence of INCW leaves when no weight passes WMAX: each weight grown by its symbol's occurrences, and, but for
RESP, nothing else changed. -/
theorem execAll_incw {syms : List Symbol} {s : State} (he : s.err = .none) (hp : s.phase = .idle) (hm : Memory.wf s)
    (hb : ∀ c, (readFreq s c).toNat + syms.count c ≤ Config.wmax) :
    ∃ t, execAll (syms.map .incw) s = .next t ∧
      t = { s with freq := t.freq, resp := if syms.isEmpty then s.resp else status s } ∧ Memory.wf t ∧
      ∀ c, (readFreq t c).toNat = (readFreq s c).toNat + syms.count c := by
  induction syms generalizing s with
  | nil => exact ⟨s, rfl, rfl, hm, fun _ => rfl⟩
  | cons c cs ih =>
    have hlt : (readFreq s c).toNat < Config.wmax := by
      have := hb c
      rw [List.count_cons_self] at this
      omega
    have hadd := toNat_readFreq_counted_add_count hlt cs
    obtain ⟨t, ht, hframe, hmt, hcount⟩ :=
      ih (s := counted s c) he hp (Memory.wf_counted hm c) fun d => (hadd d).trans_le (hb d)
    have hresp : (if cs.isEmpty then (counted s c).resp else status (counted s c)) = status s := ite_self _
    refine ⟨t, ?_, ?_, hmt, fun d => (hcount d).trans (hadd d)⟩
    · rw [List.map_cons, execAll, exec_incw_of_lt he hp hlt]
      exact ht
    · rw [hresp] at hframe
      exact hframe

/-- Settles O32: both orders leave the same counts, and equal weights in canonical memory are the same table. -/
theorem symbolOrderDoesNotMatter : Obligations.SymbolOrderDoesNotMatter := by
  intro s syms syms' he hp hm hperm hb
  obtain ⟨t, ht, hframe, hmt, hcount⟩ := execAll_incw he hp hm hb
  obtain ⟨t', ht', hframe', hmt', hcount'⟩ :=
    execAll_incw (syms := syms') he hp hm fun c => by rw [← hperm.count_eq]; exact hb c
  have hfreq : t'.freq = t.freq := freq_ext hmt' hmt fun c =>
    BitVec.eq_of_toNat_eq (by rw [hcount, hcount', hperm.count_eq])
  have heq : t' = t := by
    rw [hfreq, ← hperm.isEmpty_eq] at hframe'
    exact hframe'.trans hframe.symm
  exact ⟨t, ht, heq ▸ ht', hframe ▸ he, hcount⟩

/-! ## A sequence of SETW -/

/-- A sequence of SETW leaves each symbol the value of its last SETW, or its old weight where it has none. -/
theorem execAll_setw {writes : List (Symbol × Weight)} {s : State} (he : s.err = .none) (hp : s.phase = .idle) :
    ∃ t, execAll (writes.map fun p => .setw p.1 p.2) s = .next t ∧ t.err = .none ∧
      ∀ c, readFreq t c = (writes.filter fun p => p.1 = c).getLast?.elim (readFreq s c) Prod.snd := by
  induction writes generalizing s with
  | nil => exact ⟨s, rfl, he, fun _ => rfl⟩
  | cons p ps ih =>
    obtain ⟨t, ht, het, hread⟩ := ih (s := respondStatus (writeFreq s p.1 p.2)) he hp
    refine ⟨t, ?_, het, fun c => ?_⟩
    · rw [List.map_cons, execAll, exec_setw_of_idle he hp]
      exact ht
    · rw [hread c, readFreq_respondStatus, readFreq_writeFreq, List.filter_cons]
      by_cases hc : p.1 = c
      · simp only [hc, decide_true, if_true, List.getLast?_cons]
        cases (ps.filter fun q => q.1 = c).getLast? <;> rfl
      · simp only [hc, decide_false, if_false, Bool.false_eq_true]

/-- Settles O33: `execAll_setw`, read in the two cases of a symbol that is written and one that is not. -/
theorem lastSetwCounts : Obligations.LastSetwCounts := by
  intro s writes he hp _
  obtain ⟨t, ht, het, hread⟩ := execAll_setw (writes := writes) he hp
  refine ⟨t, ht, het, fun c => (hread c).trans ?_⟩
  cases (writes.filter fun p => p.1 = c).getLast? <;> rfl

end Sys2Proof.Machine
end
section
/-! PROOFS. The statements of 41_tree_build: BUILD's checks (R133, R134), the tree it leaves (R130, R131, R135-R138), what that tree depends on (R139), and its codes (R140, R141). -/

namespace Sys2Proof.Safety

open Sys2Proof.Machine

/-! ## The table and its total -/

theorem totalWeight_eq_sum_range (s : State) :
    totalWeight s = ((List.range 256).map fun c => (readFreq s (BitVec.ofNat 8 c)).toNat).sum := by
  rw [totalWeight, allSymbols, List.map_map]
  rfl

theorem tableSymbols_eq_nil_iff {s : State} : tableSymbols s = [] ↔ ∀ c, readFreq s c = 0 := by
  simp [List.eq_nil_iff_forall_not_mem, mem_tableSymbols]

theorem totalWeight_of_empty {s : State} (h : tableSymbols s = []) : totalWeight s = 0 := by
  rw [totalWeight_eq, h]
  rfl

/-! ## The records of a built tree -/

theorem Built.merged {s t : State} (h : Built s t) (hn : 2 ≤ (tableSymbols s).length) :
    ∃ r u, t = respondStatus (rooted r u) ∧ MergeOk s (tableSymbols s).length (totalWeight s) [r] u := by
  rcases h.cases with ⟨c, hc, -⟩ | ⟨-, hm⟩
  · rw [hc] at hn
    exact absurd hn (Nat.not_succ_le_self 1)
  · exact hm

/-- BUILD writes PHASE, ROOT, NCOUNT, NODE and RESP alone (R130). -/
theorem Built.frame {s t : State} (h : Built s t) :
    t = { s with phase := .tree, root := t.root, ncount := t.ncount, node := t.node, resp := t.resp } := by
  rcases h.cases with ⟨c, -, rfl⟩ | ⟨-, r, u, rfl, hm⟩
  · rfl
  · exact congrArg (fun v => { rooted r v with resp := (respondStatus (rooted r u)).resp }) hm.frame

theorem Built.resp {s t : State} (h : Built s t) : t.resp = status t := by
  rcases h.cases with ⟨c, -, rfl⟩ | ⟨-, r, u, rfl, -⟩ <;> rfl

/-- The INTERNAL records are those from index `n` on (R131). -/
theorem Built.internal_iff {s t : State} (h : Built s t) {i : NodeIdx} {r : NodeRec} (hi : nodeAt t i = some r) :
    r.kind = .internal ↔ (tableSymbols s).length ≤ i.toNat := by
  constructor
  · intro hk
    by_contra hlt
    have hleaf := h.nodeAt_leaf (List.getElem?_eq_getElem (not_le.1 hlt))
    rw [BitVec.ofNat_toNat, BitVec.setWidth_eq, hi, Option.some.injEq] at hleaf
    rw [hleaf] at hk
    cases hk
  · exact fun hge => (h.inner (h.inv.tree.nodeAt_iff.1 hi) hge).1

/-- With two symbols or more every INTERNAL record has two children, of smaller indices (R138). -/
theorem Built.two_children {s t : State} (h : Built s t) (hn : 2 ≤ (tableSymbols s).length) {i : NodeIdx} {r : NodeRec}
    (hi : nodeAt t i = some r) (hk : r.kind = .internal) :
    r.c0 ≠ Config.nil ∧ r.c1 ≠ Config.nil ∧ r.c0.toNat < i.toNat ∧ r.c1.toNat < i.toNat := by
  have hmem := h.inv.tree.nodeAt_iff.1 hi
  have hge := (h.internal_iff hi).1 hk
  obtain ⟨root, u, rfl, hm⟩ := h.merged hn
  obtain ⟨-, -, h0, h1, hlt0, hlt1, -⟩ := hm.inner _ hmem hge
  exact ⟨h0, h1, hlt0, hlt1⟩

theorem leafEntries_kind {s : State} {k : Nat} {cs : List Symbol} : ∀ e ∈ leafEntries s k cs, e.2.kind = .leaf := by
  intro e he
  obtain ⟨j, c, -, rfl⟩ := mem_leafEntries.1 he
  rfl

theorem leafEntries_syms (s : State) (k : Nat) (cs : List Symbol) :
    (leafEntries s k cs).map (fun e => e.2.sym) = cs := by
  induction cs generalizing k with
  | nil => rfl
  | cons c cs ih => rw [leafEntries, List.map_cons, ih]; rfl

/-- NODE is the leaves and then the INTERNAL records, one for each merge, or one for a table of one symbol (R131, R138). -/
theorem Built.node_eq {s t : State} (h : Built s t) :
    ∃ inner, t.node = leafEntries s 0 (tableSymbols s) ++ inner ∧
      inner.length = max 1 ((tableSymbols s).length - 1) ∧ ∀ e ∈ inner, e.2.kind = .internal := by
  obtain ⟨inner, hnode⟩ := h.leaves
  have hkeys := h.inv.allocated
  rw [← hnode, List.map_append, leafEntries_keys, h.ncount, List.range_eq_range', ← List.range'_append_1,
    Nat.zero_add] at hkeys
  have hinner := List.append_cancel_left hkeys
  refine ⟨inner, hnode.symm, by simpa using congrArg List.length hinner, fun e he => (h.inner ?_ ?_).1⟩
  · rw [← hnode]
    exact List.mem_append_right _ he
  · have := List.mem_map_of_mem (f := Prod.fst) he
    rw [hinner] at this
    exact (List.mem_range'_1.1 this).1

/-- The LEAF records are the leaves of the table's symbols, each once (R138). -/
theorem Built.filter_leaf {s t : State} (h : Built s t) :
    (t.node.filter fun e => e.2.kind = .leaf) = leafEntries s 0 (tableSymbols s) := by
  obtain ⟨inner, hnode, -, hkind⟩ := h.node_eq
  rw [hnode, List.filter_append, List.filter_eq_self.2 fun e he => decide_eq_true (leafEntries_kind e he),
    List.filter_eq_nil_iff.2 fun e he => by rw [hkind e he]; decide, List.append_nil]

theorem Built.length_filter_internal {s t : State} (h : Built s t) :
    (t.node.filter fun e => e.2.kind = .internal).length = max 1 ((tableSymbols s).length - 1) := by
  obtain ⟨inner, hnode, hlen, hkind⟩ := h.node_eq
  rw [hnode, List.filter_append, List.filter_eq_nil_iff.2 fun e he => by rw [leafEntries_kind e he]; decide,
    List.filter_eq_self.2 fun e he => decide_eq_true (hkind e he), List.nil_append, hlen]

/-- The root's index (R138). -/
theorem Built.root_toNat {s t : State} (h : Built s t) :
    t.root.toNat + 1 = (tableSymbols s).length + max 1 ((tableSymbols s).length - 1) :=
  h.root_is_last.trans h.ncount

/-- Settles O35: the checks pass (`build_succeeds`), and the shape is read off the leaves and the merges (`Built.node_eq`,
`Built.two_children`). -/
theorem buildCompletesTheTree : Obligations.BuildCompletesTheTree := by
  rintro s hinv he hp ⟨c, hc⟩ hw
  rw [← totalWeight_eq_sum_range] at hw
  obtain ⟨t, h⟩ := build_succeeds hinv hp he (List.ne_nil_of_mem (mem_tableSymbols.2 hc)) hw
  have hcount := h.ncount
  have hroot := h.root_toNat
  refine ⟨t, h.builds, h.frame, h.resp, fun h1 => ?_,
    fun hn => ⟨by omega, by omega, ?_, fun i r => h.two_children hn⟩, ?_⟩
  · rw [h1] at hcount hroot
    exact ⟨BitVec.eq_of_toNat_eq hcount, BitVec.eq_of_toNat_eq (Nat.succ_injective hroot)⟩
  · rw [h.length_filter_internal]
    omega
  · rw [h.filter_leaf, leafEntries_syms]

/-! ## The merges -/

/-- Settles O39: what every merge takes is part of the loop's invariant (`MergeOk.greedy`), and ROOT, PHASE and RESP do not
matter to it. -/
theorem eachMergeTakesTheTwoLeast : Obligations.EachMergeTakesTheTwoLeast := by
  intro s t h hn k r hk hkind
  have hmem := h.inv.tree.nodeAt_iff.1 hk
  have hge := (h.internal_iff hk).1 hkind
  obtain ⟨root, u, rfl, hm⟩ := h.merged hn
  exact hm.greedy _ hmem hge

/-! ## What the tree depends on -/

/-- Two sound IDLE states with no error and the same weights differ in RESP, OUT and the host's words alone. -/
theorem Inv.exists_relabelled {s s' : State} (h : Inv s) (h' : Inv s') (hp : s.phase = .idle) (hp' : s'.phase = .idle)
    (he : s.err = .none) (he' : s'.err = .none) (hf : ∀ c, readFreq s' c = readFreq s c) :
    ∃ v o ws, s' = relabelled v o ws s := by
  refine ⟨s'.resp, s'.out, s'.input, ?_⟩
  have hfreq := freq_ext h'.memory h.memory hf
  have hidle := h.phase_ok
  have hidle' := h'.phase_ok
  simp only [PhaseOk, hp] at hidle
  simp only [PhaseOk, hp'] at hidle'
  obtain ⟨hroot, hcount, hwalk, hpos, hlen, hbits⟩ := hidle
  obtain ⟨hroot', hcount', hwalk', hpos', hlen', hbits'⟩ := hidle'
  have hnode := h.tree.node_nil hcount
  have hnode' := h'.tree.node_nil hcount'
  cases s
  cases s'
  simp only [relabelled, State.mk.injEq, and_true, true_and]
  exact ⟨hp'.trans hp.symm, he'.trans he.symm, hroot'.trans hroot.symm, hcount'.trans hcount.symm,
    hwalk'.trans hwalk.symm, hpos'.trans hpos.symm, hlen'.trans hlen.symm, hbits'.trans hbits.symm, hfreq,
    hnode'.trans hnode.symm⟩

/-- Paths and leaves are read from NODE, NCOUNT and ROOT (R27). -/
theorem hasCode_congr {s t : State} (hn : t.node = s.node) (hc : t.ncount = s.ncount) (hr : t.root = s.root)
    {code : List Bool} {c : Symbol} : hasCode t code c ↔ hasCode s code c := by
  simp only [hasCode, isLeafOf, hr, follow_congr hn hc, nodeAt_congr hn hc]

theorem exec_build_of_ok {s u : State} (he : s.err = .none) (hp : s.phase = .idle) (hne : tableSymbols s ≠ [])
    (hw : totalWeight s ≤ Config.wmax) (hu : buildTree s = .ok u) : exec .build s = .next (respondStatus u) := by
  simp only [exec, execBuild, gated_of_noError he]
  rw [if_neg (not_not.2 hp), if_neg hne, if_neg (not_lt.2 hw), hu, Flow.finish_ok]

/-- What BUILD checked and ran where it raised no error (R130). -/
theorem Built.passed {s t : State} (h : Built s t) :
    tableSymbols s ≠ [] ∧ totalWeight s ≤ Config.wmax ∧ ∃ u, buildTree s = .ok u ∧ t = respondStatus u := by
  have hs := h.succeeds
  rcases execBuild_cases h.builds with ⟨he, -⟩ | ⟨-, ⟨hp, -⟩ | ⟨-, -, rfl⟩ | ⟨-, -, -, rfl⟩ | ⟨-, hpassed⟩⟩
  · exact absurd h.no_error he
  · exact absurd h.idle hp
  · simp [h.no_error] at hs
  · simp [h.no_error] at hs
  · exact hpassed

/-- Settles O40: the other state is `s` with another RESP, OUT and input, which BUILD does not read
(`buildTree_relabelled`). -/
theorem theTreeDependsOnFreqAlone : Obligations.TheTreeDependsOnFreqAlone := by
  intro s s' t t' h hinv' hp' he' hf hx
  obtain ⟨v, o, ws, rfl⟩ := h.sound.exists_relabelled hinv' h.idle hp' h.no_error he' hf
  obtain ⟨hne, hw, u, hu, rfl⟩ := h.passed
  rw [exec_build_of_ok he' hp' hne hw (buildTree_relabelled hu), Host.Outcome.next.injEq] at hx
  subst hx
  refine ⟨rfl, rfl, rfl, rfl, rfl, fun _ _ => ?_⟩
  exact hasCode_congr (s := respondStatus u) (t := respondStatus (relabelled v o ws u)) rfl rfl rfl

/-! ## The checks of BUILD -/

theorem exec_build_of_not_idle {s : State} (he : s.err = .none) (hp : s.phase ≠ .idle) :
    exec .build s = .next (failed .sequence s) := by
  simp only [exec, execBuild, gated_of_noError he, if_pos hp]
  rfl

theorem exec_build_of_empty {s : State} (he : s.err = .none) (hp : s.phase = .idle) (h : tableSymbols s = []) :
    exec .build s = .next (failed .emptyAlphabet s) := by
  simp only [exec, execBuild, gated_of_noError he, if_neg (not_not.2 hp), if_pos h]
  rfl

/-- A table whose total is above WMAX is not empty, so this check is reached (R133, R134). -/
theorem exec_build_of_overflow {s : State} (he : s.err = .none) (hp : s.phase = .idle)
    (h : Config.wmax < totalWeight s) : exec .build s = .next (failed .weightOvf s) := by
  have hne : tableSymbols s ≠ [] := fun hnil => absurd h (by simp [totalWeight_of_empty hnil])
  simp only [exec, execBuild, gated_of_noError he, if_neg (not_not.2 hp), if_neg hne, if_pos h]
  rfl

/-- Settles O34, one lemma for each check. -/
theorem buildChecksTheTable : Obligations.BuildChecksTheTable := by
  refine fun s he => ⟨exec_build_of_not_idle he,
    fun hp hzero => exec_build_of_empty he hp (tableSymbols_eq_nil_iff.2 hzero), fun hp hw => ?_⟩
  rw [← totalWeight_eq_sum_range] at hw
  exact exec_build_of_overflow he hp hw

/-! ## The leaves -/

/-- Settles O36, by the order of the table and the records at and after its leaves. -/
theorem leavesStandInSymbolOrder : Obligations.LeavesStandInSymbolOrder :=
  fun s _ h => ⟨tableSymbols_rising s, fun _ => mem_tableSymbols, fun _ _ => h.nodeAt_leaf,
    fun _ _ hi hge => h.inner (h.inv.tree.nodeAt_iff.1 hi) hge⟩

/-! ## The table of one symbol -/

theorem nodeAt_singleTree_root (s : State) (c : Symbol) :
    nodeAt (singleTree s c) (singleTree s c).root = some (internalRec (readFreq s c) 0 Config.nil) := by
  simp [nodeAt, singleTree, storeFind]

theorem Built.eq_single {s t : State} {c : Symbol} (h : Built s t) (hc : tableSymbols s = [c]) :
    t = respondStatus (singleTree s c) := by
  rcases h.cases with ⟨d, hd, ht⟩ | ⟨hn, -⟩
  · rw [hc, List.singleton_inj] at hd
    exact hd ▸ ht
  · rw [hc] at hn
    exact absurd hn (Nat.not_succ_le_self 1)

/-- A code of `c` is a path from ROOT to the index at which the table lists `c` (R27, R131). -/
theorem Built.hasCode_iff {s t : State} (h : Built s t) {code : List Bool} {c : Symbol} :
    hasCode t code c ↔ ∃ i, follow t t.root code = some i ∧ (tableSymbols s)[i.toNat]? = some c := by
  simp only [hasCode, h.isLeafOf_iff]

/-- The only code of a table of one symbol is the bit 0 (R135). -/
theorem Built.hasCode_single_iff {s t : State} {c : Symbol} (h : Built s t) (hc : tableSymbols s = [c])
    {code : List Bool} {d : Symbol} : hasCode t code d ↔ code = [false] ∧ d = c := by
  have hpath : follow t t.root [false] = some 0 := by
    rw [h.eq_single hc]
    exact (follow_cons (nodeAt_singleTree_root s c) false []).trans (if_neg (show (0 : NodeIdx) ≠ Config.nil by decide))
  rw [h.hasCode_iff, hc]
  constructor
  · rintro ⟨i, hi, hd⟩
    obtain ⟨hi0, hd⟩ := List.getElem?_eq_some_iff.1 hd
    have hzero : i = 0 := BitVec.eq_of_toNat_eq (Nat.lt_one_iff.1 hi0)
    subst hzero
    exact ⟨h.inv.tree.path_unique hi hpath, hd.symm⟩
  · rintro ⟨rfl, rfl⟩
    exact ⟨0, hpath, rfl⟩

/-- What DSTART leaves where it raises no error (R170). -/
def decodeStarted (len : BitCount) (s : State) : State :=
  respondStatus { s with bitlen := len, bitcnt := 0, pos := s.root, phase := if len = 0 then .done else .decode }

theorem exec_dstart_of_tree {s : State} (he : s.err = .none) (hp : s.phase = .tree) (len : BitCount) :
    exec (.dstart len) s = .next (decodeStarted len s) := by
  simp [exec, execDstart, gated_of_noError he, hp, decodeStarted]

/-- Where ROOT has no one-child, a decode of the one bit 1 ends with BAD_PATH and emits nothing (R135, R176). -/
theorem execAll_bit_one_badPath {t : State} {r : NodeRec} (he : t.err = .none) (hp : t.phase = .tree)
    (hr : nodeAt t t.root = some r) (hc : r.c1 = Config.nil) :
    execAll [.dstart 1, .dbits 1 1] t = .next (raise .badPath (decodeStarted 1 t)) := by
  have hphase : (decodeStarted 1 t).phase = .decode := rfl
  have hbits : chunkBits 1 1 = [true] := by decide
  have hstep : decodeStep true (decodeStarted 1 t) = .fail .badPath (decodeStarted 1 t) := decodeStep_badPath hr hc
  have hdbits : exec (.dbits 1 1) (decodeStarted 1 t) = .next (raise .badPath (decodeStarted 1 t)) := by
    rw [exec_dbits_decode (s := decodeStarted 1 t) (n := 1) (p := 1) he (.inl hphase) (by decide), hbits,
      decodeBits_cons (hphase.trans_ne (by decide)), hstep, Flow.bind_fail, Flow.finish_fail]
  simp only [execAll, exec_dstart_of_tree he hp, hdbits]

/-- Settles O37: the tree is `singleTree`, its only code the bit 0 (`Built.hasCode_single_iff`), and its root has no
one-child (`execAll_bit_one_badPath`). -/
theorem singletonTableGetsOneBit : Obligations.SingletonTableGetsOneBit := by
  intro s t c h hc
  have hsingle := h.eq_single hc
  refine ⟨by rw [hsingle]; rfl, by rw [hsingle]; rfl, by rw [hsingle]; rfl, fun code d => h.hasCode_single_iff hc, ?_⟩
  have hroot : nodeAt t t.root = some (internalRec (readFreq s c) 0 Config.nil) := by
    rw [hsingle]
    exact nodeAt_singleTree_root s c
  refine ⟨_, execAll_bit_one_badPath h.succeeds h.phase hroot rfl, ?_, by rw [hsingle]; rfl⟩
  show stickyErr t.err .badPath = .badPath
  rw [h.succeeds, stickyErr_none]

/-! ## Weights -/

theorem Built.root_weight {s t : State} (h : Built s t) : weightAt t t.root = totalWeight s := by
  rcases h.cases with ⟨c, hc, rfl⟩ | ⟨-, r, u, rfl, hm⟩
  · rw [totalWeight_eq, hc]
    simp only [List.map_cons, List.map_nil, List.sum_singleton]
    show weightAt (singleTree s c) (singleTree s c).root = _
    rw [weightAt, nodeAt_singleTree_root]
    rfl
  · exact hm.root_weight

/-- Settles O38: the invariant's weight rule, and the total that the merges keep. -/
theorem weightsAddUpToTheRoot : Obligations.WeightsAddUpToTheRoot := fun s _ h =>
  ⟨fun _ _ hi hk => (h.inv.tree.record hi).internal_weight hk, h.root_weight.trans (totalWeight_eq_sum_range s)⟩

/-! ## Codes -/

theorem Built.root_ne_zero {s t : State} (h : Built s t) : t.root ≠ 0 := by
  intro h0
  have hroot := h.root_toNat
  have hne := List.length_pos_iff.2 h.passed.1
  rw [h0] at hroot
  simp only [BitVec.ofNat_eq_ofNat, BitVec.toNat_ofNat] at hroot
  omega

/-- In a built tree each bit of a path leads to a smaller index (R33). -/
theorem Built.follow_add_le {s t : State} (h : Built s t) {i j : NodeIdx} {path : List Bool}
    (hf : follow t i path = some j) : path.length + j.toNat ≤ i.toNat := by
  induction path generalizing i with
  | nil =>
    simp only [follow, Option.some.injEq] at hf
    simp [hf]
  | cons b path ih =>
    cases hi : nodeAt t i with
    | none => simp [follow, hi] at hf
    | some r =>
      rw [follow_cons hi] at hf
      split at hf
      · simp at hf
      · rename_i hc
        have hlt := ((h.inv.tree.record hi).child_order _ (mem_childIndices.2 ⟨b, hc, rfl⟩)).2
        rw [if_neg h.root_ne_zero] at hlt
        have := ih hf
        rw [List.length_cons]
        omega

/-- A code's last bit leaves an INTERNAL record, so all its other bits lie between the root and index `n` (R140). -/
theorem Built.code_length_le {s t : State} (h : Built s t) {code : List Bool} {c : Symbol} (hc : hasCode t code c) :
    code.length ≤ max 1 ((tableSymbols s).length - 1) := by
  obtain ⟨i, hi, -⟩ := hc
  rcases List.eq_nil_or_concat' code with rfl | ⟨path, b, rfl⟩
  · exact Nat.zero_le _
  · obtain ⟨k, r, hk, hr, hchild, -⟩ := follow_snoc.1 hi
    have hkind : r.kind = .internal := kind_ne_leaf.1 fun hleaf => hchild (h.inv.tree.leaf_child hr hleaf b)
    have hge := (h.internal_iff hr).1 hkind
    have hle := h.follow_add_le hk
    have hroot := h.root_toNat
    rw [List.length_append, List.length_singleton]
    omega

theorem Built.one_le_code_length {s t : State} (h : Built s t) {code : List Bool} {c : Symbol} (hc : hasCode t code c) :
    1 ≤ code.length :=
  List.length_pos_iff.2 (hasCode_ne_nil (h.inv.hasTree (by simp [h.phase])) hc)

/-- Settles O41, by the two bounds above and `n ≤ 256`. -/
theorem codesAreNoLongerThanTheAlphabet : Obligations.CodesAreNoLongerThanTheAlphabet := by
  intro s t code c h hc
  have hpos := h.one_le_code_length hc
  have hle := h.code_length_le hc
  have hn := tableSymbols_length_le s
  refine ⟨hpos, fun h2 => ?_, fun h1 => ?_, ?_⟩ <;> omega

/-- With two symbols or more, bits that are enough to come down from `i` to a leaf do: some first part of them is a path to
one. -/
theorem Built.exists_prefix_to_leaf {s t : State} (h : Built s t) (hn : 2 ≤ (tableSymbols s).length) {i : NodeIdx}
    {bits : List Bool} (hi : i.toNat < t.ncount.toNat) (hb : i.toNat < (tableSymbols s).length + bits.length) :
    ∃ path j, path <+: bits ∧ follow t i path = some j ∧ j.toNat < (tableSymbols s).length := by
  induction bits generalizing i with
  | nil => exact ⟨[], i, List.prefix_rfl, rfl, hb⟩
  | cons b bits ih =>
    rcases Nat.lt_or_ge i.toNat (tableSymbols s).length with hlt | hge
    · exact ⟨[], i, List.nil_prefix, rfl, hlt⟩
    · obtain ⟨r, hr⟩ := h.inv.tree.exists_nodeAt hi
      obtain ⟨h0, h1, hlt0, hlt1⟩ := h.two_children hn hr ((h.internal_iff hr).2 hge)
      have hc : childOf r b ≠ Config.nil ∧ (childOf r b).toNat < i.toNat := by
        cases b
        · exact ⟨h0, hlt0⟩
        · exact ⟨h1, hlt1⟩
      rw [List.length_cons] at hb
      obtain ⟨path, j, hpre, hf, hj⟩ := ih (i := childOf r b) (hc.2.trans hi) (by omega)
      exact ⟨b :: path, j, List.cons_prefix_cons.2 ⟨rfl, hpre⟩, by rw [follow_cons hr, if_neg hc.1, hf], hj⟩

/-- Settles O42: no path leads out of a leaf (`TreeOk.code_prefix`), and every long enough bit string comes down to a leaf;
of two codes that begin it one is a prefix of the other. -/
theorem codesArePrefixFreeAndComplete : Obligations.CodesArePrefixFreeAndComplete := by
  intro s t h
  have hfree {p q : List Bool} {c d : Symbol} (hp : hasCode t p c) (hq : hasCode t q d) (hpq : p <+: q) :
      p = q ∧ c = d := h.inv.tree.code_prefix hp hq hpq
  refine ⟨fun _ _ _ _ => hfree, fun hn bits hbits => ?_⟩
  have hroot := h.root_toNat
  obtain ⟨code, j, hpre, hf, hj⟩ := h.exists_prefix_to_leaf hn (i := t.root) (bits := bits)
    (by have := h.root_is_last; omega) (by omega)
  have hcode : hasCode t code (tableSymbols s)[j.toNat] := h.hasCode_iff.2 ⟨j, hf, List.getElem?_eq_getElem hj⟩
  refine ⟨code, _, hpre, hcode, fun code' c' hpre' hcode' => ?_⟩
  rcases List.prefix_or_prefix_of_prefix hpre' hpre with hp | hp
  · exact hfree hcode' hcode hp
  · obtain ⟨hx, hy⟩ := hfree hcode hcode' hp
    exact ⟨hx.symm, hy.symm⟩

end Sys2Proof.Safety
end

section
/-! PROOFS. The statements of 42_tree_reconstruct: the first entry command (R149), one code bit (R151), IBITS (R150, R155), ILEAF (R152), one header entry (R157), and the header isomorphism (R158). -/

namespace Sys2Proof.Machine

open Sys2Proof.Safety

/-! ## IBITS and ILEAF by phase -/

theorem exec_ibits_of_closed {s : State} {n : Nat} {p : Payload} (he : s.err = .none) (hv : chunkValid n p = true)
    (hi : s.phase ≠ .idle) (hr : s.phase ≠ .recon) : exec (.ibits n p) s = .next (failed .sequence s) := by
  simp only [exec, execIbits, gated_of_noError he, hv, Bool.true_eq_false, if_false]
  exact if_pos ⟨hi, hr⟩

theorem exec_ileaf_of_closed {s : State} (he : s.err = .none) (hi : s.phase ≠ .idle) (hr : s.phase ≠ .recon)
    (c : Symbol) : exec (.ileaf c) s = .next (failed .sequence s) := by
  simp only [exec, execIleaf, gated_of_noError he]
  exact if_pos ⟨hi, hr⟩

theorem exec_ileaf_recon {s : State} (he : s.err = .none) (hp : s.phase = .recon) (c : Symbol) :
    exec (.ileaf c) s = (markLeaf c s).finish := by
  simp [exec, execIleaf, gated_of_noError he, hp, enterRecon_of_recon hp]

/-- From a sound IDLE state StartRecon does not fail: no record is allocated (R149). -/
theorem enterRecon_eq_started {s : State} (h : Inv s) (hp : s.phase = .idle) : enterRecon s = .ok (started s) := by
  have hph := h.phase_ok
  simp only [PhaseOk, hp] at hph
  obtain ⟨-, hcount, -⟩ := hph
  rw [enterRecon_of_idle hp, startRecon_of_lt (by simp [hcount])]

theorem exec_ibits_idle {s : State} {n : Nat} {p : Payload} (h : Inv s) (he : s.err = .none) (hp : s.phase = .idle)
    (hv : chunkValid n p = true) : exec (.ibits n p) s = (walkBits (chunkBits n p) (started s)).finish := by
  simp [exec, execIbits, gated_of_noError he, hp, hv, enterRecon_eq_started h hp]

theorem exec_ileaf_idle {s : State} (h : Inv s) (he : s.err = .none) (hp : s.phase = .idle) (c : Symbol) :
    exec (.ileaf c) s = (markLeaf c (started s)).finish := by
  simp [exec, execIleaf, gated_of_noError he, hp, enterRecon_eq_started h hp]

/-- IBITS of one bit is one WalkStep (R151). -/
theorem exec_ibits_oneBit {s : State} (he : s.err = .none) (hp : s.phase = .recon) (b : Bool) :
    exec (.ibits 1 (oneBit b)) s = (walkStep b s).finish := by
  have hv : chunkValid 1 (oneBit b) = true := by cases b <;> decide
  have hb : chunkBits 1 (oneBit b) = [b] := by cases b <;> decide
  rw [exec_ibits_recon he hp hv, hb, walkBits]
  cases walkStep b s <;> rfl

/-! ## The marking of a leaf, by the record at WALK (R152) -/

theorem markLeaf_at_root {s : State} (h : s.walk = s.root) (c : Symbol) : markLeaf c s = .fail .malformedHeader s :=
  if_pos h

/-- An empty code, the code of an earlier entry and the first part of one are malformed. -/
theorem markLeaf_malformed {s : State} {r : NodeRec} (hr : nodeAt s s.walk = some r)
    (h : s.walk = s.root ∨ r.kind = .leaf ∨ r.c0 ≠ Config.nil ∨ r.c1 ≠ Config.nil) (c : Symbol) :
    markLeaf c s = .fail .malformedHeader s := by
  by_cases hw : s.walk = s.root
  · exact markLeaf_at_root hw c
  · unfold markLeaf
    rw [if_neg hw, readNode_of_some hr, Flow.bind_ok]
    by_cases hk : r.kind = .leaf
    · exact if_pos hk
    · rw [if_neg hk, if_pos ((h.resolve_left hw).resolve_left hk)]

theorem markLeaf_new {s : State} {r : NodeRec} (hr : nodeAt s s.walk = some r) (hw : s.walk ≠ s.root)
    (hk : r.kind = .internal) (h0 : r.c0 = Config.nil) (h1 : r.c1 = Config.nil) (c : Symbol) :
    markLeaf c s = .ok (marked c s) := by
  unfold markLeaf
  rw [if_neg hw, readNode_of_some hr, Flow.bind_ok, if_neg (kind_ne_leaf.2 hk), if_neg (by simp [h0, h1])]
  rfl

end Sys2Proof.Machine

namespace Sys2Proof.Safety

open Sys2Proof.Machine

/-- In an open reconstruction WALK names a record (R36). -/
theorem Inv.exists_walk_record {s : State} (h : Inv s) (hp : s.phase = .recon) : ∃ r, nodeAt s s.walk = some r := by
  have hph := h.phase_ok
  simp only [PhaseOk, hp] at hph
  obtain ⟨-, -, hwalk, -⟩ := hph
  exact h.tree.exists_nodeAt hwalk

/-! ## The first entry command -/

/-- What the first IBITS walks: a chain of new records from the new root (R149, R150). -/
theorem walkBits_started {s : State} (h : Inv s) (hp : s.phase = .idle) {bs : List Bool} (hb : bs.length < 511) :
    ∃ t, walkBits bs (started s) = .ok t ∧
      t = { s with phase := .recon, root := 0, walk := t.walk, ncount := t.ncount, node := t.node } ∧
      isInternal t 0 ∧ t.walk.toNat = bs.length ∧ t.ncount.toNat = bs.length + 1 ∧ follow t 0 bs = some t.walk := by
  obtain ⟨hi, hrecon⟩ := started_inv h hp
  have heq := started_eq h hp
  have hroot := hi.root_of_recon hrecon
  have hcount : (started s).ncount.toNat = 1 := by rw [heq]; rfl
  have hwalk : (started s).walk.toNat = 0 := by rw [heq]; rfl
  have hfresh : nodeAt (started s) (started s).walk = some freshRec := by rw [heq]; rfl
  obtain ⟨t, ht, hwt, hct⟩ := walkBits_fresh bs hfresh (by omega) (by simp only [Config.nodeCap]; omega)
  have hd := walkBits_walked (w := []) hi hrecon rfl ht
  have hframe := walkBits_frame ht
  have htroot := hd.sound.root_of_recon hd.open_recon
  have hend := hd.at_end
  have hint := hd.sound.hasTree (by simp [hd.open_recon])
  rw [htroot] at hend hint
  rw [heq] at hframe
  exact ⟨t, ht, hframe, hint, by omega, by omega, hend⟩

/-- Settles O44: StartRecon leaves one record, at which ILEAF finds the empty code and IBITS begins a chain. -/
theorem firstEntryCommandCreatesTheRoot : Obligations.FirstEntryCommandCreatesTheRoot := by
  refine fun s h he hp => ⟨fun sym => ?_, fun n payload hv => ?_⟩
  · rw [exec_ileaf_idle h he hp, markLeaf_at_root rfl, started_eq h hp]
    rfl
  · obtain ⟨-, hn, -⟩ := chunkValid_iff.1 hv
    obtain ⟨t, ht, hframe, hint, hwalk, hcount, hend⟩ :=
      walkBits_started h hp (bs := chunkBits n payload) (by rw [chunkBits_length]; omega)
    rw [chunkBits_length] at hwalk hcount
    refine ⟨respondStatus t, ?_, ?_, rfl, hint, hwalk, hcount, ?_⟩
    · rw [exec_ibits_idle h he hp hv, ht, Flow.finish_ok]
    · exact congrArg (fun u => { u with resp := status t }) hframe
    · exact (follow_congr (s := t) (t := respondStatus t) rfl rfl _ _).trans hend

/-! ## One code bit -/

/-- Settles O45, by WalkStep's cases (R151). -/
theorem oneCodeBitWalksOrGrows : Obligations.OneCodeBitWalksOrGrows := by
  intro s b h he hp
  obtain ⟨r, hr⟩ := h.exists_walk_record hp
  rw [exec_ibits_oneBit he hp]
  refine ⟨r, hr, fun hk => ?_, fun hk hc => ?_, fun hk hc hn => ?_, fun hk hc hn => ?_⟩
  · rw [walkStep_leaf hr hk]
    rfl
  · rw [walkStep_child hr hk hc]
    rfl
  · rw [walkStep_full hr hk hc (by rw [hn]; rfl)]
    rfl
  · have hcap : s.ncount.toNat < Config.nodeCap := by
      simp only [Config.nodeCap]
      bv_omega
    have hat := nodeAt_grown hr b hcap
    have hne : s.ncount ≠ s.walk := fun hx => absurd (nodeAt_lt hr) (by rw [hx]; exact lt_irrefl _)
    refine ⟨respondStatus (grown b r s), by rw [walkStep_grow hr hk hc hcap]; rfl, rfl, rfl, ncount_succ hcap,
      ?_, ?_, fun j hj hj' => ?_⟩
    · exact (hat _).trans ((if_neg hne).trans (if_pos rfl))
    · exact (hat _).trans (if_pos rfl)
    · exact (hat _).trans (by rw [if_neg hj, if_neg hj'])

/-! ## IBITS -/

/-- How IBITS ends in an open reconstruction: it walks its bits, or grows the tree by those before the failing one (R150,
R226). -/
structure IbitsOutcome (bs : List Bool) (s v : State) (e : Err) : Prop where
  frame : v = { s with ncount := v.ncount, walk := v.walk, node := v.node }
  grew : Grew s v
  walked : (e = .none ∧ walkBits bs s = .ok v) ∨ ((e = .malformedHeader ∨ e = .nodeOvf) ∧ walkBits bs s = .fail e v)

theorem IbitsOutcome.err_cases {bs : List Bool} {s v : State} {e : Err} (h : IbitsOutcome bs s v e) :
    e = .none ∨ e = .malformedHeader ∨ e = .nodeOvf := h.walked.imp And.left And.left

theorem IbitsOutcome.walkBits_eq {bs : List Bool} {s v : State} {e : Err} (h : IbitsOutcome bs s v e) (he : e = .none) :
    walkBits bs s = .ok v := by
  rcases h.walked with ⟨-, hw⟩ | ⟨rfl | rfl, -⟩
  · exact hw
  · cases he
  · cases he

theorem IbitsOutcome.of_walkBits {bs : List Bool} {s v u : State} {e : Err} (h : IbitsOutcome bs s v e)
    (hw : walkBits bs s = .ok u) : e = .none ∧ v = u := by
  rcases h.walked with ⟨he, hv⟩ | ⟨-, hv⟩ <;> rw [hw] at hv <;> cases hv
  exact ⟨he, rfl⟩

theorem exec_ibits_outcome {s : State} {n : Nat} {p : Payload} (h : Inv s) (he : s.err = .none) (hp : s.phase = .recon)
    (hv : chunkValid n p = true) :
    ∃ v e, exec (.ibits n p) s = .next (responded { v with err := e }) ∧ IbitsOutcome (chunkBits n p) s v e := by
  rw [exec_ibits_recon he hp hv]
  cases hw : walkBits (chunkBits n p) s with
  | ok v =>
    have hframe := walkBits_frame hw
    have hverr : v.err = .none := by rw [hframe]; exact he
    exact ⟨v, v.err, rfl, hframe, walkBits_grew (.inl hw), .inl ⟨hverr, hw⟩⟩
  | fail e v =>
    obtain ⟨hframe, hcode⟩ := walkBits_fail_frame hw
    have hverr : v.err = .none := by rw [hframe]; exact he
    refine ⟨v, e, ?_, hframe, walkBits_grew (.inr ⟨e, hw⟩), .inr ⟨hcode, hw⟩⟩
    rw [Flow.finish_fail, raise, hverr]
    rfl
  | stop f => exact absurd hw (walkBits_ne_stop ⟨h, hp⟩)

/-- A walk that succeeds ends where its bits lead from where it began. -/
theorem walkBits_follow {bs : List Bool} {s t : State} (h : Inv s) (hp : s.phase = .recon) (hw : walkBits bs s = .ok t) :
    follow t s.walk bs = some t.walk := by
  obtain ⟨r, hr⟩ := h.exists_walk_record hp
  obtain ⟨w, hpath⟩ := h.tree.path_exists (nodeAt_lt hr)
  have hd := walkBits_walked h hp hpath hw
  have hend := hd.at_end
  rw [follow_append, hd.keeps _ _ hpath] at hend
  exact hend

/-- With no LEAF on the way and room for a record for every bit, a walk succeeds (R151). -/
theorem walkBits_ok_of_room {bs : List Bool} {s : State} (h : Inv s) (hp : s.phase = .recon)
    (hcap : s.ncount.toNat + bs.length ≤ 511)
    (hway : ∀ pre b post, bs = pre ++ b :: post → ∀ i, follow s s.walk pre = some i → isInternal s i) :
    ∃ t, walkBits bs s = .ok t := by
  obtain ⟨r, hr⟩ := h.exists_walk_record hp
  obtain ⟨w, hpath⟩ := h.tree.path_exists (nodeAt_lt hr)
  have hleaf : ∀ pre b post, bs = pre ++ b :: post → ∀ c, ¬ hasCode s (w ++ pre) c := by
    rintro pre b post hx c ⟨i, hi, hl⟩
    rw [follow_append, hpath] at hi
    obtain ⟨q, hq, hkind⟩ := isInternal_iff.1 (hway pre b post hx i hi)
    obtain ⟨q', hq', hkind', -⟩ := isLeafOf_iff.1 hl
    rw [hq, Option.some.injEq] at hq'
    subst hq'
    rw [hkind] at hkind'
    cases hkind'
  obtain ⟨t, ht, -⟩ := walkBits_succeeds h hp hpath hleaf (by
    intro pre b post u hx hd hfull
    have hcount := hd.count
    rw [hx, List.length_append, List.length_cons] at hcap
    simp only [Config.nodeCap] at hfull
    omega)
  exact ⟨t, ht⟩

/-- Settles O46, by how IBITS ends (`IbitsOutcome`) and when a walk succeeds (`walkBits_existing`, `walkBits_ok_of_room`). -/
theorem ibitsWalksTheCode : Obligations.IbitsWalksTheCode := by
  refine fun s n payload he hv => ⟨exec_ibits_of_closed he hv, fun h hp => ?_⟩
  obtain ⟨v, e, hx, ho⟩ := exec_ibits_outcome h he hp hv
  refine ⟨_, hx, ?_, rfl, ho.err_cases, fun hnone => ?_, fun j hj => ?_, ho.grew.old, ho.grew.new,
    fun hcap hway => ?_⟩
  · rw [ho.frame]
  · have hend := walkBits_follow h hp (ho.walkBits_eq hnone)
    exact (follow_congr (s := v) (t := responded { v with err := e }) rfl rfl _ _).trans hend
  · obtain ⟨rfl, rfl⟩ := ho.of_walkBits (walkBits_existing h.tree hj)
    rw [← he]
  · obtain ⟨t, ht⟩ := walkBits_ok_of_room h hp (by rwa [chunkBits_length]) hway
    exact (ho.of_walkBits ht).1

/-- Settles O47: a run of chunks is all its bits at once (`execAll_ibits`). -/
theorem codeChunkingDoesNotMatter : Obligations.CodeChunkingDoesNotMatter := by
  intro s cs ds hcs hds heq
  have hnil : cs = [] ↔ ds = [] := by rw [← streamBits_eq_nil hcs, heq, streamBits_eq_nil hds]
  by_cases hc : cs = []
  · rw [hc, hnil.1 hc]
  · rw [execAll_ibits hcs hc, execAll_ibits hds (mt hnil.2 hc), heq]

/-! ## ILEAF -/

/-- Settles O48, by the record at WALK. -/
theorem ileafMarksTheWalkPosition : Obligations.IleafMarksTheWalkPosition := by
  refine fun s sym he => ⟨fun hi hr => exec_ileaf_of_closed he hi hr sym, fun h hp => ?_⟩
  obtain ⟨r, hr⟩ := h.exists_walk_record hp
  rw [exec_ileaf_recon he hp]
  refine ⟨r, hr, fun hbad => ?_, fun hw hk h0 h1 => ?_⟩
  · rw [markLeaf_malformed hr hbad]
    rfl
  · refine ⟨respondStatus (marked sym s), by rw [markLeaf_new hr hw hk h0 h1, Flow.finish_ok], rfl, rfl, fun j => ?_⟩
    simp only [eq_comm (a := j)]
    exact nodeAt_marked hr sym j

/-! ## One header entry -/

/-- Settles O49: `execAll_ientry`, where the records of the whole code find room. -/
theorem oneEntryAddsExactlyItsLeaf : Obligations.OneEntryAddsExactlyItsLeaf := by
  intro s sym cs h he hp hv hne hnew hpre hcap
  obtain ⟨t, ht, hti, hte, htp, hw, -, hcodes⟩ := execAll_ientry h he hp hv hne hnew hpre (by
    intro pre b post v hx _ _ _ hcount hfull
    rw [hx, List.length_append, List.length_cons] at hcap
    simp only [Config.nodeCap] at hfull
    omega)
  have hroot := hti.root_of_recon htp
  exact ⟨t, ht, hte, htp, hroot, hw.trans hroot, hcodes⟩

/-! ## A header of codes of a tree -/

/-- A header entry: a symbol and its code, cut into chunks. -/
abbrev Entry := Symbol × List Chunk

/-- The entries name distinct symbols, each with a code of it in `t`. -/
structure HeaderOf (t : State) (entries : List Entry) : Prop where
  valid : ∀ e ∈ entries, chunksValid e.2
  distinct : (entries.map Prod.fst).Nodup
  codes : ∀ e ∈ entries, hasCode t (streamBits e.2) e.1

/-- What the entries `done` of a header have made of the state after CLR: their codes, and no path but along them. -/
structure Rebuilt (done : List Entry) (u : State) : Prop where
  sound : Inv u
  no_error : u.err = .none
  ready : (done = [] ∧ u.phase = .idle) ∨ (u.phase = .recon ∧ u.walk = u.root)
  paths : ∀ p i, follow u u.root p = some i → p = [] ∨ ∃ e ∈ done, p <+: streamBits e.2
  codes : ∀ code c, hasCode u code c ↔ ∃ e ∈ done, e.1 = c ∧ streamBits e.2 = code

theorem Rebuilt.accepts_entry {done : List Entry} {u : State} (h : Rebuilt done u) :
    u.phase = .idle ∨ (u.phase = .recon ∧ u.walk = u.root) := h.ready.imp_left And.right

theorem follow_nil_cons (u : State) (b : Bool) (p : List Bool) : follow u Config.nil (b :: p) = none := by
  simp [follow, nodeAt_nil]

/-- In IDLE there is no path but the empty one, to no record. -/
theorem follow_idle {u : State} (h : Inv u) (hp : u.phase = .idle) {p : List Bool} {i : NodeIdx}
    (hf : follow u u.root p = some i) : p = [] ∧ i = Config.nil := by
  rw [h.idle_iff_root_nil.1 hp] at hf
  cases p with
  | nil => exact ⟨rfl, by simpa [follow] using hf.symm⟩
  | cons b p => simp [follow_nil_cons] at hf

theorem not_hasCode_idle {u : State} (h : Inv u) (hp : u.phase = .idle) (code : List Bool) (c : Symbol) :
    ¬ hasCode u code c := by
  rintro ⟨i, hf, hl⟩
  obtain ⟨r, hr, -⟩ := isLeafOf_iff.1 hl
  exact nodeAt_ne_nil hr (follow_idle h hp hf).2

/-- A sound IDLE state with no error is a header's start. -/
theorem Rebuilt.start {u : State} (h : Inv u) (he : u.err = .none) (hp : u.phase = .idle) : Rebuilt [] u where
  sound := h
  no_error := he
  ready := .inl ⟨rfl, hp⟩
  paths := fun _ _ hf => .inl (follow_idle h hp hf).1
  codes := fun code c => by simp [not_hasCode_idle h hp code c]

/-- A first part of a path is a path. -/
theorem exists_follow_of_prefix {s : State} {i j : NodeIdx} {p q : List Bool} (hpq : p <+: q)
    (hf : follow s i q = some j) : ∃ k, follow s i p = some k := by
  obtain ⟨rest, rfl⟩ := hpq
  rw [follow_append] at hf
  obtain ⟨k, hk, -⟩ := Option.bind_eq_some_iff.1 hf
  exact ⟨k, hk⟩

theorem HeaderOf.exists_path {t : State} {entries : List Entry} (h : HeaderOf t entries) {e : Entry}
    (he : e ∈ entries) {p : List Bool} (hp : p <+: streamBits e.2) : ∃ j, follow t t.root p = some j := by
  obtain ⟨i, hi, -⟩ := h.codes e he
  exact exists_follow_of_prefix hp hi

/-- The entries `done` build no path that the tree does not have. -/
theorem Rebuilt.exists_path {t u : State} {done rest : List Entry} (hh : HeaderOf t (done ++ rest)) (h : Rebuilt done u)
    {p : List Bool} {i : NodeIdx} (hf : follow u u.root p = some i) : ∃ j, follow t t.root p = some j := by
  rcases h.paths p i hf with rfl | ⟨e, he, hp⟩
  · exact ⟨_, rfl⟩
  · exact hh.exists_path (List.mem_append_left _ he) hp

/-- Of two entries of a header neither code begins the other, since in no tree a leaf lies on another's path (R141). -/
theorem HeaderOf.not_prefix {t : State} (ht : TreeOk t) {done rest : List Entry} {e d : Entry}
    (hh : HeaderOf t (done ++ e :: rest)) (hd : d ∈ done) :
    ¬ streamBits d.2 <+: streamBits e.2 ∧ ¬ streamBits e.2 <+: streamBits d.2 := by
  have hcd := hh.codes d (List.mem_append_left _ hd)
  have hce := hh.codes e (List.mem_append_right _ List.mem_cons_self)
  have hne : d.1 ≠ e.1 := by
    have hdis := hh.distinct
    rw [List.map_append, List.nodup_append] at hdis
    exact hdis.2.2 _ (List.mem_map_of_mem hd) _ (List.mem_map_of_mem List.mem_cons_self)
  exact ⟨fun hp => hne (ht.code_prefix hcd hce hp).2, fun hp => hne (ht.code_prefix hce hcd hp).2.symm⟩

section NextEntry

variable {t u : State} {done rest : List Entry} {e : Entry}

theorem HeaderOf.next_code (hh : HeaderOf t (done ++ e :: rest)) : hasCode t (streamBits e.2) e.1 :=
  hh.codes e (List.mem_append_right _ List.mem_cons_self)

theorem HeaderOf.next_path (hh : HeaderOf t (done ++ e :: rest)) {p : List Bool} (hp : p <+: streamBits e.2) :
    ∃ j, follow t t.root p = some j :=
  hh.exists_path (List.mem_append_right _ List.mem_cons_self) hp

theorem Rebuilt.next_code_is_new (ht : Inv t) (htp : t.phase ≠ .idle) (hh : HeaderOf t (done ++ e :: rest))
    (h : Rebuilt done u) : follow u u.root (streamBits e.2) = none := by
  rw [Option.eq_none_iff_forall_ne_some]
  intro i hf
  rcases h.paths _ i hf with hnil | ⟨d, hd, hp⟩
  · exact hasCode_ne_nil (ht.hasTree htp) hh.next_code hnil
  · exact (hh.not_prefix ht.tree hd).2 hp

theorem Rebuilt.no_code_begins_next (ht : Inv t) (hh : HeaderOf t (done ++ e :: rest)) (h : Rebuilt done u)
    {code : List Bool} {c : Symbol} (hc : hasCode u code c) : ¬ code <+: streamBits e.2 := by
  obtain ⟨d, hd, -, rfl⟩ := (h.codes code c).1 hc
  exact (hh.not_prefix ht.tree hd).1

/-- Where the node memory is full part-way through the next code, no bit of it needs a record: the paths so far are paths of
the tree, whose records are no more than the memory's, so all its paths are there. -/
theorem Rebuilt.next_finds_room (ht : Inv t) (htp : t.phase ≠ .idle) (hh : HeaderOf t (done ++ e :: rest))
    (h : Rebuilt done u) {pre post : List Bool} {b : Bool} {v : State} (hx : streamBits e.2 = pre ++ b :: post)
    (hv : Inv v) (hpaths : ∀ p i, follow v v.root p = some i → p <+: pre ∨ ∃ j, follow u u.root p = some j)
    (hfull : v.ncount.toNat = Config.nodeCap) : ∃ i, follow v v.root (pre ++ [b]) = some i := by
  have hsub : ∀ p i, follow v v.root p = some i → ∃ j, follow t t.root p = some j := by
    intro p i hf
    rcases hpaths p i hf with hp | ⟨j, hj⟩
    · exact hh.next_path (hp.trans (hx ▸ List.prefix_append _ _))
    · exact h.exists_path hh hj
  have hcap : t.ncount.toNat ≤ v.ncount.toNat := hfull ▸ Nat.le_of_lt_succ t.ncount.isLt
  obtain ⟨j, hj⟩ := hh.next_path (p := pre ++ [b]) ⟨post, by simp [hx]⟩
  exact paths_of_ncount_le hv.tree ht.tree (ht.root_allocated htp) hsub hcap hj

/-- The next entry of a header adds its code (R157). -/
theorem Rebuilt.entry (ht : Inv t) (htp : t.phase ≠ .idle) (hh : HeaderOf t (done ++ e :: rest)) (h : Rebuilt done u) :
    ∃ w, execAll (ientry e.1 e.2) u = .next w ∧ Rebuilt (done ++ [e]) w := by
  have hvalid := hh.valid e (List.mem_append_right _ List.mem_cons_self)
  have hne : e.2 ≠ [] := fun hx =>
    hasCode_ne_nil (ht.hasTree htp) hh.next_code ((streamBits_eq_nil hvalid).2 hx)
  obtain ⟨w, hw, hwi, hwe, hwp, hww, hwpaths, hwcodes⟩ :=
    execAll_ientry h.sound h.no_error h.accepts_entry hvalid hne (h.next_code_is_new ht htp hh)
      (fun _ _ => h.no_code_begins_next ht hh)
      fun _ _ _ _ hx hv _ hpaths _ hfull => h.next_finds_room ht htp hh hx hv hpaths hfull
  refine ⟨w, hw, hwi, hwe, .inr ⟨hwp, hww⟩, fun p i hf => ?_, fun code c => ?_⟩
  · rcases hwpaths p i hf with hp | ⟨j, hj⟩
    · exact .inr ⟨e, List.mem_append_right _ List.mem_cons_self, hp⟩
    · exact (h.paths p j hj).imp_right fun ⟨d, hd, hp⟩ => ⟨d, List.mem_append_left _ hd, hp⟩
  · rw [hwcodes, h.codes, eq_comm (a := code), eq_comm (a := c), and_comm (a := streamBits e.2 = code)]
    simp only [List.mem_append, List.mem_singleton, or_and_right, exists_or, exists_eq_left]

end NextEntry

/-- A header from its entries `rest` on. -/
theorem Rebuilt.entries {t u : State} {done rest : List Entry} (ht : Inv t) (htp : t.phase ≠ .idle)
    (hh : HeaderOf t (done ++ rest)) (h : Rebuilt done u) :
    ∃ w, execAll (rest.flatMap fun e => ientry e.1 e.2) u = .next w ∧ Rebuilt (done ++ rest) w := by
  induction rest generalizing done u with
  | nil => exact ⟨u, rfl, by simpa using h⟩
  | cons e rest ih =>
    obtain ⟨v, hv, hd⟩ := h.entry ht htp hh
    obtain ⟨w, hw, hr⟩ := ih (done := done ++ [e]) (by simpa using hh) hd
    refine ⟨w, ?_, by simpa using hr⟩
    rw [List.flatMap_cons, execAll_append_of_next hv, hw]

/-! ## The header isomorphism -/

/-- An INTERNAL record of a built tree has a zero-child (R135, R138). -/
theorem Built.zero_child {s t : State} (h : Built s t) {i : NodeIdx} {r : NodeRec} (hi : nodeAt t i = some r)
    (hk : r.kind = .internal) : r.c0 ≠ Config.nil := by
  rcases h.cases with ⟨c, hc, ht⟩ | ⟨hn, -⟩
  · have hge := (h.internal_iff hi).1 hk
    have hlt := nodeAt_lt hi
    have hroot := h.root_toNat
    have hcount := h.ncount
    rw [hc, List.length_singleton] at hge hroot hcount
    have hir : i = t.root := BitVec.eq_of_toNat_eq (by omega)
    rw [hir, ht] at hi
    have hr := hi.symm.trans (nodeAt_singleTree_root s c)
    cases hr
    exact show (0 : NodeIdx) ≠ Config.nil by decide
  · exact (h.two_children hn hi hk).1

/-- From every record of a built tree some path leads on to a leaf: the zero-children's indices fall. -/
theorem Built.exists_path_to_leaf {s t : State} (h : Built s t) {i : NodeIdx} (hi : i.toNat < t.ncount.toNat) :
    ∃ p j c, follow t i p = some j ∧ isLeafOf t j c := by
  induction hn : i.toNat using Nat.strong_induction_on generalizing i with
  | _ n ih =>
    obtain ⟨r, hr⟩ := h.inv.tree.exists_nodeAt hi
    by_cases hk : r.kind = .leaf
    · exact ⟨[], i, r.sym, rfl, Safety.isLeafOf_iff.2 ⟨r, hr, hk, rfl⟩⟩
    · have hc : childOf r false ≠ Config.nil := h.zero_child hr (kind_ne_leaf.1 hk)
      obtain ⟨hlt, horder⟩ := (h.inv.tree.record hr).child_order _ (mem_childIndices.2 ⟨false, hc, rfl⟩)
      rw [if_neg h.root_ne_zero] at horder
      obtain ⟨p, j, c, hf, hl⟩ := ih _ (hn ▸ horder) hlt rfl
      exact ⟨false :: p, j, c, by rw [follow_cons hr, if_neg hc, hf], hl⟩

/-- Every path of a built tree begins a code. -/
theorem Built.exists_code_of_path {s t : State} (h : Built s t) {p : List Bool} {i : NodeIdx}
    (hf : follow t t.root p = some i) : ∃ code c, p <+: code ∧ hasCode t code c := by
  have hroot := h.inv.root_allocated (by simp [h.phase])
  obtain ⟨q, j, c, hq, hl⟩ := h.exists_path_to_leaf (h.inv.tree.follow_allocated hroot hf)
  exact ⟨p ++ q, c, List.prefix_append _ _, j, by rw [follow_append, hf]; exact hq, hl⟩

theorem rebuilt_clr (t : State) : Rebuilt [] (respondStatus (resetState t)) :=
  .start (inv_resetState t).respondStatus rfl rfl

/-- Settles O50: the header's entries leave its codes (`Rebuilt.entries`), and the two trees have the same paths, so as many
records. -/
theorem headerIsomorphism : Obligations.HeaderIsomorphism := by
  intro s t entries h hv hdis hcodes
  have htp : t.phase ≠ .idle := by simp [h.phase]
  have hh : HeaderOf t entries := ⟨hv, hdis, fun e he => (hcodes _ _).2 ⟨e, he, rfl, rfl⟩⟩
  obtain ⟨u, hu, hr⟩ := (rebuilt_clr t).entries (done := []) (rest := entries) h.inv htp hh
  rw [List.nil_append] at hr
  have hucodes : ∀ code c, hasCode u code c ↔ hasCode t code c := fun code c => by rw [hr.codes, hcodes]
  have hne : entries ≠ [] := by
    rintro rfl
    obtain ⟨code, c, -, hc⟩ := h.exists_code_of_path (p := []) rfl
    simpa using (hcodes code c).1 hc
  obtain ⟨hup, huw⟩ := hr.ready.resolve_left fun hx => hne hx.1
  have huroot := hr.sound.root_of_recon hup
  have hle : u.ncount.toNat ≤ t.ncount.toNat :=
    ncount_le_of_paths hr.sound.tree h.inv.tree (h.inv.root_allocated htp) fun p i hf =>
      hr.exists_path (rest := []) (by simpa using hh) hf
  have hge : t.ncount.toNat ≤ u.ncount.toNat :=
    ncount_le_of_paths h.inv.tree hr.sound.tree (hr.sound.root_allocated (by simp [hup])) fun p i hf => by
      obtain ⟨code, c, hp, hc⟩ := h.exists_code_of_path hf
      obtain ⟨j, hj, -⟩ := (hucodes code c).2 hc
      exact exists_follow_of_prefix hp hj
  exact ⟨u, hu, hr.no_error, hup, huroot, huw.trans huroot, BitVec.eq_of_toNat_eq (le_antisymm hle hge), hucodes⟩

end Sys2Proof.Safety
end

section
/-! PROOFS. The statements of 43_bit_decode: DSTART (R170), DBITS (R169, R171, R173, R174), DEND (R172), how a stream may be cut (R178), the round trip (R179), and extra input (R180). -/

namespace Sys2Proof.Safety

open Sys2Proof.Laws Sys2Proof.Machine

/-! ## DSTART and DEND by phase -/

theorem exec_dstart_of_sequence {s : State} (he : s.err = .none) (hp : s.phase = .idle ∨ s.phase = .decode)
    (len : BitCount) : exec (.dstart len) s = .next (failed .sequence s) := by
  simp only [exec, execDstart, gated_of_noError he, if_pos hp]
  rfl

theorem exec_dstart_of_open_walk {s : State} (he : s.err = .none) (hp : s.phase = .recon) (hw : s.walk ≠ s.root)
    (len : BitCount) : exec (.dstart len) s = .next (failed .malformedHeader s) := by
  simp only [exec, execDstart, gated_of_noError he]
  rw [if_neg (by simp [hp]), if_pos ⟨hp, hw⟩]
  rfl

/-- The phases from which DSTART starts a decode (R170). -/
abbrev decodable (s : State) : Prop :=
  s.phase = .tree ∨ (s.phase = .recon ∧ s.walk = s.root) ∨ s.phase = .done

theorem exec_dstart_of_decodable {s : State} (he : s.err = .none) (hp : decodable s) (len : BitCount) :
    exec (.dstart len) s = .next (decodeStarted len s) := by
  have haccepted : ¬(s.phase = .idle ∨ s.phase = .decode) := by
    rcases hp with hp | ⟨hp, -⟩ | hp <;> simp [hp]
  have hclosed : ¬(s.phase = .recon ∧ s.walk ≠ s.root) := by
    rcases hp with hp | ⟨-, hw⟩ | hp
    · simp [hp]
    · simp [hw]
    · simp [hp]
  simp only [exec, execDstart, gated_of_noError he, if_neg haccepted, if_neg hclosed]
  rfl

theorem execAll_dstart_cons {s : State} (he : s.err = .none) (hp : decodable s) (len : BitCount) (is : List Instr) :
    execAll (.dstart len :: is) s = execAll is (decodeStarted len s) := by
  rw [execAll, exec_dstart_of_decodable he hp]

/-- Settles O51, by DSTART's checks and the codec's round trip. -/
theorem dstartStartsADecode : Obligations.DstartStartsADecode := fun _ len he =>
  ⟨fun hp => exec_dstart_of_sequence he hp len, fun hp hw => exec_dstart_of_open_walk he hp hw len,
    fun hp => exec_dstart_of_decodable he hp len, by rw [toNat_encode, toNat_operandBits]; rfl,
    decodeOfEncodeIsTheCommand _ rfl⟩

theorem exec_dend_of_sequence {s : State} (he : s.err = .none) (hd : s.phase ≠ .decode) (hn : s.phase ≠ .done) :
    exec .dend s = .next (failed .sequence s) := by
  simp only [exec, execDend, gated_of_noError he]
  exact if_pos ⟨hd, hn⟩

theorem exec_dend_decode {s : State} (he : s.err = .none) (hp : s.phase = .decode) :
    exec .dend s = .next (failed .truncatedStream s) := by
  simp only [exec, execDend, gated_of_noError he]
  rw [if_neg (by simp [hp]), if_pos hp]
  rfl

theorem exec_dend_done {s : State} (he : s.err = .none) (hp : s.phase = .done) :
    exec .dend s = .next (responded s) := by
  simp only [exec, execDend, gated_of_noError he]
  rw [if_neg (by simp [hp]), if_neg (by simp [hp])]
  rfl

/-- Settles O54, by DEND's checks. -/
theorem dendReportsTruncation : Obligations.DendReportsTruncation := fun _ he =>
  ⟨exec_dend_of_sequence he, exec_dend_decode he, exec_dend_done he, rfl, rfl⟩

/-! ## DBITS by phase -/

theorem exec_dbits_of_sequence {s : State} {n : Nat} {p : Payload} (he : s.err = .none) (hv : chunkValid n p = true)
    (hd : s.phase ≠ .decode) (hn : s.phase ≠ .done) : exec (.dbits n p) s = .next (failed .sequence s) := by
  simp only [exec, execDbits, gated_of_noError he, hv, Bool.true_eq_false, if_false]
  exact if_pos ⟨hd, hn⟩

theorem exec_dbits_done {s : State} {n : Nat} {p : Payload} (he : s.err = .none) (hv : chunkValid n p = true)
    (hp : s.phase = .done) : exec (.dbits n p) s = .next (responded s) := by
  rw [exec_dbits_decode he (.inr hp) hv, decodeBits_done hp]
  rfl

theorem chunkValid_oneBit (b : Bool) : chunkValid 1 (oneBit b) = true := by cases b <;> decide

theorem chunkBits_oneBit (b : Bool) : chunkBits 1 (oneBit b) = [b] := by cases b <;> decide

/-- DBITS of one bit is one DecodeStep (R171, R173). -/
theorem exec_dbits_oneBit {s : State} (he : s.err = .none) (hp : s.phase = .decode) (b : Bool) :
    exec (.dbits 1 (oneBit b)) s = (decodeStep b s).finish := by
  rw [exec_dbits_decode he (.inl hp) (chunkValid_oneBit b), chunkBits_oneBit, decodeBits_cons (by simp [hp])]
  cases decodeStep b s <;> rfl

/-! ## One content bit -/

/-- In a sound decode a bit is owed, and POS names an INTERNAL record (R37, R38). -/
theorem Inv.decode_regs {s : State} (h : Inv s) (hp : s.phase = .decode) :
    s.bitcnt.toNat < s.bitlen.toNat ∧ ∃ r, nodeAt s s.pos = some r ∧ r.kind = .internal := by
  have hph := h.phase_ok
  simp only [PhaseOk, hp] at hph
  obtain ⟨-, -, hpos, hlt⟩ := hph
  exact ⟨hlt, isInternal_iff.1 hpos⟩

theorem bitcnt_succ_eq_iff {s : State} (h : s.bitcnt.toNat < s.bitlen.toNat) :
    s.bitcnt + 1 = s.bitlen ↔ s.bitcnt.toNat + 1 = s.bitlen.toNat := by
  rw [← BitVec.toNat_inj, bitcnt_succ h]

/-- Settles O52: the rows are DecodeStep's cases (`decodeStep_badPath`, `decodeStep_transitions`). -/
theorem decoderTransitions : Obligations.DecoderTransitions := by
  refine fun s b h he => ⟨exec_dbits_done he (chunkValid_oneBit b), fun hp => ?_⟩
  obtain ⟨hlt, r, hr, hk⟩ := h.decode_regs hp
  have hlast := bitcnt_succ_eq_iff hlt
  rw [exec_dbits_oneBit he hp]
  refine ⟨hlt, r, hr, hk, fun hc => ?_, fun hc => ?_⟩
  · rw [decodeStep_badPath hr hc]
    rfl
  · obtain ⟨rc, hrc⟩ := h.tree.child_allocated hr hc
    rw [decodeStep_transitions hr hrc]
    refine ⟨rc, hrc, fun hl hin => ?_, fun hl hend => ?_, fun hi hin => ?_, fun hi hend => ?_⟩
    · rw [if_pos hl, if_neg (mt hlast.1 hin.ne)]
      rfl
    · rw [if_pos hl, if_pos (hlast.2 hend)]
      rfl
    · rw [if_neg (kind_ne_leaf.2 hi), if_neg (mt hlast.1 hin.ne)]
      rfl
    · rw [if_neg (kind_ne_leaf.2 hi), if_pos (hlast.2 hend), if_neg (h.tree.child_ne_root hr hc)]
      rfl

/-! ## One DBITS -/

/-- How a sound decode of `s` can stand after `n` more bits, by the code raised (R171, R173, R174). -/
inductive DbitsOutcome (n : Nat) (s v : State) : Err → Prop where
  /-- All bits are consumed, and more are owed. -/
  | inside (phase : v.phase = .decode) (count : v.bitcnt.toNat = s.bitcnt.toNat + n)
      (owed : s.bitcnt.toNat + n < s.bitlen.toNat) : DbitsOutcome n s v .none
  /-- The last owed bit is consumed, and ends a code. -/
  | complete (phase : v.phase = .done) (count : v.bitcnt = s.bitlen) (supplied : s.bitlen.toNat ≤ s.bitcnt.toNat + n) :
      DbitsOutcome n s v .none
  /-- A bit that is owed selects no child. -/
  | badPath (phase : v.phase = .decode) (count : v.bitcnt.toNat < s.bitlen.toNat)
      (no_child : ∃ i r b, nodeAt s i = some r ∧ r.kind = .internal ∧ childOf r b = Config.nil) :
      DbitsOutcome n s v .badPath
  /-- The last owed bit is consumed, inside a code. -/
  | partialSymbol (phase : v.phase = .done) (count : v.bitcnt = s.bitlen)
      (supplied : s.bitlen.toNat ≤ s.bitcnt.toNat + n) : DbitsOutcome n s v .partialSymbol

theorem DbitsOutcome.err_cases {n : Nat} {s v : State} {e : Err} (h : DbitsOutcome n s v e) :
    e = .none ∨ e = .badPath ∨ e = .partialSymbol := by cases h <;> simp

theorem DbitsOutcome.phase_cases {n : Nat} {s v : State} {e : Err} (h : DbitsOutcome n s v e) :
    v.phase = .done ∨ v.phase = .decode := by
  cases h with
  | inside phase | badPath phase => exact .inr phase
  | complete phase | partialSymbol phase => exact .inl phase

/-- The decoder is done exactly at the boundary (R174). -/
theorem DbitsOutcome.done_iff {n : Nat} {s v : State} {e : Err} (h : DbitsOutcome n s v e) :
    v.phase = .done ↔ v.bitcnt = s.bitlen := by
  cases h with
  | inside phase count owed => simp only [phase, ← BitVec.toNat_inj, count, owed.ne, reduceCtorEq]
  | badPath phase count => simp only [phase, ← BitVec.toNat_inj, count.ne, reduceCtorEq]
  | complete phase count | partialSymbol phase count => simp only [phase, count]

/-- The bits consumed are those supplied, but none past the boundary. -/
theorem DbitsOutcome.count_eq {n : Nat} {s v : State} {e : Err} (h : DbitsOutcome n s v e) (he : e ≠ .badPath) :
    v.bitcnt.toNat = min (s.bitcnt.toNat + n) s.bitlen.toNat := by
  cases h with
  | inside _ count owed => rw [count, min_eq_left owed.le]
  | complete _ count supplied | partialSymbol _ count supplied => rw [count, min_eq_right supplied]
  | badPath => exact absurd rfl he

/-- Before the boundary only a missing child can stop the decoder. -/
theorem DbitsOutcome.err_eq_none {n : Nat} {s v : State} {e : Err} (h : DbitsOutcome n s v e)
    (hn : s.bitcnt.toNat + n < s.bitlen.toNat)
    (hfull : ∀ i r, nodeAt s i = some r → r.kind = .internal → r.c0 ≠ Config.nil ∧ r.c1 ≠ Config.nil) : e = .none := by
  cases h with
  | inside | complete => rfl
  | badPath _ _ no_child =>
    obtain ⟨i, r, b, hr, hk, hc⟩ := no_child
    obtain ⟨h0, h1⟩ := hfull i r hr hk
    cases b
    · exact absurd hc h0
    · exact absurd hc h1
  | partialSymbol _ _ supplied => exact absurd hn (not_lt.2 supplied)

theorem decodeBits_ok_outcome {bs : List Bool} {s t : State} (h : Inv s) (hp : s.phase = .decode)
    (ht : decodeBits bs s = .ok t) : DbitsOutcome bs.length s t .none := by
  have hlen : t.bitlen = s.bitlen := by rw [decodeBits_frame ht]
  rcases decodeBits_consumed h hp ht with ⟨hph, hcount, hlt⟩ | ⟨hph, hcount, hle, -⟩
  · exact .inside hph hcount (by rwa [hcount, hlen] at hlt)
  · exact .complete hph (hcount.trans hlen) hle

/-- The bits before the one that fails are consumed; the failing one stands in a sound decode. -/
theorem decodeBits_fail_outcome {bs : List Bool} {s t : State} {e : Err} (h : Inv s) (hp : s.phase = .decode)
    (ht : decodeBits bs s = .fail e t) : DbitsOutcome bs.length s t e := by
  obtain ⟨pre, b, post, u, rfl, hu, hnd, hb⟩ := decodeBits_eq_fail ht
  obtain ⟨hui, hup⟩ := decodeBits_keeps_inv h (.inl hp) hu
  have hud := hup.resolve_right hnd
  have hframe := decodeBits_frame hu
  have hlen : u.bitlen = s.bitlen := by rw [hframe]
  obtain ⟨hlt, r, hr, hk⟩ := hui.decode_regs hud
  rcases decodeStep_fail_cases hb with ⟨rfl, rfl, q, hq, hc⟩ | ⟨rfl, hlast, -, heq⟩
  · rw [hr, Option.some.injEq] at hq
    subst hq
    refine .badPath hud (hlen ▸ hlt) ⟨t.pos, r, b, ?_, hk, hc⟩
    rw [← hr]
    exact (nodeAt_congr (by rw [hframe]) (by rw [hframe]) _).symm
  · refine .partialSymbol (by rw [heq]) (by rw [heq, ← hlen, ← hlast]) ?_
    rcases decodeBits_consumed h hp hu with ⟨-, hcount, -⟩ | ⟨hdone, -⟩
    · rw [bitcnt_succ_eq_iff hlt, hcount, hlen] at hlast
      rw [← hlast, List.length_append, List.length_cons]
      omega
    · exact absurd hdone hnd

/-- DBITS in a sound decode: what it leaves alone, and how it ends. -/
theorem exec_dbits_outcome {s : State} {n : Nat} {p : Payload} (h : Inv s) (he : s.err = .none) (hp : s.phase = .decode)
    (hv : chunkValid n p = true) :
    ∃ v e, exec (.dbits n p) s = .next (responded { v with err := e }) ∧
      v = { s with phase := v.phase, pos := v.pos, bitcnt := v.bitcnt, out := v.out } ∧ DbitsOutcome n s v e := by
  rw [exec_dbits_decode he (.inl hp) hv]
  cases hd : decodeBits (chunkBits n p) s with
  | ok v =>
    have ho := decodeBits_ok_outcome h hp hd
    rw [chunkBits_length] at ho
    have hverr : v.err = .none := (decodeBits_err hd).trans he
    exact ⟨v, .none, by rw [← hverr]; rfl, decodeBits_frame hd, ho⟩
  | fail e v =>
    have ho := decodeBits_fail_outcome h hp hd
    rw [chunkBits_length] at ho
    obtain ⟨hframe, -⟩ := decodeBits_fail_frame hd
    have hverr : v.err = .none := by rw [hframe]; exact he
    refine ⟨v, e, ?_, hframe, ho⟩
    rw [Flow.finish_fail, raise, hverr]
    rfl
  | stop f => exact absurd hd (decodeBits_ne_stop h (.inl hp))

/-- Settles O53: DBITS by phase, and in a decode by how it ends (`DbitsOutcome`). -/
theorem dbitsConsumesUpToTheBoundary : Obligations.DbitsConsumesUpToTheBoundary := by
  refine fun s n payload he hv => ⟨exec_dbits_of_sequence he hv, exec_dbits_done he hv, fun h hp => ?_⟩
  obtain ⟨v, e, hx, hframe, ho⟩ := exec_dbits_outcome h he hp hv
  refine ⟨_, hx, ?_, rfl, ho.err_cases, ho.count_eq, ho.done_iff, ho.phase_cases, ho.err_eq_none⟩
  rw [hframe]

/-! ## Streams -/

/-- Settles O55: a run of chunks is all its bits at once (`execAll_dstream`). -/
theorem contentChunkingDoesNotMatter : Obligations.ContentChunkingDoesNotMatter := by
  intro s cs ds hcs hds heq
  have hnil : cs = [] ↔ ds = [] := by rw [← streamBits_eq_nil hcs, heq, streamBits_eq_nil hds]
  by_cases hc : cs = []
  · rw [hc, hnil.1 hc]
  · rw [execAll_dstream hcs hc, execAll_dstream hds (mt hnil.2 hc), heq]

/-- Bits after the last owed one are discarded (R180): the decoder is done before them, or has stopped. -/
theorem decodeBits_append_of_owed {bs extra : List Bool} {s : State} (h : Inv s) (hp : s.phase = .decode)
    (hall : s.bitlen.toNat ≤ s.bitcnt.toNat + bs.length) : decodeBits (bs ++ extra) s = decodeBits bs s := by
  rw [decodeBits_append]
  cases hd : decodeBits bs s with
  | ok t =>
    cases decodeBits_ok_outcome h hp hd with
    | inside _ _ owed => exact absurd hall (not_le.2 owed)
    | complete phase => rw [Flow.bind_ok, decodeBits_done phase]
  | fail e t => rfl
  | stop f => rfl

theorem execAll_dstream_done {cs : List Chunk} {s : State} (he : s.err = .none) (hp : s.phase = .done)
    (hv : chunksValid cs) (hne : cs ≠ []) : execAll (dstream cs) s = .next (responded s) := by
  rw [execAll_dstream hv hne, if_neg (by simp [he]), if_neg (by simp [hp]), decodeBits_done hp]
  rfl

/-- Settles O56: the chunk is the owed bits and then the extra ones, which are discarded. -/
theorem extraInputIsDiscarded : Obligations.ExtraInputIsDiscarded := by
  refine fun s h he => ⟨fun hp n payload owed hv hall hlt => ?_,
    fun hp cs hv hne => ⟨execAll_dstream_done he hp hv hne, exec_dend_done he hp⟩⟩
  obtain ⟨extra, rfl⟩ := Nat.exists_eq_add_of_le hlt.le
  have howed : 1 ≤ owed := by
    obtain ⟨hin, -⟩ := h.decode_regs hp
    omega
  rw [Nat.add_sub_cancel_left, exec_dbits_decode he (.inl hp) hv,
    exec_dbits_decode he (.inl hp) (chunkValid_part hv howed), chunkBits_add,
    decodeBits_append_of_owed h hp (by rw [chunkBits_length, hall])]

/-! ## The round trip -/

/-- The decoder stands between two codes of a tree: at ROOT, and DONE exactly when no bit is owed. -/
structure BetweenCodes (s : State) : Prop where
  tree : TreeOk s
  root_internal : isInternal s s.root
  at_root : s.pos = s.root
  phase_eq : s.phase = if s.bitcnt.toNat = s.bitlen.toNat then .done else .decode

theorem decodeStarted_betweenCodes {s : State} (h : Inv s) (hp : decodable s) (len : BitCount) :
    BetweenCodes (decodeStarted len s) where
  tree := TreeOk.congr (s := s) rfl rfl rfl rfl h.tree
  root_internal := h.hasTree (by rcases hp with hp | ⟨hp, -⟩ | hp <;> simp [hp])
  at_root := rfl
  phase_eq := by
    have hiff : len = 0 ↔ (0 : BitCount).toNat = len.toNat := by rw [BitVec.toNat_inj, eq_comm]
    exact if_congr hiff rfl rfl

/-- What decoding the codes of a message leaves, when they are all the bits owed (R179). -/
def messageDecoded (symbols : List Symbol) (s : State) : State :=
  { s with phase := .done, pos := s.root, bitcnt := s.bitlen, out := s.out ++ symbols }

theorem messageDecoded_nil {s : State} (hp : s.phase = .done) (hpos : s.pos = s.root) (hb : s.bitcnt = s.bitlen) :
    messageDecoded [] s = s := by
  cases s
  simp_all [messageDecoded]

theorem BetweenCodes.emitted {s : State} (h : BetweenCodes s) {n : Nat} (c : Symbol)
    (hn : s.bitcnt.toNat + n ≤ s.bitlen.toNat) :
    BetweenCodes (emitted n c s) ∧ (Safety.emitted n c s).bitcnt.toNat = s.bitcnt.toNat + n := by
  have hcount : (Safety.emitted n c s).bitcnt.toNat = s.bitcnt.toNat + n := by
    have hlt := s.bitlen.isLt
    simp only [Safety.emitted, BitVec.toNat_add, BitVec.toNat_ofNat]
    omega
  refine ⟨⟨TreeOk.congr (s := s) rfl rfl rfl rfl h.tree, h.root_internal, rfl, ?_⟩, hcount⟩
  rw [hcount]
  rfl

/-- Decoding the codes of a message, code by code (`decodeBits_path`). -/
theorem decodeBits_message {message : List (Symbol × List Bool)} {s : State} (h : BetweenCodes s)
    (hcodes : ∀ m ∈ message, hasCode s m.2 m.1)
    (hlen : s.bitcnt.toNat + (message.flatMap Prod.snd).length = s.bitlen.toNat) :
    decodeBits (message.flatMap Prod.snd) s = .ok (messageDecoded (message.map Prod.fst) s) := by
  induction message generalizing s with
  | nil =>
    have hcount : s.bitcnt = s.bitlen := BitVec.eq_of_toNat_eq hlen
    have hphase : s.phase = .done := h.phase_eq.trans (if_pos hlen)
    exact congrArg Flow.ok (messageDecoded_nil hphase h.at_root hcount).symm
  | cons m message ih =>
    have hm := hcodes m List.mem_cons_self
    have hne := hasCode_ne_nil h.root_internal hm
    have hpos := List.length_pos_iff.2 hne
    obtain ⟨i, hpath, hleaf⟩ := hm
    rw [List.flatMap_cons, List.length_append] at hlen
    have hphase : s.phase = .decode := h.phase_eq.trans (if_neg (by omega))
    obtain ⟨hnext, hcount⟩ := h.emitted m.1 (n := m.2.length) (by omega)
    rw [List.flatMap_cons, decodeBits_append,
      decodeBits_path h.tree hphase hne (h.at_root ▸ hpath) hleaf (by omega), Flow.bind_ok,
      ih hnext (fun d hd => (hasCode_congr (s := s) (t := emitted m.2.length m.1 s) rfl rfl rfl).2
        (hcodes d (List.mem_cons_of_mem _ hd))) (by rw [hcount, Nat.add_assoc]; exact hlen)]
    simp only [messageDecoded, emitted, List.map_cons, List.append_assoc, List.singleton_append]

/-- A stream that decodes without error leaves what its bits leave, but for RESP. -/
theorem execAll_dstream_of_ok {cs : List Chunk} {s t : State} (hv : chunksValid cs) (he : s.err = .none)
    (hp : s.phase = .decode ∨ s.phase = .done) (ht : decodeBits (streamBits cs) s = .ok t) :
    ∃ v, execAll (dstream cs) s = .next (respond v t) := by
  by_cases hne : cs = []
  · subst hne
    cases ht
    exact ⟨s.resp, rfl⟩
  · refine ⟨status t, ?_⟩
    rw [execAll_dstream hv hne, if_neg (by simp [he]), if_neg (by rcases hp with hp | hp <;> simp [hp]), ht]
    rfl

/-- Settles O57: DSTART leaves the decoder between codes, and the stream is the message's codes (`decodeBits_message`). -/
theorem roundTrip : Obligations.RoundTrip := by
  intro s message cs h he hp hcodes hv hbits hlen
  generalize hlen' : BitVec.ofNat 48 (streamBits cs).length = len
  have hcount : len.toNat = (streamBits cs).length := by rw [← hlen', BitVec.toNat_ofNat, Nat.mod_eq_of_lt hlen]
  have hstart := decodeStarted_betweenCodes h hp len
  have hphase : (decodeStarted len s).phase = .decode ∨ (decodeStarted len s).phase = .done := by
    rw [hstart.phase_eq]
    split <;> simp
  have hmessage := decodeBits_message hstart (message := message)
    (fun m hm => (hasCode_congr (s := s) (t := decodeStarted len s) rfl rfl rfl).2 (hcodes m hm))
    (by rw [← hbits]; exact (Nat.zero_add _).trans hcount.symm)
  rw [← hbits] at hmessage
  obtain ⟨v, hstream⟩ := execAll_dstream_of_ok (s := decodeStarted len s) hv he hphase hmessage
  exact ⟨_, (execAll_dstart_cons he hp len _).trans hstream, rfl, rfl, he, rfl, rfl, hcount⟩

end Sys2Proof.Safety
end

section
/-! PROOFS. The statements of 44_control_readout: NOP (R200), CLR (R201), and the reads: that they change nothing but RESP, or ERR and RESP (R202), and what RDREG (R203, R204), RDNODE (R205) and RDFREQ (R206) respond. -/

namespace Sys2Proof.Machine

open Sys2Proof.Laws Sys2Proof.Safety

/-! ## NOP and CLR -/

/-- Settles O24: NOP is its response alone, and its word is a numeral that the decoder evaluates on. -/
theorem nopReturnsStatus : Obligations.NopReturnsStatus := ⟨fun _ => rfl, rfl, rfl⟩

/-- CLR restores every register and responds with the STATUS that it leaves (R201, `status_resetState`). -/
theorem exec_clr (s : State) : exec .clr s = .next (respond 0x0000000001FF0000#64 (resetState s)) := by
  rw [← status_resetState s]
  rfl

/-- Settles O25, by `exec_clr` with the reset state written out. -/
theorem clrRestoresTheResetState : Obligations.ClrRestoresTheResetState := ⟨exec_clr, rfl, rfl⟩

/-! ## RDREG -/

theorem exec_rdreg_of_some {sel : Nat} {s : State} {v : Word} (h : readReg sel s = some v) :
    exec (.rdreg sel) s = .next (respond v s) := by
  simp only [exec, execRdreg, h]

/-- The selectors above 4 name no register (R204). -/
theorem readReg_eq_none {sel : Nat} (h : 5 ≤ sel) (s : State) : readReg sel s = none :=
  match sel, h with
  | _ + 5, _ => rfl

theorem exec_rdreg_of_none {sel : Nat} {s : State} (h : readReg sel s = none) :
    exec (.rdreg sel) s = .next (failed .badOperand s) := by
  simp only [exec, execRdreg, h]
  rfl

/-- Settles O27: each selector is a row of `readReg`, and a register's zero extension is the word of its number. -/
theorem rdregReadsTheRegister : Obligations.RdregReadsTheRegister := by
  intro s
  simp only [BitVec.ofNat_toNat]
  exact ⟨exec_rdreg_of_some rfl, exec_rdreg_of_some rfl, exec_rdreg_of_some rfl, exec_rdreg_of_some rfl,
    exec_rdreg_of_some rfl, fun _ hsel => exec_rdreg_of_none (readReg_eq_none hsel s)⟩

/-! ## RDFREQ -/

theorem exec_rdfreq (s : State) (c : Symbol) :
    exec (.rdfreq c) s = .next (respond ((readFreq s c).zeroExtend 64) s) := rfl

/-- Settles O29: the weight's zero extension is the word of its number, the codec round-trips, and the table holds every
symbol whose weight is not 0 (`mem_tableSymbols`). -/
theorem rdfreqReadsTheWeight : Obligations.RdfreqReadsTheWeight := by
  refine fun s c => ⟨?_, ?_, decodeOfEncodeIsTheCommand _ rfl, fun h => not_not.1 (mt mem_tableSymbols.2 h)⟩
  · rw [BitVec.ofNat_toNat]
    exact exec_rdfreq s c
  · rw [toNat_encode, toNat_operandBits]
    rfl

/-! ## RDNODE -/

theorem exec_rdnode_nil (s : State) : exec (.rdnode Config.nil) s = .next (failed .badOperand s) := rfl

theorem exec_rdnode_unallocated {s : State} {idx : NodeIdx} (hnil : idx ≠ Config.nil)
    (h : s.ncount.toNat ≤ idx.toNat) : exec (.rdnode idx) s = .next (respond 0 s) := by
  simp only [exec, execRdnode, if_neg hnil, if_pos h]

theorem exec_rdnode_of_record {s : State} {idx : NodeIdx} {r : NodeRec} (h : nodeAt s idx = some r) :
    exec (.rdnode idx) s = .next (respond (packNode r) s) := by
  have hlt : idx.toNat < s.ncount.toNat := (nodeAt_eq_some_iff.1 h).1
  simp only [exec, execRdnode, if_neg (nodeAt_ne_nil h), if_neg hlt.not_ge, h]

/-- A field of the RDNODE response by its place in the sum of all fields. -/
theorem extractLsb'_packNode {r : NodeRec} {lo len : Nat} {x : BitVec len}
    (h : ((kindCode r.kind).toNat * 2 ^ 58 +
      (r.c1.toNat * 2 ^ 49 + (r.c0.toNat * 2 ^ 40 + (r.sym.toNat * 2 ^ 32 + r.weight.toNat)))) / 2 ^ lo % 2 ^ len = x.toNat) :
    (packNode r).extractLsb' lo len = x := by
  apply BitVec.eq_of_toNat_eq
  rw [BitVec.extractLsb'_toNat, packNode_toNat, Nat.shiftRight_eq_div_pow, h]

/-- The layout of the RDNODE response (R205). -/
theorem packNode_layout (r : NodeRec) :
    (packNode r).extractLsb' 0 32 = r.weight ∧ (packNode r).extractLsb' 32 8 = r.sym ∧
      (packNode r).extractLsb' 40 9 = r.c0 ∧ (packNode r).extractLsb' 49 9 = r.c1 ∧
      (packNode r).extractLsb' 58 2 = kindCode r.kind ∧ (packNode r).extractLsb' 60 4 = 0 := by
  have hk := (kindCode r.kind).isLt
  have h1 := r.c1.isLt
  have h0 := r.c0.isLt
  have hs := r.sym.isLt
  have hw := r.weight.isLt
  have hz : (0 : BitVec 4).toNat = 0 := BitVec.toNat_zero
  exact ⟨extractLsb'_packNode (by omega), extractLsb'_packNode (by omega), extractLsb'_packNode (by omega),
    extractLsb'_packNode (by omega), extractLsb'_packNode (by omega), extractLsb'_packNode (by rw [hz]; omega)⟩

/-- Settles O28, by the kind of index: NIL, one at or above NCOUNT, and one below, which in a sound state names a sound
record (`TreeOk.exists_nodeAt`, `TreeOk.record`). -/
theorem rdnodeReadsTheRecord : Obligations.RdnodeReadsTheRecord := by
  intro s idx h
  refine ⟨?_, exec_rdnode_unallocated, fun hlt => ?_, ?_, decodeOfEncodeIsTheCommand _ rfl⟩
  · rintro rfl
    exact exec_rdnode_nil s
  · obtain ⟨r, hr⟩ := h.tree.exists_nodeAt hlt
    obtain ⟨hweight, hsym, hc0, hc1, hkind, hzero⟩ := packNode_layout r
    have hok := h.tree.record hr
    exact ⟨r, packNode r, hr, exec_rdnode_of_record hr, hweight, hsym, hc0, hc1, hkind, hzero, hok.leaf_no_child,
      hok.internal_sym⟩
  · rw [toNat_encode, toNat_operandBits]
    rfl

/-! ## Reads have no side effects -/

/-- Settles O26: a read of a sound state answers a next state (`exec_goesOn`), a response where the operand is valid and
BAD_OPERAND where it is not. -/
theorem readsHaveNoSideEffects : Obligations.ReadsHaveNoSideEffects := by
  intro i s h hread
  obtain ⟨t, ht, -⟩ := exec_goesOn h i
  refine ⟨t, ht, ?_⟩
  rcases hread with ⟨sel, rfl⟩ | ⟨idx, rfl⟩ | ⟨c, rfl⟩
  · rcases execRdreg_cases ht with ⟨hsel, v, rfl⟩ | ⟨hsel, rfl⟩
    · exact ⟨fun _ => rfl, fun hbad => absurd hsel (of_decide_eq_false hbad)⟩
    · exact ⟨fun hok => absurd (of_decide_eq_true hok) hsel.not_ge, fun _ => rfl⟩
  · rcases execRdnode_cases ht with ⟨hidx, v, rfl⟩ | ⟨rfl, rfl⟩
    · exact ⟨fun _ => rfl, fun hbad => absurd (bne_eq_false_iff_eq.1 hbad) hidx⟩
    · exact ⟨fun hok => absurd rfl (bne_iff_ne.1 hok), fun _ => rfl⟩
  · cases ht
    exact ⟨fun _ => rfl, fun hbad => absurd hbad (by decide : true ≠ false)⟩

end Sys2Proof.Machine
end

section
/-! PROOFS. The statements of 60_exceptions: the command step (R223, R245), which command raises which code (R220), sticky errors and the response (R221, R222, R227), the phase acceptance table (R224), operand errors (R225), and what a failing command leaves (R226). -/

namespace Sys2Proof.Safety

open Sys2Proof.Machine

/-! ## The command step -/

/-- Settles O9: the word is the next one, and it decodes. -/
theorem stepRunsTheDecodedCommand : Obligations.StepRunsTheDecodedCommand :=
  fun _ _ _ _ hin hd => step_of_command hin hd

/-- Settles O10: there is no word to take. -/
theorem idleStepKeepsTheState : Obligations.IdleStepKeepsTheState :=
  fun _ hin => step_of_idle hin

/-! ## How a command ends -/

/-- The commands that can raise an error after they have changed the state, and where: `u` is what stands when `e` is raised
(R226). -/
inductive BreaksOff (s : State) : Instr → Err → State → Prop where
  | ibits {n : Nat} {p : Payload} {e : Err} {v u : State} (valid : chunkValid n p = true)
      (accepted : s.phase = .idle ∨ s.phase = .recon) (entered : enterRecon s = .ok v)
      (fails : walkBits (chunkBits n p) v = .fail e u) : BreaksOff s (.ibits n p) e u
  | ileaf {c : Symbol} {u : State} (entered : enterRecon s = .ok u) : BreaksOff s (.ileaf c) .malformedHeader u
  | dbits {n : Nat} {p : Payload} {e : Err} {u : State} (valid : chunkValid n p = true)
      (accepted : s.phase = .decode ∨ s.phase = .done) (fails : decodeBits (chunkBits n p) s = .fail e u) :
      BreaksOff s (.dbits n p) e u

/-- What a command that answers a next state has done with ERR. -/
inductive Ends (i : Instr) (s : State) : State → Prop where
  /-- It succeeded, or was ignored under an error. -/
  | succeeded {t : State} (err : t.err = s.err) : Ends i s t
  /-- It is CLR. -/
  | cleared {t : State} (is_clr : i = .clr) (err : t.err = .none) : Ends i s t
  /-- It raised an error before it changed anything. -/
  | refused (e : Err) (may : mayRaise i e = true) (seq : e = .sequence → accepts i s.phase = false) :
      Ends i s (raise e s)
  /-- It raised an error on the way. -/
  | brokenOff {e : Err} {u : State} (breaks : BreaksOff s i e u) : Ends i s (raise e u)

/-- Each command's inversion lemma, read for ERR alone. -/
theorem exec_ends {i : Instr} {s t : State} (h : exec i s = .next t) : Ends i s t := by
  cases i with
  | nop => cases h; exact .succeeded rfl
  | clr => cases h; exact .cleared rfl rfl
  | setw c v =>
    rcases execSetw_cases h with ⟨-, rfl⟩ | ⟨-, ⟨hp, rfl⟩ | ⟨-, rfl⟩⟩
    · exact .succeeded rfl
    · exact .refused _ rfl fun _ => beq_eq_false_iff_ne.2 hp
    · exact .succeeded rfl
  | incw c =>
    rcases execIncw_cases h with ⟨-, rfl⟩ | ⟨-, ⟨hp, rfl⟩ | ⟨-, -, rfl⟩ | ⟨-, -, rfl⟩⟩
    · exact .succeeded rfl
    · exact .refused _ rfl fun _ => beq_eq_false_iff_ne.2 hp
    · exact .refused _ rfl nofun
    · exact .succeeded rfl
  | build =>
    rcases execBuild_cases h with
      ⟨-, rfl⟩ | ⟨-, ⟨hp, rfl⟩ | ⟨-, -, rfl⟩ | ⟨-, -, -, rfl⟩ | ⟨-, -, -, u, hu, rfl⟩⟩
    · exact .succeeded rfl
    · exact .refused _ rfl fun _ => beq_eq_false_iff_ne.2 hp
    · exact .refused _ rfl nofun
    · exact .refused _ rfl nofun
    · exact .succeeded (by rw [buildTree_frame hu]; rfl)
  | ibits n p =>
    rcases execIbits_cases h with
      ⟨-, rfl⟩ | ⟨-, ⟨-, rfl⟩ | ⟨-, hi, hr, rfl⟩ | ⟨hv, hp, u, hu, ⟨v, hw, rfl⟩ | ⟨e, v, hw, rfl⟩⟩⟩
    · exact .succeeded rfl
    · exact .refused _ rfl nofun
    · exact .refused _ rfl fun _ => by simp [accepts, hi, hr]
    · exact .succeeded (by rw [walkBits_frame hw, enterRecon_frame hu]; rfl)
    · exact .brokenOff (.ibits hv hp hu hw)
  | ileaf c =>
    rcases execIleaf_cases h with ⟨-, rfl⟩ | ⟨-, ⟨hi, hr, rfl⟩ | ⟨-, u, hu, ⟨v, hm, rfl⟩ | ⟨-, rfl⟩⟩⟩
    · exact .succeeded rfl
    · exact .refused _ rfl fun _ => by simp [accepts, hi, hr]
    · obtain ⟨-, r, -, -, -, -, rfl⟩ := markLeaf_eq_ok hm
      exact .succeeded (by rw [enterRecon_frame hu]; rfl)
    · exact .brokenOff (.ileaf hu)
  | dstart len =>
    rcases execDstart_cases h with ⟨-, rfl⟩ | ⟨-, ⟨hp, rfl⟩ | ⟨-, -, rfl⟩ | ⟨-, -, -, rfl⟩⟩
    · exact .succeeded rfl
    · exact .refused _ rfl fun _ => by rcases hp with hp | hp <;> simp [accepts, hp]
    · exact .refused _ rfl nofun
    · exact .succeeded rfl
  | dbits n p =>
    rcases execDbits_cases h with
      ⟨-, rfl⟩ | ⟨-, ⟨-, rfl⟩ | ⟨-, hd, hn, rfl⟩ | ⟨hv, hp, ⟨v, hw, rfl⟩ | ⟨e, v, hw, rfl⟩⟩⟩
    · exact .succeeded rfl
    · exact .refused _ rfl nofun
    · exact .refused _ rfl fun _ => by simp [accepts, hd, hn]
    · exact .succeeded (by rw [respondStatus_err, decodeBits_err hw])
    · exact .brokenOff (.dbits hv hp hw)
  | dend =>
    rcases execDend_cases h with ⟨-, rfl⟩ | ⟨-, ⟨hd, hn, rfl⟩ | ⟨-, rfl⟩ | ⟨-, rfl⟩⟩
    · exact .succeeded rfl
    · exact .refused _ rfl fun _ => by simp [accepts, hd, hn]
    · exact .refused _ rfl nofun
    · exact .succeeded rfl
  | rdreg sel =>
    rcases execRdreg_cases h with ⟨-, v, rfl⟩ | ⟨-, rfl⟩
    · exact .succeeded rfl
    · exact .refused _ rfl nofun
  | rdnode idx =>
    rcases execRdnode_cases h with ⟨-, v, rfl⟩ | ⟨-, rfl⟩
    · exact .succeeded rfl
    · exact .refused _ rfl nofun
  | rdfreq c => cases h; exact .succeeded rfl

/-- The loops raise codes of their commands (R220), and no SEQUENCE: the phase is checked before them. -/
theorem BreaksOff.code {i : Instr} {s u : State} {e : Err} (h : BreaksOff s i e u) :
    mayRaise i e = true ∧ e ≠ .sequence := by
  cases h with
  | ibits _ _ _ fails => obtain ⟨-, rfl | rfl⟩ := walkBits_fail_frame fails <;> exact ⟨rfl, nofun⟩
  | ileaf => exact ⟨rfl, nofun⟩
  | dbits _ _ fails => obtain ⟨-, rfl | rfl⟩ := decodeBits_fail_frame fails <;> exact ⟨rfl, nofun⟩

/-- ERR is not touched before an error is raised. -/
theorem BreaksOff.err {i : Instr} {s u : State} {e : Err} (h : BreaksOff s i e u) : u.err = s.err := by
  cases h with
  | ibits _ _ entered fails =>
    obtain ⟨hframe, -⟩ := walkBits_fail_frame fails
    rw [hframe, enterRecon_frame entered]
  | ileaf entered => rw [enterRecon_frame entered]
  | dbits _ _ fails =>
    obtain ⟨hframe, -⟩ := decodeBits_fail_frame fails
    rw [hframe]

/-- A command leaves ERR, is CLR, or raises one of its codes, SEQUENCE only in a phase that does not accept it. -/
theorem exec_err_cases {i : Instr} {s t : State} (h : exec i s = .next t) :
    t.err = s.err ∨ (i = .clr ∧ t.err = .none) ∨
      ∃ e u, mayRaise i e = true ∧ (e = .sequence → accepts i s.phase = false) ∧ u.err = s.err ∧ t = raise e u := by
  cases exec_ends h with
  | succeeded err => exact .inl err
  | cleared is_clr err => exact .inr (.inl ⟨is_clr, err⟩)
  | refused e may seq => exact .inr (.inr ⟨e, s, may, seq, rfl, rfl⟩)
  | brokenOff breaks =>
    obtain ⟨hmay, hseq⟩ := breaks.code
    exact .inr (.inr ⟨_, _, hmay, fun he => absurd he hseq, breaks.err, rfl⟩)

/-! ## Codes, their commands, and the gate -/

/-- A command leaves ERR, records one of its codes where none was, or is CLR. -/
theorem exec_code_cases {i : Instr} {s t : State} (h : exec i s = .next t) :
    t.err = s.err ∨ (s.err = .none ∧ mayRaise i t.err = true) ∨ (i = .clr ∧ t.err = .none) := by
  rcases exec_err_cases h with hsame | hclr | ⟨e, u, hmay, -, hu, rfl⟩
  · exact .inl hsame
  · exact .inr (.inr hclr)
  · rw [raise_err, hu]
    by_cases hs : s.err = .none
    · exact .inr (.inl ⟨hs, by rwa [hs, stickyErr_none]⟩)
    · exact .inl (stickyErr_of_error hs e)

/-- Settles O11: `exec_code_cases`, and ILLEGAL_CMD is no command's code. -/
theorem codesAreRaisedByTheirCommands : Obligations.CodesAreRaisedByTheirCommands := by
  refine ⟨fun _ _ _ => exec_code_cases, fun s t hstep hs ht => ?_⟩
  have hne : t.err ≠ s.err := by simp [hs, ht]
  rcases step_cases hstep with ⟨-, rfl⟩ | ⟨w, ws, hin, ⟨i, -, hx⟩ | ⟨e, hd, -⟩⟩
  · exact absurd rfl hne
  · rcases exec_code_cases hx with hsame | ⟨-, hmay⟩ | ⟨-, hnone⟩
    · exact absurd hsame hne
    · rw [ht] at hmay
      cases hmay
    · exact absurd (hnone.trans hs.symm) hne
  · exact ⟨w, ws, e, hin, hd⟩

/-- Raising an error under an error is ignoring the command (R221, R222). -/
theorem raise_of_error {s : State} (h : s.err ≠ .none) (e : Err) : raise e s = respondStatus s := by
  rw [raise, stickyErr_of_error h]

/-- Settles O12: a command changes a recorded code only if it is CLR (`exec_code_cases`), and the gate holds back the rest. -/
theorem errorsAreSticky : Obligations.ErrorsAreSticky := by
  intro s w ws hin hs
  refine ⟨fun t hstep => ?_, fun i hd hg => ?_, fun e hd => ?_⟩
  · cases hd : decode w with
    | ok i =>
      rw [step_of_command hin hd] at hstep
      rcases exec_code_cases hstep with hsame | ⟨hnone, -⟩ | ⟨rfl, -⟩
      · exact .inl hsame
      · exact absurd hnone hs
      · exact .inr rfl
    | error e =>
      rw [step_of_illegal hin hd, Host.Outcome.next.injEq] at hstep
      subst hstep
      exact .inl (stickyErr_of_error hs _)
  · rw [step_of_command hin hd, exec_of_error hg (s := { s with input := ws }) hs]
    rfl
  · rw [step_of_illegal hin hd, raise_of_error (s := { s with input := ws }) hs]
    rfl

/-- Settles O13: an error gets into ERR by `raise` alone, which responds with the STATUS that holds it. -/
theorem anErrorIsInItsResponse : Obligations.AnErrorIsInItsResponse := by
  intro i s t hx ht
  rcases exec_err_cases hx with hsame | ⟨-, hnone⟩ | ⟨e, u, -, -, hu, rfl⟩
  · exact ⟨fun _ => hsame, fun hs => absurd (hsame.trans hs) ht⟩
  · exact absurd hnone ht
  · exact ⟨fun hs => by rw [raise_err, hu, stickyErr_of_error hs], fun _ => rfl⟩

/-! ## Operands and phases -/

/-- Settles O15: the operand check is the first of each of the four commands that have one. -/
theorem operandErrorsComeFirst : Obligations.OperandErrorsComeFirst := by
  intro i s he hbad
  cases i with
  | ibits n p => exact exec_ibits_of_invalid he hbad
  | dbits n p => exact exec_dbits_of_invalid he hbad
  | rdreg sel => exact exec_rdreg_of_none (readReg_eq_none (not_le.1 (of_decide_eq_false hbad)) s)
  | rdnode idx =>
    obtain rfl := bne_eq_false_iff_eq.1 hbad
    exact exec_rdnode_nil s
  | nop | clr | setw | incw | build | ileaf | dstart | dend | rdfreq => cases hbad

/-- The "SEQ" entries of R224's table. -/
theorem exec_of_not_accepted {i : Instr} {s : State} (he : s.err = .none) (hop : operandOk i = true)
    (h : accepts i s.phase = false) : exec i s = .next (failed .sequence s) := by
  cases i with
  | setw c v => exact exec_setw_of_not_idle he (beq_eq_false_iff_ne.1 h) c v
  | incw c => exact exec_incw_of_not_idle he (beq_eq_false_iff_ne.1 h) c
  | build => exact exec_build_of_not_idle he (beq_eq_false_iff_ne.1 h)
  | ibits n p =>
    obtain ⟨hi, hr⟩ : s.phase ≠ .idle ∧ s.phase ≠ .recon := by simpa [accepts] using h
    exact exec_ibits_of_closed he hop hi hr
  | ileaf c =>
    obtain ⟨hi, hr⟩ : s.phase ≠ .idle ∧ s.phase ≠ .recon := by simpa [accepts] using h
    exact exec_ileaf_of_closed he hi hr c
  | dstart len =>
    refine exec_dstart_of_sequence he ?_ len
    cases hp : s.phase <;> simp [accepts, hp] at h ⊢
  | dbits n p =>
    obtain ⟨hd, hn⟩ : s.phase ≠ .decode ∧ s.phase ≠ .done := by simpa [accepts] using h
    exact exec_dbits_of_sequence he hop hd hn
  | dend =>
    obtain ⟨hd, hn⟩ : s.phase ≠ .decode ∧ s.phase ≠ .done := by simpa [accepts] using h
    exact exec_dend_of_sequence he hd hn
  | nop | clr | rdreg | rdnode | rdfreq => cases h

theorem raise_err_of_noError {s : State} (he : s.err = .none) (e : Err) : (raise e s).err = e := by
  rw [raise_err, he, stickyErr_none]

/-- A command does not raise SEQUENCE in a phase that accepts it. -/
theorem exec_err_ne_sequence {i : Instr} {s t : State} (he : s.err = .none) (h : accepts i s.phase = true)
    (hx : exec i s = .next t) : t.err ≠ .sequence := by
  rcases exec_err_cases hx with hsame | ⟨-, hnone⟩ | ⟨e, u, -, hseq, hu, rfl⟩
  · rw [hsame, he]
    nofun
  · rw [hnone]
    nofun
  · rw [raise_err_of_noError (hu.trans he)]
    intro hs
    rw [hseq hs] at h
    cases h

theorem enterRecon_phase {s t : State} (hp : s.phase = .idle ∨ s.phase = .recon) (h : enterRecon s = .ok t) :
    t.phase = .recon := by
  rcases enterRecon_cases h with ⟨-, -, rfl⟩ | ⟨hi, rfl⟩
  · rfl
  · exact hp.resolve_left hi

theorem exec_ibits_phase {n : Nat} {p : Payload} {s t : State} (he : s.err = .none) (hv : chunkValid n p = true)
    (hp : s.phase = .idle ∨ s.phase = .recon) (h : exec (.ibits n p) s = .next t) : t.phase = .recon := by
  rcases execIbits_cases h with
    ⟨hne, -⟩ | ⟨-, ⟨hbad, -⟩ | ⟨-, hi, hr, -⟩ | ⟨-, -, u, hu, ⟨v, hw, rfl⟩ | ⟨e, v, hw, rfl⟩⟩⟩
  · exact absurd he hne
  · exact nomatch hv.symm.trans hbad
  · exact (hp.elim hi hr).elim
  · rw [walkBits_frame hw]
    exact enterRecon_phase (t := u) hp hu
  · rw [(walkBits_fail_frame hw).1]
    exact enterRecon_phase (t := u) hp hu

theorem exec_ileaf_phase {c : Symbol} {s t : State} (he : s.err = .none) (hp : s.phase = .idle ∨ s.phase = .recon)
    (h : exec (.ileaf c) s = .next t) : t.phase = .recon := by
  rcases execIleaf_cases h with ⟨hne, -⟩ | ⟨-, ⟨hi, hr, -⟩ | ⟨-, u, hu, ⟨v, hm, rfl⟩ | ⟨-, rfl⟩⟩⟩
  · exact absurd he hne
  · exact (hp.elim hi hr).elim
  · obtain ⟨-, r, -, -, -, -, rfl⟩ := markLeaf_eq_ok hm
    exact enterRecon_phase (t := u) hp hu
  · exact enterRecon_phase (t := u) hp hu

/-- Settles O14: the "SEQ" entries, no SEQUENCE at the "yes" entries, and the table's notes, a command at a time. -/
theorem phaseAcceptance : Obligations.PhaseAcceptance := by
  refine fun i s he hop => ⟨exec_of_not_accepted he hop, fun h t hx => ⟨exec_err_ne_sequence he h hx, ?_⟩⟩
  have hnext : ∀ {u}, exec i s = .next u → t = u := fun hu => Host.Outcome.next.inj (hx.symm.trans hu)
  cases i with
  | ibits n p => exact exec_ibits_phase he hop (by simpa [accepts] using h) hx
  | ileaf c => exact exec_ileaf_phase he (by simpa [accepts] using h) hx
  | dstart len => exact fun hp hw => hnext (exec_dstart_of_open_walk he hp hw len)
  | dbits n p => exact fun hp => hnext (exec_dbits_done he hop hp)
  | dend => exact ⟨fun hp => hnext (exec_dend_decode he hp), fun hp => hnext (exec_dend_done he hp)⟩
  | nop | clr | setw | incw | build | rdreg | rdnode | rdfreq => trivial

/-! ## What a failing command leaves -/

/-- With no error recorded, `raise` is the statements' `failed` with the code it records. -/
theorem raise_eq_failed {s : State} (he : s.err = .none) (e : Err) : raise e s = failed (raise e s).err s := by
  rw [raise_err_of_noError he]
  rfl

/-- A first IBITS does not fail: it has records for all its bits (R149). So a failing one stands in an open
reconstruction. -/
theorem ibits_fails_in_recon {n : Nat} {p : Payload} {s v u : State} {e : Err} (h : Inv s) (hv : chunkValid n p = true)
    (hp : s.phase = .idle ∨ s.phase = .recon) (hv' : enterRecon s = .ok v) (hf : walkBits (chunkBits n p) v = .fail e u) :
    s.phase = .recon ∧ walkBits (chunkBits n p) s = .fail e u := by
  rcases enterRecon_cases hv' with ⟨hi, -, rfl⟩ | ⟨hi, rfl⟩
  · obtain ⟨-, hn, -⟩ := chunkValid_iff.1 hv
    obtain ⟨t, ht, -⟩ := walkBits_started h hi (bs := chunkBits n p) (by rw [chunkBits_length]; omega)
    rw [hf] at ht
    cases ht
  · exact ⟨hp.resolve_left hi, hf⟩

/-- A failing chunk's bits before the failing one, as a chunk of its own. -/
theorem chunk_before_failing_bit {n : Nat} {p : Payload} {pre post : List Bool} {b : Bool} (hv : chunkValid n p = true)
    (hbits : chunkBits n p = pre ++ b :: post) :
    pre.length < n ∧ chunkBits pre.length (p >>> (n - pre.length)) = pre ∧
      (1 ≤ pre.length → chunkValid pre.length (p >>> (n - pre.length)) = true) := by
  have hn : n = pre.length + (post.length + 1) := by
    rw [← chunkBits_length n p, hbits, List.length_append, List.length_cons]
  have hrest : n - pre.length = post.length + 1 := by omega
  obtain ⟨hpre, -⟩ := chunkBits_prefix hbits
  rw [hrest]
  exact ⟨by omega, hpre.symm, chunkValid_part (hn ▸ hv)⟩

/-- A failing IBITS leaves what the bits before the failing bit leave (R226). -/
theorem ibits_precise {n : Nat} {p : Payload} {s u : State} {e : Err} (he : s.err = .none) (hp : s.phase = .recon)
    (hv : chunkValid n p = true) (hf : walkBits (chunkBits n p) s = .fail e u) :
    raise e u = failed e s ∨ ∃ k v, 1 ≤ k ∧ k < n ∧ exec (.ibits k (p >>> (n - k))) s = .next v ∧ v.err = .none ∧
      raise e u = failed e v := by
  obtain ⟨pre, b, post, hbits, hpre, -⟩ := walkBits_eq_fail hf
  obtain ⟨hlt, hchunk, hvalid⟩ := chunk_before_failing_bit hv hbits
  rcases Nat.eq_zero_or_pos pre.length with hk | hk
  · obtain rfl := List.length_eq_zero_iff.1 hk
    cases hpre
    exact .inl rfl
  · refine .inr ⟨pre.length, respondStatus u, hk, hlt, ?_, ?_, rfl⟩
    · rw [exec_ibits_recon he hp (hvalid hk), hchunk, hpre, Flow.finish_ok]
    · rw [walkBits_frame hpre]
      exact he

/-- What a failing content bit leaves of `v`, the state before it: nothing, or for PARTIAL_SYMBOL its count, its position
and PHASE DONE (R175, R176, R226). -/
def BitLeaves (v t : State) : Prop :=
  (t.err = .badPath ∧ t = failed .badPath v) ∨
    (t.err = .partialSymbol ∧ t.pos ≠ t.root ∧
      t = failed .partialSymbol { v with bitcnt := v.bitcnt + 1, pos := t.pos, phase := .done })

/-- The response that stood before the bit leaves no trace. -/
theorem decodeStep_fail_leaves {b : Bool} {v u : State} {e : Err} (he : v.err = .none) (hs : decodeStep b v = .fail e u)
    (x : Word) : BitLeaves (respond x v) (raise e u) := by
  rcases decodeStep_fail_cases hs with ⟨rfl, rfl, -⟩ | ⟨rfl, -, hpos, heq⟩
  · exact .inl ⟨raise_err_of_noError he _, rfl⟩
  · have hu : u.err = .none := by rw [heq]; exact he
    refine .inr ⟨raise_err_of_noError hu _, hpos, ?_⟩
    exact congrArg (fun w => failed .partialSymbol (respond x w)) heq

/-- A failing DBITS leaves what the bits before the failing bit leave, and what that bit leaves (R226). -/
theorem dbits_precise {n : Nat} {p : Payload} {s u : State} {e : Err} (he : s.err = .none)
    (hp : s.phase = .decode ∨ s.phase = .done) (hv : chunkValid n p = true)
    (hf : decodeBits (chunkBits n p) s = .fail e u) :
    ∃ k v, k < n ∧ (k = 0 → v = s) ∧ (1 ≤ k → exec (.dbits k (p >>> (n - k))) s = .next v) ∧ v.err = .none ∧
      BitLeaves v (raise e u) := by
  obtain ⟨pre, b, post, v, hbits, hpre, -, hstep⟩ := decodeBits_eq_fail hf
  obtain ⟨hlt, hchunk, hvalid⟩ := chunk_before_failing_bit hv hbits
  have hverr : v.err = .none := (decodeBits_err hpre).trans he
  rcases Nat.eq_zero_or_pos pre.length with hk | hk
  · obtain rfl := List.length_eq_zero_iff.1 hk
    cases hpre
    exact ⟨0, s, hlt, fun _ => rfl, fun hk => absurd hk (by decide), he, decodeStep_fail_leaves he hstep s.resp⟩
  · refine ⟨pre.length, respondStatus v, hlt, fun hz => absurd hz hk.ne', fun _ => ?_, hverr,
      decodeStep_fail_leaves hverr hstep _⟩
    rw [exec_dbits_decode he hp (hvalid hk), hchunk, hpre, Flow.finish_ok]

/-- Settles O16: a command that fails changed nothing before (`Ends.refused`), or is one of three that break off. -/
theorem errorsArePrecise : Obligations.ErrorsArePrecise := by
  intro i s t h he hx ht
  cases exec_ends hx with
  | succeeded err => exact absurd (err.trans he) ht
  | cleared _ err => exact absurd err ht
  | refused e => exact .inl (raise_eq_failed he e)
  | brokenOff breaks =>
    have hcode := raise_err_of_noError (breaks.err.trans he)
    cases breaks with
    | ibits valid accepted entered fails =>
      obtain ⟨hp, hf⟩ := ibits_fails_in_recon h valid accepted entered fails
      rw [hcode]
      rcases ibits_precise he hp valid hf with halone | ⟨k, v, hk, hlt, hrun, hv, heq⟩
      · exact .inl halone
      · exact .inr (.inr (.inl ⟨_, _, k, v, rfl, hk, hlt, hrun, hv, heq⟩))
    | ileaf entered =>
      rw [hcode]
      rcases enterRecon_cases entered with ⟨hp, -, rfl⟩ | ⟨-, rfl⟩
      · exact .inr (.inl ⟨_, rfl, hp, by rw [started_eq h hp]; rfl⟩)
      · exact .inl rfl
    | dbits valid accepted fails =>
      obtain ⟨k, v, hlt, hzero, hrun, hv, hleaves⟩ := dbits_precise he accepted valid fails
      exact .inr (.inr (.inr ⟨_, _, k, v, rfl, hlt, hzero, hrun, hv, hleaves⟩))

end Sys2Proof.Safety
end

section
/-! PROOFS. The statement of 70_reset_and_hazards: the state that reset and CLR leave (R260). -/

namespace Sys2Proof.Machine

/-- Settles O17: power-on reset is what CLR makes of the reset state, so it has the STATUS that CLR leaves
(`status_resetState`), and with NCOUNT 0 no index names a record (`exec_rdnode_unallocated`). -/
theorem resetLeavesTheResetState : Obligations.ResetLeavesTheResetState := by
  refine ⟨fun _ => rfl, rfl, status_resetState State.reset, fun _ => rfl, fun idx hnil => ?_, exec_clr⟩
  exact exec_rdnode_unallocated hnil (Nat.zero_le idx.toNat)

end Sys2Proof.Machine
end
